-- ==== Sys2Proof/Word.lean ====
section
/-! DEFINITION. The block's word types (`00_scope.md` R8, R9, `20_memory.md` R71). -/

namespace Sys2Proof

/-- A command word or a register slot: 32 bits, bit 0 least significant (R8, R80). -/
abbrev Word := BitVec 32

/-- One byte of a stream (R71). -/
abbrev Byte := BitVec 8

/-- A bitstring, its digits in the order they are written or read (R9). -/
abbrev Bits := List Bool

end Sys2Proof
end

