-- ==== Sys2Proof/Config.lean ====
section
/-! DEFINITION. The block's parameters (`00_scope.md` R7) and the values the spec leaves open. -/

namespace Sys2Proof.Config

/-- DEC_TABLE_CAP: distinct codes the decode table holds (R7, U17). -/
def decTableCap : Nat := 256

/-- MAX_CODE_LEN: the longest code the format carries (R7). -/
def maxCodeLen : Nat := 255

/-- The identification constant of the ID slot (R34). -/
def idWord : Word := 0x485A0001#32

/-- What the open parameter ENC_BUF_BYTES is made of. No value of it is known (R7, U3, log 6). -/
opaque encBufRaw : Word

/-- ENC_BUF_BYTES, the open capacity of the encoder's buffer: some value from 1 to 2^32 − 1 (R7, log 6). -/
def encBufBytes : Word := if encBufRaw = 0#32 then 1#32 else encBufRaw

/-- Free values, one for each value of the counter `draws` of State: what a register slot reads while BUSY = 1
(R36, U8, log 7) and the RESULT of a count that does not fit its 32 bits (log 8). -/
opaque freeWord : Nat → Word

end Sys2Proof.Config
end

