-- ==== Sys2Proof/Machine/State.lean ====
section
/-! DEFINITION. The state of the block and of the streams beside it, as plain data (`10_state.md` R20 to R47,
`20_memory.md` R60 to R67), the reasons a step can stop, and the state after reset. -/

namespace Sys2Proof.Machine

/-- The four byte streams (R60). -/
inductive Port where
  | din
  | dout
  | sink
  | source
  deriving DecidableEq, Repr

/-- Why the model has no step. -/
inductive Fault where
  /-- Raised by `step` when no command runs and none waits on CMD: the block waits for the host (R20, R273).
  Safe: the hardware waits here too. -/
  | noCommand
  /-- Raised by `step` when the running command waits for a transaction that the environment has not answered
  (R78, R264: a hang, a state with no step). Safe: the hardware waits here too. -/
  | stalled (p : Port)
  /-- Raised by ENC.FINALIZE if it would read a code-table entry that was never written (U9). No reachable state
  raises it. Safe. -/
  | unwrittenRead
  deriving DecidableEq, Repr

/-- Why the model gives an instruction no meaning. -/
inductive Refusal where
  /-- Raised by an arm of `exec` whose instruction has no meaning. No arm does. Safe. -/
  | notModelled (mnemonic : String)
  deriving DecidableEq, Repr

/-- The status codes a command can end with (R231). -/
inductive Status where
  | ok
  | endOfStream
  | endOfSource
  | unexpectedEof
  | tableOverflow
  | encOverflow
  | ioError
  | invalidBit
  | misalignedRawWrite
  | misalignedRawRead
  | illegalCommand
  | writeAfterClose
  | notOpen
  | refusedFatal
  deriving DecidableEq, Repr

/-- The sink's answer to one byte (R66). -/
inductive SinkAnswer where
  | ack
  | err (e : Byte)
  deriving DecidableEq, Repr

/-- The source's answer to one request (R67). -/
inductive SrcAnswer where
  | data (b : Byte)
  /-- END: the source is exhausted. -/
  | exhausted
  | err (e : Byte)
  deriving DecidableEq, Repr

/-- The decode session's state (R43, R190). -/
inductive DecState where
  | unopened
  | ready
  | drained
  deriving DecidableEq, Repr

/-- A record of the tree builder's arena (R42, R141): FREQ_BITS = 32, 9-bit indices. -/
inductive Node where
  | leaf (sym : Byte) (freq : Word)
  | internal (freq : Word) (left right : BitVec 9)
  deriving DecidableEq, Repr

/-- A valid entry of the decode table: its code (len is the code's length) and symbol (R43). -/
structure DtabEntry where
  code : Bits
  sym : Byte
  deriving DecidableEq, Repr

/-- The candidate register (R44): a bitstring of at most 255 digits, or the saturated length 256. -/
inductive Candidate where
  | bits (c : Bits)
  | saturated
  deriving DecidableEq, Repr

/-- One micro-operation of ENC.FINALIZE's serialization (R172): `raw(b)`, `bit(x)`, `flush()`. -/
inductive Emit where
  | raw (b : Byte)
  | bit (x : Bool)
  | flush
  deriving DecidableEq, Repr

/-- How a command ends once it has consumed the DIN bytes left to it: the gate's `complete(wcode, 0)` (R232 step 4)
or a `write_fail` (R104, R105, R171). -/
inductive Ending where
  | complete (code : Byte)
  | writeFail (code : Status) (count : Nat)
  deriving DecidableEq, Repr

/-- The transaction a running command waits for, with the loop variables of its rule. `i`, `k` and `out` count
elements done, `left` counts elements to come, `b` is the byte on offer. -/
inductive Wait where
  /-- DIN, discarding `left` operand bytes (R104, R105, R171, R232). -/
  | discard (left : Nat) (ending : Ending)
  /-- SINK, BW.WRITEBIT (R103). -/
  | writeBit (b : Byte)
  /-- DIN, BW.WRITEBITS (R104). -/
  | writeBitsDin (i left : Nat)
  /-- SINK, BW.WRITEBITS: bit `i` completed byte `b` (R104). -/
  | writeBitsSink (b : Byte) (i left : Nat)
  /-- DIN, BW.WRITERAW (R105). -/
  | writeRawDin (i left : Nat)
  /-- SINK, BW.WRITERAW (R105). -/
  | writeRawSink (b : Byte) (i left : Nat)
  /-- SINK, BW.FLUSH or BW.CLOSE (R106, R107). -/
  | flush (b : Byte)
  /-- SRC, BR.READBIT (R123). -/
  | readBit
  /-- SRC, BR.READRAW (R124). -/
  | readRawSrc (i left : Nat)
  /-- DOUT, BR.READRAW (R124). -/
  | readRawDout (b : Byte) (i left : Nat)
  /-- DIN, ENC.WRITE of `n` bytes (R171). -/
  | encWrite (n left : Nat)
  /-- SINK, ENC.FINALIZE with `todo` still to emit after `b` (R172). -/
  | encEmit (b : Byte) (out : Nat) (todo : List Emit)
  /-- SRC, DEC.OPEN, the original byte count: `got` are its bytes so far (R191). -/
  | headerCount (got : List Byte)
  /-- SRC, DEC.OPEN, the alphabet size (R191). -/
  | headerAlpha (got : List Byte)
  /-- SRC, DEC.OPEN, a descriptor's symbol byte: `left` descriptors to come, this one included (R193). -/
  | descSymbol (left : Nat)
  /-- SRC, DEC.OPEN, a descriptor's length byte: `left` descriptors after this one (R193). -/
  | descLength (left : Nat) (sym : Byte)
  /-- SRC, DEC.OPEN, a descriptor's code bits: `code` so far, `more` to come (R193). -/
  | descBits (left : Nat) (sym : Byte) (more : Nat) (code : Bits)
  /-- SRC, DEC.READ, in match_symbol; the candidate is in its register (R195). -/
  | matchBit (k left : Nat)
  /-- DOUT, DEC.READ (R194). -/
  | emitSymbol (s : Byte) (k left : Nat)
  /-- SRC, DEC.READ, in Drain (R197). -/
  | drain (k : Nat)
  deriving DecidableEq, Repr

/-- The running command: its word and the transaction it waits for (R72, R78). -/
structure Running where
  cmd : Word
  wait : Wait
  deriving DecidableEq, Repr

/-- Status, result, fault and failure registers (R22 to R28, R39). -/
structure Control where
  statusCode : Byte
  result : Word
  fatal : Bool
  faultCode : Byte
  faultCmd : Word
  faultInfo : Word
  wfail : Bool
  wcode : Byte
  rfail : Bool
  rcode : Byte
  ioerrSink : Byte
  ioerrSrc : Byte
  deriving DecidableEq, Repr

/-- The bit writer: `bw_acc` and `bw_nbits` (R37). -/
structure BitWriter where
  acc : Byte
  nbits : BitVec 3
  deriving DecidableEq, Repr

/-- The bit reader: `br_byte`, `br_nbits` and `br_ended` (R38). -/
structure BitReader where
  byte : Byte
  nbits : BitVec 3
  ended : Bool
  deriving DecidableEq, Repr

/-- The encode session (R40 to R42). `buf` holds `enc_buf[0 .. enc_count − 1]`; `codes[s]` is the code of symbol s
where `code_valid[s] = 1`; `nodes` holds `node[0 .. node_count − 1]`. -/
structure Encoder where
  buf : List Byte
  freq : Vector Word 256
  closed : Bool
  codes : Vector (Option Bits) 256
  nodes : List Node
  deriving DecidableEq, Repr

/-- The decode session (R43, R44). `dtab` holds the valid entries `dtab[0 .. dtab_n − 1]`. -/
structure Decoder where
  state : DecState
  declared : Word
  alpha : Word
  emitted : Word
  dtab : List DtabEntry
  cand : Candidate
  deriving DecidableEq, Repr

/-- The environment beside the block: what host, sink and source have supplied and what they have received
(R60, R64 to R67, R260, R273). -/
structure Streams where
  cmd : List Word
  din : List Byte
  dinTaken : Nat
  dout : List Byte
  doutRoom : Nat
  sink : List Byte
  sinkAns : List SinkAnswer
  src : List SrcAnswer
  srcTaken : Nat
  resetIn : Bool
  deriving DecidableEq, Repr

/-- The whole state. `running` is some exactly while STATUS.BUSY = 1 (R22). `encBufBytes` is the parameter
ENC_BUF_BYTES (R7, log 6) and `draws` counts the free values used (log 7, log 8): no rule names these two as state. -/
structure State where
  ctl : Control
  bw : BitWriter
  br : BitReader
  enc : Encoder
  dec : Decoder
  running : Option Running
  env : Streams
  encBufBytes : Word
  draws : Nat
  deriving DecidableEq, Repr

/-- R47. -/
def Control.reset : Control :=
  { statusCode := 0#8, result := 0#32, fatal := false, faultCode := 0#8, faultCmd := 0#32, faultInfo := 0#32,
    wfail := false, wcode := 0#8, rfail := false, rcode := 0#8, ioerrSink := 0#8, ioerrSrc := 0#8 }

/-- R47: empty and aligned. -/
def BitWriter.reset : BitWriter := { acc := 0#8, nbits := 0#3 }

/-- R47: empty and aligned, the source not seen to end. -/
def BitReader.reset : BitReader := { byte := 0#8, nbits := 0#3, ended := false }

/-- R47: an open, empty session. -/
def Encoder.reset : Encoder :=
  { buf := [], freq := Vector.replicate 256 0#32, closed := false, codes := Vector.replicate 256 none, nodes := [] }

/-- R47; the candidate is a DESIGN CHOICE, since the spec gives it no reset value (log 3). -/
def Decoder.reset : Decoder :=
  { state := .unopened, declared := 0#32, alpha := 0#32, emitted := 0#32, dtab := [], cand := .bits [] }

/-- DESIGN CHOICE: the environment has supplied nothing yet (log 4). -/
def Streams.empty : Streams :=
  { cmd := [], din := [], dinTaken := 0, dout := [], doutRoom := 0, sink := [], sinkAns := [], src := [],
    srcTaken := 0, resetIn := false }

/-- The machine right after power-on reset (R47, R262). -/
def State.reset : State :=
  { ctl := Control.reset, bw := BitWriter.reset, br := BitReader.reset, enc := Encoder.reset, dec := Decoder.reset,
    running := none, env := Streams.empty, encBufBytes := Config.encBufBytes, draws := 0 }

end Sys2Proof.Machine
end

