-- ==== Sys2Proof/Machine/Flags.lean ====
section
/-! DEFINITION. Status codes, the STATUS fields and the read-only register port (`10_state.md` R21 to R36,
`60_exceptions.md` R231). -/

namespace Sys2Proof.Machine

/-- The 8-bit code of a status (R231). -/
def Status.code : Status → Byte
  | .ok => 0x00#8
  | .endOfStream => 0x01#8
  | .endOfSource => 0x02#8
  | .unexpectedEof => 0x10#8
  | .tableOverflow => 0x11#8
  | .encOverflow => 0x12#8
  | .ioError => 0x20#8
  | .invalidBit => 0x80#8
  | .misalignedRawWrite => 0x81#8
  | .misalignedRawRead => 0x82#8
  | .illegalCommand => 0x83#8
  | .writeAfterClose => 0x84#8
  | .notOpen => 0x85#8
  | .refusedFatal => 0xFF#8

/-- DEC_STATE: 0 Unopened, 1 Ready, 2 Drained (R22). -/
def DecState.code : DecState → Nat
  | .unopened => 0
  | .ready => 1
  | .drained => 2

/-- STATUS.BUSY: 1 while a command is executing (R22). -/
def State.busy (s : State) : Bool := s.running.isSome

/-- `enc_count`, the number of bytes buffered (R40). -/
def State.encCount (s : State) : Word := BitVec.ofNat 32 s.enc.buf.length

/-- `freq[b]` (R40). -/
def Encoder.freqOf (e : Encoder) (b : Byte) : Word := e.freq[b.toNat]'b.isLt

/-- The symbols with `freq[s] > 0`, in ascending value (R140). -/
def Encoder.present (e : Encoder) : List Byte :=
  (e.freq.toList.zipIdx.filter (fun p => p.1 != 0#32)).map (fun p => BitVec.ofNat 8 p.2)

/-- A word with the value `v` placed at bit `pos`. -/
def fieldAt (pos v : Nat) : Word := BitVec.ofNat 32 v <<< pos

/-- STATUS with every field at its place (R22). -/
def statusWord (s : State) : Word :=
  fieldAt 0 s.ctl.statusCode.toNat ||| fieldAt 8 s.ctl.fatal.toNat ||| fieldAt 9 s.ctl.wfail.toNat |||
  fieldAt 10 s.ctl.rfail.toNat ||| fieldAt 11 s.enc.closed.toNat ||| fieldAt 12 s.dec.state.code |||
  fieldAt 14 s.bw.nbits.toNat ||| fieldAt 17 s.br.nbits.toNat ||| fieldAt 20 s.br.ended.toNat |||
  fieldAt 21 s.busy.toNat

/-- What slot `idx` holds when BUSY = 0 (R21 to R35). -/
def slotWord (s : State) (idx : BitVec 6) : Word :=
  match idx.toNat with
  | 0 => statusWord s
  | 1 => s.ctl.result
  | 2 => fieldAt 0 s.ctl.faultCode.toNat
  | 3 => s.ctl.faultCmd
  | 4 => s.ctl.faultInfo
  | 5 => fieldAt 0 s.ctl.ioerrSink.toNat ||| fieldAt 8 s.ctl.ioerrSrc.toNat
  | 6 => fieldAt 0 s.ctl.wcode.toNat ||| fieldAt 8 s.ctl.rcode.toNat
  | 7 => s.encCount
  | 8 => BitVec.ofNat 32 s.enc.present.length
  | 9 => s.dec.declared
  | 10 => s.dec.alpha
  | 11 => s.dec.emitted
  | 12 => Config.idWord
  | _ => 0#32

/-- A host read of slot `idx`: the value, and the state after it. With BUSY = 0 the slot's value and no effect at all
(R36, R221). With BUSY = 1 every bit but STATUS.BUSY and the ID slot is a free value, fresh at each read (R36, U8,
log 7); only the model's own counter `draws` moves. -/
def readRegister (idx : BitVec 6) (s : State) : Word × State :=
  if s.busy then
    if idx = 12#6 then (Config.idWord, s)
    else if idx = 0#6 then (Config.freeWord s.draws ||| BitVec.twoPow 32 21, { s with draws := s.draws + 1 })
    else (Config.freeWord s.draws, { s with draws := s.draws + 1 })
  else (slotWord s idx, s)

end Sys2Proof.Machine
end

