-- ==== Sys2Proof/Syntax.lean ====
section
/-! DEFINITION. The 14 commands of the opcode map (`30_encoding.md` R84). -/

namespace Sys2Proof

/-- A command. `c` is the bit operand C, `n` the length operand N (R81 to R83). -/
inductive Instr where
  | sysNop
  | bwWriteBit (c : Byte)
  | bwWriteBits (n : Nat)
  | bwWriteRaw (n : Nat)
  | bwFlush
  | bwClose
  | brReadBit
  | brReadRaw (n : Nat)
  | brResetAlign
  | encOpen
  | encWrite (n : Nat)
  | encFinalize
  | decOpen
  | decRead (n : Nat)
  deriving DecidableEq, Repr

end Sys2Proof
end

