-- ==== Sys2Proof/WellFormed.lean ====
section
/-! DEFINITION. Which instruction terms a command word can hold (`30_encoding.md` R82). -/

namespace Sys2Proof

/-- The length operand fits ARG[23:0]: 0 to 16,777,215 (R82). -/
def lengthFits (n : Nat) : Bool := decide (n < 2 ^ 24)

/-- An instruction is well formed when its operands fit their fields. The bit operand C is a byte and always
fits (R83). -/
def Instr.wellFormed : Instr → Bool
  | .sysNop => true
  | .bwWriteBit _ => true
  | .bwWriteBits n => lengthFits n
  | .bwWriteRaw n => lengthFits n
  | .bwFlush => true
  | .bwClose => true
  | .brReadBit => true
  | .brReadRaw n => lengthFits n
  | .brResetAlign => true
  | .encOpen => true
  | .encWrite n => lengthFits n
  | .encFinalize => true
  | .decOpen => true
  | .decRead n => lengthFits n

end Sys2Proof
end

