-- ==== Sys2Proof/Decode.lean ====
section
/-! DEFINITION. Decoding and encoding command words (`30_encoding.md` R80 to R86). -/

namespace Sys2Proof

/-- Why a word selects no command (R86). -/
inductive Illegal where
  /-- UNIT is 5 to 15. -/
  | unit
  /-- The unit has no such OP. -/
  | op
  /-- A reserved field of the format is not 0. -/
  | reserved
  deriving DecidableEq, Repr

/-- UNIT, bits 31:28 (R80). -/
def unitField (w : Word) : Nat := (w.extractLsb' 28 4).toNat

/-- OP, bits 27:24 (R80). -/
def opField (w : Word) : Nat := (w.extractLsb' 24 4).toNat

/-- ARG, bits 23:0, which is also the length operand N (R80, R82). -/
def argField (w : Word) : Nat := (w.extractLsb' 0 24).toNat

/-- The bit operand C, bits 7:0 (R83). -/
def bitField (w : Word) : Byte := w.extractLsb' 0 8

/-- Format N: ARG must be 0 (R81). -/
def formatN (w : Word) (i : Instr) : Except Illegal Instr :=
  if argField w = 0 then .ok i else .error .reserved

/-- Format B: ARG[23:8] must be 0 (R81). -/
def formatB (w : Word) (i : Byte → Instr) : Except Illegal Instr :=
  if w.extractLsb' 8 16 = 0#16 then .ok (i (bitField w)) else .error .reserved

/-- Format L: ARG is the length operand (R81). -/
def formatL (w : Word) (i : Nat → Instr) : Except Illegal Instr :=
  .ok (i (argField w))

/-- The row of R84 whose (UNIT, OP) is the word's, provided its reserved field is 0 (R85), or the reason the word is
illegal (R86). -/
def decode (w : Word) : Except Illegal Instr :=
  match unitField w, opField w with
  | 0, 1 => formatN w .sysNop
  | 1, 1 => formatB w .bwWriteBit
  | 1, 2 => formatL w .bwWriteBits
  | 1, 3 => formatL w .bwWriteRaw
  | 1, 4 => formatN w .bwFlush
  | 1, 5 => formatN w .bwClose
  | 2, 1 => formatN w .brReadBit
  | 2, 2 => formatL w .brReadRaw
  | 2, 3 => formatN w .brResetAlign
  | 3, 1 => formatN w .encOpen
  | 3, 2 => formatL w .encWrite
  | 3, 3 => formatN w .encFinalize
  | 4, 1 => formatN w .decOpen
  | 4, 2 => formatL w .decRead
  | u, _ => .error (if u ≤ 4 then .op else .unit)

/-- A word from its UNIT, OP and ARG (R80). -/
def wordOf (unit op arg : Nat) : Word := BitVec.ofNat 32 (unit * 2 ^ 28 + op * 2 ^ 24 + arg)

/-- The command word of an instruction (R84). -/
def encode : Instr → Word
  | .sysNop => wordOf 0 1 0
  | .bwWriteBit c => wordOf 1 1 c.toNat
  | .bwWriteBits n => wordOf 1 2 n
  | .bwWriteRaw n => wordOf 1 3 n
  | .bwFlush => wordOf 1 4 0
  | .bwClose => wordOf 1 5 0
  | .brReadBit => wordOf 2 1 0
  | .brReadRaw n => wordOf 2 2 n
  | .brResetAlign => wordOf 2 3 0
  | .encOpen => wordOf 3 1 0
  | .encWrite n => wordOf 3 2 n
  | .encFinalize => wordOf 3 3 0
  | .decOpen => wordOf 4 1 0
  | .decRead n => wordOf 4 2 n

/-- The instruction decoded from the word whose bits are the `nbits` low bits of `w`. A command is one whole 32-bit
word and has no byte order (R62, R80). -/
def decodeTableWord (nbits w : Nat) : Option Instr :=
  if w % 2 ^ nbits < 2 ^ 32 then
    match decode (BitVec.ofNat 32 (w % 2 ^ nbits)) with
    | .ok i => some i
    | .error _ => none
  else none

end Sys2Proof
end

