-- ==== Sys2Proof/Machine/Operands.lean ====
section
/-! DEFINITION. Operand forms, bit order and byte order (`30_encoding.md` R82, R83, `20_memory.md` R61, R62). -/

namespace Sys2Proof.Machine

/-- The bit a bit character stands for: 0x30 is 0, 0x31 is 1, every other byte is invalid (R83). -/
def bitOfChar (c : Byte) : Option Bool :=
  if c = 0x30#8 then some false else if c = 0x31#8 then some true else none

/-- The DIN bytes that belong to a command: N for BW.WRITEBITS, BW.WRITERAW and ENC.WRITE (R232 step 4, R264). -/
def dinOperand : Instr → Nat
  | .bwWriteBits n => n
  | .bwWriteRaw n => n
  | .encWrite n => n
  | .sysNop => 0
  | .bwWriteBit _ => 0
  | .bwFlush => 0
  | .bwClose => 0
  | .brReadBit => 0
  | .brReadRaw _ => 0
  | .brResetAlign => 0
  | .encOpen => 0
  | .encFinalize => 0
  | .decOpen => 0
  | .decRead _ => 0

/-- `acc[pos] <- x` (R100). -/
def putBit (acc : Byte) (pos : Nat) (x : Bool) : Byte :=
  if x then acc ||| BitVec.twoPow 8 pos else acc &&& ~~~ BitVec.twoPow 8 pos

/-- The four bytes of a header integer in stream order: `v[7:0], v[15:8], v[23:16], v[31:24]` (R62). -/
def le32Bytes (v : Word) : List Byte :=
  [v.extractLsb' 0 8, v.extractLsb' 8 8, v.extractLsb' 16 8, v.extractLsb' 24 8]

/-- `le32(b0 b1 b2 b3)`, and of fewer bytes likewise (R62, R191). -/
def le32 : List Byte → Word
  | [] => 0#32
  | b :: rest => BitVec.ofNat 32 (b.toNat + 256 * (le32 rest).toNat)

/-- A symbol's byte from its value (R7: symbols 0 to 255). -/
def symbolOf (v : Nat) : Byte := BitVec.ofNat 8 v

end Sys2Proof.Machine
end

