-- ==== Sys2Proof/Machine/Ops.lean ====
section
/-! DEFINITION. The operations every command shares: ends of a command (`60_exceptions.md` R230 to R238), stream
primitives (`20_memory.md` R64 to R67), bit-writer and bit-reader micro-operations (`40_bit_writer.md` R100 to R102,
`41_bit_reader.md` R120 to R122), the gate (R232). -/

namespace Sys2Proof.Machine

/-! ### Ends of a command -/

/-- `complete(code, result)` (R10, R230). -/
def complete (code : Byte) (result : Word) (s : State) : State :=
  { s with ctl := { s.ctl with statusCode := code, result := result } }

/-- `raise F(done, x)`: enter the fatal fault F (R233). -/
def raise (f : Status) (cmd : Word) (done : Nat) (x : Byte) (s : State) : State :=
  { s with ctl := { s.ctl with
      fatal := true
      faultCode := f.code
      faultCmd := cmd
      faultInfo := (x.setWidth 32 <<< 24) ||| BitVec.ofNat 32 done
      statusCode := f.code
      result := BitVec.ofNat 32 done } }

/-- REFUSED_FATAL: the command did not run (R232 step 1). -/
def refuseFatal (s : State) : State := complete Status.refusedFatal.code 0#32 s

/-- `write_fail(code, count)` (R108, R234). -/
def writeFail (f : Status) (count : Word) (s : State) : State :=
  { s with ctl := { s.ctl with wfail := true, wcode := f.code, statusCode := f.code, result := count } }

/-- `read_fail(code, count)` (R126, R234). -/
def readFail (f : Status) (count : Word) (s : State) : State :=
  { s with ctl := { s.ctl with rfail := true, rcode := f.code, statusCode := f.code, result := count } }

/-- WFAIL and its code cleared, as ENC.OPEN does (R170, R237). -/
def clearWriteFail (s : State) : State := { s with ctl := { s.ctl with wfail := false, wcode := 0#8 } }

/-- RFAIL and its code cleared, as DEC.OPEN does (R191, R237). -/
def clearReadFail (s : State) : State := { s with ctl := { s.ctl with rfail := false, rcode := 0#8 } }

/-- The reset input: every piece of block state at its value of R47, the streams as they are and the input released
(R260, R261, log 5). FATAL and the fault registers are left in no other way (R237). -/
def resetBlock (s : State) : State :=
  { State.reset with env := { s.env with resetIn := false }, encBufBytes := s.encBufBytes, draws := s.draws }

/-! ### Running to the end or to a stall -/

/-- What a command's body comes to: its end, or a transaction that the environment has not answered (R72, R78). -/
inductive Run where
  | done (s : State)
  | stall (w : Wait) (s : State)
  deriving DecidableEq, Repr

/-- The state a run leaves: BUSY = 0 at the end, BUSY = 1 with the point of the stall otherwise (R22, R232). -/
def settle (cmd : Word) : Run → State
  | .done s => { s with running := none }
  | .stall w s => { s with running := some { cmd := cmd, wait := w } }

/-! ### Stream primitives -/

/-- `DinRead()`: the next DIN byte, or nothing when none is on offer (R64). -/
def dinRead (s : State) : Option (Byte × State) :=
  match s.env.din with
  | [] => none
  | b :: rest => some (b, { s with env := { s.env with din := rest, dinTaken := s.env.dinTaken + 1 } })

/-- `DoutWrite(b)`, or nothing when the host does not accept (R65). -/
def doutWrite (b : Byte) (s : State) : Option State :=
  match s.env.doutRoom with
  | 0 => none
  | room + 1 => some { s with env := { s.env with dout := s.env.dout ++ [b], doutRoom := room } }

/-- Result of a write towards the sink: `ok k` with k bytes accepted by it (R100 to R102), `err` with the code already
in IOERR (R66), or `wait b` with byte b on offer. -/
inductive SinkResult where
  | ok (k : Nat) (s : State)
  | err (s : State)
  | wait (b : Byte) (s : State)
  deriving DecidableEq, Repr

/-- `SinkWrite(b)` (R66). -/
def sinkWrite (b : Byte) (s : State) : SinkResult :=
  match s.env.sinkAns with
  | [] => .wait b s
  | .ack :: rest => .ok 1 { s with env := { s.env with sink := s.env.sink ++ [b], sinkAns := rest } }
  | .err e :: rest =>
    .err { s with env := { s.env with sinkAns := rest }, ctl := { s.ctl with ioerrSink := e } }

/-- Result of a read from the source: a value, END, ERR with the code already in IOERR (R67), or no answer yet. -/
inductive SrcResult (α : Type) where
  | got (a : α) (s : State)
  | exhausted (s : State)
  | err (s : State)
  | wait (s : State)
  deriving DecidableEq, Repr

/-- `SrcRead()` (R67). -/
def srcRead (s : State) : SrcResult Byte :=
  match s.env.src with
  | [] => .wait s
  | .data b :: rest => .got b { s with env := { s.env with src := rest, srcTaken := s.env.srcTaken + 1 } }
  | .exhausted :: rest => .exhausted { s with env := { s.env with src := rest } }
  | .err e :: rest => .err { s with env := { s.env with src := rest }, ctl := { s.ctl with ioerrSrc := e } }

/-! ### Bit writer micro-operations -/

/-- `WriteBitInt(bit)` (R100). The completed byte leaves `bw_acc` as it is offered; R100 empties the writer after
either answer, so nothing can tell (log 11). -/
def writeBitInt (x : Bool) (s : State) : SinkResult :=
  let acc := putBit s.bw.acc (7 - s.bw.nbits.toNat) x
  if s.bw.nbits = 7#3 then sinkWrite acc { s with bw := BitWriter.reset }
  else .ok 0 { s with bw := { acc := acc, nbits := s.bw.nbits + 1#3 } }

/-- `FlushInt()` (R101). -/
def flushInt (s : State) : SinkResult :=
  if s.bw.nbits = 0#3 then .ok 0 s else sinkWrite s.bw.acc { s with bw := BitWriter.reset }

/-- `WriteRawInt(b)`: misaligned with the pending bit count, or the sink's answer (R102). -/
def writeRawInt (b : Byte) (s : State) : Except (BitVec 3) SinkResult :=
  if s.bw.nbits = 0#3 then .ok (sinkWrite b s) else .error s.bw.nbits

/-! ### Bit reader micro-operations -/

/-- The source's END latched in `br_ended` (R120, R121). -/
def setEnded (s : State) : State := { s with br := { s.br with ended := true } }

/-- `ReadBitInt()` (R120). -/
def readBitInt (s : State) : SrcResult Bool :=
  if s.br.nbits = 0#3 then
    if s.br.ended then .exhausted s
    else
      match srcRead s with
      | .got b s' => .got (b.getLsbD 7) { s' with br := { s'.br with byte := b, nbits := 7#3 } }
      | .exhausted s' => .exhausted (setEnded s')
      | .err s' => .err s'
      | .wait s' => .wait s'
  else
    .got (s.br.byte.getLsbD (s.br.nbits.toNat - 1)) { s with br := { s.br with nbits := s.br.nbits - 1#3 } }

/-- `ReadRawInt()`: misaligned with the unread bit count, or the source's answer (R121). -/
def readRawInt (s : State) : Except (BitVec 3) (SrcResult Byte) :=
  if s.br.nbits = 0#3 then
    if s.br.ended then .ok (.exhausted s)
    else
      match srcRead s with
      | .exhausted s' => .ok (.exhausted (setEnded s'))
      | r => .ok r
  else .error s.br.nbits

/-- `ResetAlignInt()`: the bits discarded and the state after (R122). -/
def resetAlignInt (s : State) : BitVec 3 × State :=
  (s.br.nbits, { s with br := { s.br with nbits := 0#3 } })

/-! ### Consuming the rest of an operand -/

/-- The end of a command whose operand has been consumed. -/
def endWith : Ending → State → State
  | .complete code, s => complete code 0#32 s
  | .writeFail f count, s => writeFail f (BitVec.ofNat 32 count) s

/-- `left` DIN bytes read and dropped, then the end (R104, R105, R171, R232 step 4). -/
def discardDin (e : Ending) : Nat → State → Run
  | 0, s => .done (endWith e s)
  | left + 1, s =>
    match dinRead s with
    | none => .stall (.discard (left + 1) e) s
    | some (_, s') => discardDin e left s'

/-! ### The gate -/

/-- Which streams a command drives (R232). -/
inductive Side where
  | system
  | write
  | read
  deriving DecidableEq, Repr

/-- The write side is BW.* and ENC.*, the read side BR.* and DEC.* (R232). -/
def sideOf : Instr → Side
  | .sysNop => .system
  | .bwWriteBit _ => .write
  | .bwWriteBits _ => .write
  | .bwWriteRaw _ => .write
  | .bwFlush => .write
  | .bwClose => .write
  | .brReadBit => .read
  | .brReadRaw _ => .read
  | .brResetAlign => .read
  | .encOpen => .write
  | .encWrite _ => .write
  | .encFinalize => .write
  | .decOpen => .read
  | .decRead _ => .read

/-- The OPEN commands, which no latched failure stops (R232 step 3). -/
def isOpen : Instr → Bool
  | .encOpen => true
  | .decOpen => true
  | .sysNop => false
  | .bwWriteBit _ => false
  | .bwWriteBits _ => false
  | .bwWriteRaw _ => false
  | .bwFlush => false
  | .bwClose => false
  | .brReadBit => false
  | .brReadRaw _ => false
  | .brResetAlign => false
  | .encWrite _ => false
  | .encFinalize => false
  | .decRead _ => false

/-- What the gate decides for a legal command (R232). -/
inductive Verdict where
  /-- Step 1. -/
  | refuse
  /-- Step 4, write side: consume the operand, then the stored code. -/
  | writeFailed
  /-- Step 4, read side: the stored code. -/
  | readFailed
  /-- Step 5, a contract violation. -/
  | violation (f : Status)
  /-- Step 5, ENC.FINALIZE when closed. -/
  | noOp
  /-- Steps 3 and 6. -/
  | proceed
  deriving DecidableEq, Repr

/-- Step 5 of the gate: the state checks of ENC.WRITE, ENC.FINALIZE and DEC.READ (R232). -/
def stateCheck : Instr → State → Verdict
  | .encWrite _, s => if s.enc.closed then .violation .writeAfterClose else .proceed
  | .encFinalize, s => if s.enc.closed then .noOp else .proceed
  | .decRead _, s => if s.dec.state = .unopened then .violation .notOpen else .proceed
  | .sysNop, _ => .proceed
  | .bwWriteBit _, _ => .proceed
  | .bwWriteBits _, _ => .proceed
  | .bwWriteRaw _, _ => .proceed
  | .bwFlush, _ => .proceed
  | .bwClose, _ => .proceed
  | .brReadBit, _ => .proceed
  | .brReadRaw _, _ => .proceed
  | .brResetAlign, _ => .proceed
  | .encOpen, _ => .proceed
  | .decOpen, _ => .proceed

/-- The checks of R232 in their order, for a legal command; step 2, the illegal word, is in `illegalCommand`. -/
def gate (i : Instr) (s : State) : Verdict :=
  if s.ctl.fatal then .refuse
  else if isOpen i || sideOf i = .system then .proceed
  else if sideOf i = .write && s.ctl.wfail then .writeFailed
  else if sideOf i = .read && s.ctl.rfail then .readFailed
  else stateCheck i s

/-- A command: its gate, then its body if the gate lets it proceed (R232). -/
def gated (i : Instr) (body : State → Run) (s : State) : Run :=
  match gate i s with
  | .refuse => .done (refuseFatal s)
  | .writeFailed => discardDin (.complete s.ctl.wcode) (dinOperand i) s
  | .readFailed => .done (complete s.ctl.rcode 0#32 s)
  | .violation f => .done (raise f (encode i) 0 0#8 s)
  | .noOp => .done (complete Status.ok.code 0#32 s)
  | .proceed => body s

/-- The state after a command has been accepted and has run to its end or to a stall (R20, R232). -/
def runCommand (i : Instr) (body : State → Run) (s : State) : State :=
  settle (encode i) (gated i body s)

end Sys2Proof.Machine
end

