-- ==== Sys2Proof/Machine/BitReader.lean ====
section
/-! DEFINITION. The bit reader's commands (`41_bit_reader.md` R123 to R125). -/

namespace Sys2Proof.Machine

/-- BR.READBIT's body: RESULT is the bit; END is a clean status (R123). -/
def readBitBody (s : State) : Run :=
  match readBitInt s with
  | .got x s' => .done (complete Status.ok.code (BitVec.ofNat 32 x.toNat) s')
  | .exhausted s' => .done (complete Status.endOfSource.code 0#32 s')
  | .err s' => .done (readFail .ioError 0#32 s')
  | .wait s' => .stall .readBit s'

/-- BR.READRAW with byte `b`, the `i`-th, to deliver and `left` bytes to come in `next` (R124). -/
def readRawDeliver (next : State → Run) (b : Byte) (i left : Nat) (s : State) : Run :=
  match doutWrite b s with
  | none => .stall (.readRawDout b i left) s
  | some s' => next s'

/-- BR.READRAW from byte `i` on, `left` bytes to come (R124). -/
def readRawLoop (cmd : Word) : Nat → Nat → State → Run
  | 0, i, s => .done (complete Status.ok.code (BitVec.ofNat 32 i) s)
  | left + 1, i, s =>
    match readRawInt s with
    | .error pending => .done (raise .misalignedRawRead cmd i (pending.setWidth 8) s)
    | .ok (.got b s') => readRawDeliver (readRawLoop cmd left (i + 1)) b i left s'
    | .ok (.exhausted s') => .done (complete Status.endOfSource.code (BitVec.ofNat 32 i) s')
    | .ok (.err s') => .done (readFail .ioError (BitVec.ofNat 32 i) s')
    | .ok (.wait s') => .stall (.readRawSrc i (left + 1)) s'

/-- BR.READRAW's body: the alignment check first, for every N (R124). -/
def readRawBody (cmd : Word) (n : Nat) (s : State) : Run :=
  if s.br.nbits = 0#3 then readRawLoop cmd n 0 s
  else .done (raise .misalignedRawRead cmd 0 (s.br.nbits.setWidth 8) s)

/-- BR.RESETALIGN's body: RESULT is the number of bits discarded (R125). -/
def resetAlignBody (s : State) : Run :=
  match resetAlignInt s with
  | (k, s') => .done (complete Status.ok.code (k.setWidth 32) s')

/-- BR.READBIT (R123). -/
def execBrReadBit (s : State) : Host.Outcome State Fault Refusal :=
  .next (runCommand .brReadBit readBitBody s)

/-- BR.READRAW N (R124). -/
def execBrReadRaw (n : Nat) (s : State) : Host.Outcome State Fault Refusal :=
  .next (runCommand (.brReadRaw n) (readRawBody (encode (.brReadRaw n)) n) s)

/-- BR.RESETALIGN (R125). -/
def execBrResetAlign (s : State) : Host.Outcome State Fault Refusal :=
  .next (runCommand .brResetAlign resetAlignBody s)

end Sys2Proof.Machine
end

