-- ==== Sys2Proof/Machine/BitWriter.lean ====
section
/-! DEFINITION. The bit writer's commands (`40_bit_writer.md` R103 to R107). A function named `…After` goes on from a
sink answer, so that a command and its resumption share one text. -/

namespace Sys2Proof.Machine

/-- BW.WRITEBIT after its bit has been placed (R103). -/
def writeBitAfter : SinkResult → Run
  | .ok _ s => .done (complete Status.ok.code 1#32 s)
  | .err s => .done (writeFail .ioError 0#32 s)
  | .wait b s => .stall (.writeBit b) s

/-- BW.WRITEBIT's body (R103). -/
def writeBitBody (cmd : Word) (c : Byte) (s : State) : Run :=
  match bitOfChar c with
  | none => .done (raise .invalidBit cmd 0 c s)
  | some x => writeBitAfter (writeBitInt x s)

/-- BW.WRITEBITS after bit `i` has been placed, `left` bits to come in `next` (R104). -/
def writeBitsAfter (next : State → Run) (i left : Nat) : SinkResult → Run
  | .ok _ s => next s
  | .err s => discardDin (.writeFail .ioError i) left s
  | .wait b s => .stall (.writeBitsSink b i left) s

/-- BW.WRITEBITS from bit `i` on, `left` bits to come (R104). -/
def writeBitsLoop (cmd : Word) : Nat → Nat → State → Run
  | 0, i, s => .done (complete Status.ok.code (BitVec.ofNat 32 i) s)
  | left + 1, i, s =>
    match dinRead s with
    | none => .stall (.writeBitsDin i (left + 1)) s
    | some (c, s') =>
      match bitOfChar c with
      | none => .done (raise .invalidBit cmd i c s')
      | some x => writeBitsAfter (writeBitsLoop cmd left (i + 1)) i left (writeBitInt x s')

/-- BW.WRITERAW after byte `i` has been offered, `left` bytes to come in `next` (R105). -/
def writeRawAfter (next : State → Run) (i left : Nat) : SinkResult → Run
  | .ok _ s => next s
  | .err s => discardDin (.writeFail .ioError i) left s
  | .wait b s => .stall (.writeRawSink b i left) s

/-- BW.WRITERAW from byte `i` on, `left` bytes to come (R105). -/
def writeRawLoop : Nat → Nat → State → Run
  | 0, i, s => .done (complete Status.ok.code (BitVec.ofNat 32 i) s)
  | left + 1, i, s =>
    match dinRead s with
    | none => .stall (.writeRawDin i (left + 1)) s
    | some (b, s') => writeRawAfter (writeRawLoop left (i + 1)) i left (sinkWrite b s')

/-- BW.WRITERAW's body: the alignment check before any byte moves, for every N (R105). -/
def writeRawBody (cmd : Word) (n : Nat) (s : State) : Run :=
  if s.bw.nbits = 0#3 then writeRawLoop n 0 s
  else .done (raise .misalignedRawWrite cmd 0 (s.bw.nbits.setWidth 8) s)

/-- BW.FLUSH after the padded byte has been offered (R106). -/
def flushAfter : SinkResult → Run
  | .ok k s => .done (complete Status.ok.code (BitVec.ofNat 32 k) s)
  | .err s => .done (writeFail .ioError 0#32 s)
  | .wait b s => .stall (.flush b) s

/-- BW.WRITEBIT C (R103). -/
def execBwWriteBit (c : Byte) (s : State) : Host.Outcome State Fault Refusal :=
  .next (runCommand (.bwWriteBit c) (writeBitBody (encode (.bwWriteBit c)) c) s)

/-- BW.WRITEBITS N (R104). -/
def execBwWriteBits (n : Nat) (s : State) : Host.Outcome State Fault Refusal :=
  .next (runCommand (.bwWriteBits n) (writeBitsLoop (encode (.bwWriteBits n)) n 0) s)

/-- BW.WRITERAW N (R105). -/
def execBwWriteRaw (n : Nat) (s : State) : Host.Outcome State Fault Refusal :=
  .next (runCommand (.bwWriteRaw n) (writeRawBody (encode (.bwWriteRaw n)) n) s)

/-- BW.FLUSH (R106). -/
def execBwFlush (s : State) : Host.Outcome State Fault Refusal :=
  .next (runCommand .bwFlush (fun s => flushAfter (flushInt s)) s)

/-- BW.CLOSE: exactly BW.FLUSH's pseudocode; it does not close the sink (R107). -/
def execBwClose (s : State) : Host.Outcome State Fault Refusal :=
  .next (runCommand .bwClose (fun s => flushAfter (flushInt s)) s)

end Sys2Proof.Machine
end

