-- ==== Sys2Proof/Machine/Tree.lean ====
section
/-! DEFINITION. The tree builder (`42_tree_builder.md` R140 to R147). -/

namespace Sys2Proof.Machine

/-- The merge key `(freq, seq)` of a node, seq its index in the arena (R141, R142). -/
abbrev MergeKey := Word × Nat

/-- Lexicographic order of merge keys, smaller first (R142). -/
def keyBefore (a b : MergeKey) : Bool :=
  decide (a.1.toNat < b.1.toNat) || (a.1 == b.1 && decide (a.2 < b.2))

/-- `P ∪ {k}`, the min-priority collection kept in key order so that `min` is its head (R143). -/
def insertKey (k : MergeKey) : List MergeKey → List MergeKey
  | [] => [k]
  | a :: rest => if keyBefore k a then k :: a :: rest else a :: insertKey k rest

/-- The leaves, in ascending symbol value (R143). -/
def leafNodes (e : Encoder) : List Node :=
  e.present.map (fun b => Node.leaf b (e.freqOf b))

/-- A node's frequency (R141). -/
def Node.freq : Node → Word
  | .leaf _ f => f
  | .internal f _ _ => f

/-- The collection P once every leaf is in it (R143). -/
def leafKeys (leaves : List Node) : List MergeKey :=
  (leaves.zipIdx.map (fun p => (p.1.freq, p.2))).foldr insertKey []

/-- At most `fuel` merges: the two least keys become the children of a new node, the first extracted on the left
(R142, R143). Each merge takes one key from P, so |P| − 1 merges leave one. -/
def mergeLoop : Nat → List MergeKey → List Node → List MergeKey × List Node
  | 0, p, nodes => (p, nodes)
  | fuel + 1, p, nodes =>
    match p with
    | a :: b :: rest =>
      mergeLoop fuel (insertKey (a.1 + b.1, nodes.length) rest)
        (nodes ++ [.internal (a.1 + b.1) (BitVec.ofNat 9 a.2) (BitVec.ofNat 9 b.2)])
    | p => (p, nodes)

/-- `TREE_BUILD(freq)`: the root's index, none for the empty alphabet, and the arena (R143 to R145). -/
def treeBuild (e : Encoder) : Option Nat × List Node :=
  let leaves := leafNodes e
  let built := mergeLoop (leaves.length - 1) (leafKeys leaves) leaves
  (built.1.head?.map Prod.snd, built.2)

end Sys2Proof.Machine
end

