-- ==== Sys2Proof/Machine/CodeTable.lean ====
section
/-! DEFINITION. The code table in both directions (`43_code_table.md` R155 to R160). -/

namespace Sys2Proof.Machine

/-- The walk of R155 from node `i` with path `p`, the symbols with their codes in the order met. A child's index is
below its parent's, so the arena's length is depth enough. -/
def codeWalk (nodes : List Node) : Nat → Nat → Bits → List (Byte × Bits)
  | 0, _, _ => []
  | depth + 1, i, p =>
    match nodes[i]? with
    | none => []
    | some (.leaf s _) => [(s, p)]
    | some (.internal _ a b) =>
      codeWalk nodes depth a.toNat (p ++ [false]) ++ codeWalk nodes depth b.toNat (p ++ [true])

/-- The table with no valid entry. -/
def noCodes : Vector (Option Bits) 256 := Vector.replicate 256 none

/-- `code_valid[s] <- 1` with its code (R155). -/
def setCode (codes : Vector (Option Bits) 256) (s : Byte) (p : Bits) : Vector (Option Bits) 256 :=
  codes.set s.toNat (some p) s.isLt

/-- `CODE_DERIVE(root)` (R155). -/
def codeDerive (root : Option Nat) (nodes : List Node) : Vector (Option Bits) 256 :=
  match root with
  | none => noCodes
  | some r => (codeWalk nodes nodes.length r []).foldl (fun codes q => setCode codes q.1 q.2) noCodes

/-- The code of symbol `s`, where it is valid (R41). -/
def Encoder.codeOf (e : Encoder) (s : Byte) : Option Bits := e.codes[s.toNat]'s.isLt

/-- `DtabInsert(L, c, s)`: a repeated code takes the later symbol; none is OVERFLOW (R159). -/
def dtabInsert (c : Bits) (s : Byte) (table : List DtabEntry) : Option (List DtabEntry) :=
  if table.any (fun e => e.code == c) then
    some (table.map (fun e => if e.code == c then { e with sym := s } else e))
  else if Config.decTableCap ≤ table.length then none
  else some (table ++ [{ code := c, sym := s }])

/-- `Lookup(cand_len, cand_bits)`: the saturated candidate matches nothing (R160). -/
def dtabLookup (cand : Candidate) (table : List DtabEntry) : Option Byte :=
  match cand with
  | .saturated => none
  | .bits c => (table.find? (fun e => e.code == c)).map DtabEntry.sym

/-- `append(b)`: past 255 digits the candidate saturates (R196). -/
def candAppend (cand : Candidate) (x : Bool) : Candidate :=
  match cand with
  | .saturated => .saturated
  | .bits c => if c.length < Config.maxCodeLen then .bits (c ++ [x]) else .saturated

end Sys2Proof.Machine
end

