-- ==== Sys2Proof/Machine/Decoder.lean ====
section
/-! DEFINITION. The decoder's commands (`45_decoder.md` R190 to R197). -/

namespace Sys2Proof.Machine

/-! ### DEC.OPEN -/

/-- One header byte through ReadRawInt: END and ERR end DEC.OPEN with RESULT 0 (R192). The misaligned case is R121's;
DEC.OPEN never meets it. -/
def headerByte (cmd : Word) (stalled : Wait) (next : Byte → State → Run) (s : State) : Run :=
  match readRawInt s with
  | .error pending => .done (raise .misalignedRawRead cmd 0 (pending.setWidth 8) s)
  | .ok (.got b s') => next b s'
  | .ok (.exhausted s') => .done (readFail .unexpectedEof 0#32 s')
  | .ok (.err s') => .done (readFail .ioError 0#32 s')
  | .ok (.wait s') => .stall stalled s'

/-- `need` more bytes of a header integer after `got`, then `next` with its value (R191, R192). -/
def headerWord (cmd : Word) (stalled : List Byte → Wait) (next : Word → State → Run) :
    Nat → List Byte → State → Run
  | 0, got, s => next (le32 got) s
  | need + 1, got, s =>
    headerByte cmd (stalled got) (fun b s' => headerWord cmd stalled next need (got ++ [b]) s') s

/-- A descriptor whose code is complete: realign and insert, then `next` (R193). -/
def descInsert (next : State → Run) (sym : Byte) (code : Bits) (s : State) : Run :=
  let s' := (resetAlignInt s).2
  match dtabInsert code sym s'.dec.dtab with
  | none => .done (readFail .tableOverflow 0#32 s')
  | some table => next { s' with dec := { s'.dec with dtab := table } }

/-- `more` code bits of a descriptor after `code`, then the insertion (R193). -/
def descBits (next : State → Run) (left : Nat) (sym : Byte) : Nat → Bits → State → Run
  | 0, code, s => descInsert next sym code s
  | more + 1, code, s =>
    match readBitInt s with
    | .got x s' => descBits next left sym more (code ++ [x]) s'
    | .exhausted s' => .done (readFail .unexpectedEof 0#32 s')
    | .err s' => .done (readFail .ioError 0#32 s')
    | .wait s' => .stall (.descBits left sym (more + 1) code) s'

/-- A descriptor from its length byte on (R193). -/
def descLength (cmd : Word) (next : State → Run) (left : Nat) (sym : Byte) (s : State) : Run :=
  headerByte cmd (.descLength left sym) (fun len s' => descBits next left sym len.toNat [] s') s

/-- `left` descriptors, then Ready (R191, R193). -/
def descLoop (cmd : Word) : Nat → State → Run
  | 0, s => .done (complete Status.ok.code 0#32 { s with dec := { s.dec with state := .ready } })
  | left + 1, s =>
    headerByte cmd (.descSymbol (left + 1)) (fun sym s' => descLength cmd (descLoop cmd left) left sym s') s

/-- `dec_alpha` is known: the descriptors follow (R191). -/
def alphaKnown (cmd : Word) (v : Word) (s : State) : Run :=
  descLoop cmd v.toNat { s with dec := { s.dec with alpha := v } }

/-- `dec_declared` is known: the alphabet size follows (R191). -/
def countKnown (cmd : Word) (v : Word) (s : State) : Run :=
  headerWord cmd .headerAlpha (alphaKnown cmd) 4 [] { s with dec := { s.dec with declared := v } }

/-- The fresh reader and session DEC.OPEN starts from. The candidate is no part of what R191 clears. -/
def freshSession (s : State) : State :=
  clearReadFail { s with br := BitReader.reset, dec := { Decoder.reset with cand := s.dec.cand } }

/-- DEC.OPEN's body (R191). -/
def decOpenBody (cmd : Word) (s : State) : Run :=
  headerWord cmd .headerCount (countKnown cmd) 4 [] (freshSession s)

/-! ### DEC.READ -/

/-- The bits that can still be read without a new answer of the source, and one more for each step that reads none:
enough fuel for the loops over ReadBitInt (proved in Laws). -/
def readFuel (s : State) : Nat := s.br.nbits.toNat + 8 * s.env.src.length + 1

/-- The loop of R195: look up, then read and append. -/
def matchLoop : Nat → State → SrcResult Byte
  | 0, s => .wait s
  | fuel + 1, s =>
    match dtabLookup s.dec.cand s.dec.dtab with
    | some sym => .got sym s
    | none =>
      match readBitInt s with
      | .got x s' => matchLoop fuel { s' with dec := { s'.dec with cand := candAppend s'.dec.cand x } }
      | .exhausted s' => .exhausted s'
      | .err s' => .err s'
      | .wait s' => .wait s'

/-- `match_symbol(k)` from the candidate as it stands (R195). -/
def matchSymbol (s : State) : SrcResult Byte := matchLoop (readFuel s) s

/-- `cand_len <- 0` (R195). -/
def clearCandidate (s : State) : State := { s with dec := { s.dec with cand := .bits [] } }

/-- The loop of R197: bits are read and dropped until END or ERR, so it has no value to give. -/
def drainLoop : Nat → State → SrcResult Empty
  | 0, s => .wait s
  | fuel + 1, s =>
    match readBitInt s with
    | .got _ s' => drainLoop fuel s'
    | .exhausted s' => .exhausted s'
    | .err s' => .err s'
    | .wait s' => .wait s'

/-- `Drain()` and the end of the command, `k` bytes emitted (R194, R197). -/
def drainBody (k : Nat) (s : State) : Run :=
  match drainLoop (readFuel s) s with
  | .exhausted s' =>
    .done (complete Status.endOfStream.code (BitVec.ofNat 32 k)
      { s' with dec := { s'.dec with state := .drained } })
  | .err s' => .done (readFail .ioError (BitVec.ofNat 32 k) s')
  | .wait s' => .stall (.drain k) s'

/-- A matched symbol to DOUT, then `next` (R194). -/
def emitSymbol (next : State → Run) (sym : Byte) (k left : Nat) (s : State) : Run :=
  match doutWrite sym s with
  | none => .stall (.emitSymbol sym k left) s
  | some s' => next { s' with dec := { s'.dec with emitted := s'.dec.emitted + 1#32 } }

/-- DEC.READ after match_symbol, `k` bytes emitted before it, `left` slots after it in `next` (R194, R195). -/
def matchAfter (next : State → Run) (k left : Nat) : SrcResult Byte → Run
  | .got sym s => emitSymbol next sym k left s
  | .exhausted s => .done (readFail .unexpectedEof (BitVec.ofNat 32 k) s)
  | .err s => .done (readFail .ioError (BitVec.ofNat 32 k) s)
  | .wait s => .stall (.matchBit k left) s

/-- DEC.READ with `left` slots to fill and `k` filled (R194). -/
def decReadLoop : Nat → Nat → State → Run
  | 0, k, s => .done (complete Status.ok.code (BitVec.ofNat 32 k) s)
  | left + 1, k, s =>
    if s.dec.emitted = s.dec.declared then drainBody k s
    else matchAfter (decReadLoop left (k + 1)) k left (matchSymbol (clearCandidate s))

/-- DEC.OPEN (R191). -/
def execDecOpen (s : State) : Host.Outcome State Fault Refusal :=
  .next (runCommand .decOpen (decOpenBody (encode .decOpen)) s)

/-- DEC.READ N (R194). -/
def execDecRead (n : Nat) (s : State) : Host.Outcome State Fault Refusal :=
  .next (runCommand (.decRead n) (decReadLoop n 0) s)

end Sys2Proof.Machine
end

