-- ==== Sys2Proof/Machine/Encoder.lean ====
section
/-! DEFINITION. The encoder's commands (`44_encoder.md` R170 to R177). -/

namespace Sys2Proof.Machine

/-- ENC.OPEN's body (R170). -/
def encOpenBody (s : State) : Run :=
  .done (complete Status.ok.code 0#32
    (clearWriteFail { s with enc := Encoder.reset, bw := BitWriter.reset }))

/-- One input byte: buffered and counted (R171). -/
def Encoder.push (e : Encoder) (b : Byte) : Encoder :=
  { e with buf := e.buf ++ [b], freq := e.freq.set b.toNat (e.freqOf b + 1#32) b.isLt }

/-- ENC.WRITE of `n` bytes with `left` to come (R171). -/
def encWriteLoop (n : Nat) : Nat → State → Run
  | 0, s => .done (complete Status.ok.code (BitVec.ofNat 32 n) s)
  | left + 1, s =>
    match dinRead s with
    | none => .stall (.encWrite n (left + 1)) s
    | some (b, s') => encWriteLoop n left { s' with enc := s'.enc.push b }

/-- ENC.WRITE's body: all or nothing against ENC_BUF_BYTES (R171). -/
def encWriteBody (n : Nat) (s : State) : Run :=
  if s.encBufBytes.toNat < s.enc.buf.length + n then discardDin (.writeFail .encOverflow 0) n s
  else encWriteLoop n n s

/-- A code's bits, one `bit(x)` each (R172). -/
def emitCode (c : Bits) : List Emit := c.map Emit.bit

/-- A symbol's descriptor: symbol, length, code bits, flush (R174). -/
def emitDescriptor (codes : Byte → Bits) (s : Byte) : List Emit :=
  [.raw s, .raw (BitVec.ofNat 8 (codes s).length)] ++ emitCode (codes s) ++ [.flush]

/-- Everything ENC.FINALIZE emits, in order: count, alphabet size, descriptors, payload, final flush (R172). -/
def emitStream (codes : Byte → Bits) (present buf : List Byte) : List Emit :=
  (le32Bytes (BitVec.ofNat 32 buf.length)).map Emit.raw ++
  (le32Bytes (BitVec.ofNat 32 present.length)).map Emit.raw ++
  present.flatMap (emitDescriptor codes) ++
  buf.flatMap (fun b => emitCode (codes b)) ++
  [.flush]

/-- RESULT for a count of sink bytes. A count that its 32 bits cannot hold is a value no rule states: a free value
(log 8). -/
def countResult (out : Nat) (s : State) : Word × State :=
  if out < 2 ^ 32 then (BitVec.ofNat 32 out, s)
  else (Config.freeWord s.draws, { s with draws := s.draws + 1 })

/-- ENC.FINALIZE ended by a refused byte (R172). -/
def emitFail (out : Nat) (s : State) : Run :=
  match countResult out s with
  | (r, s') => .done (writeFail .ioError r s')

/-- ENC.FINALIZE ended with the whole stream written (R172). -/
def emitDone (out : Nat) (s : State) : Run :=
  match countResult out s with
  | (r, s') => .done (complete Status.ok.code r { s' with enc := { s'.enc with closed := true } })

/-- ENC.FINALIZE after a micro-operation, with `out` bytes accepted before it (R172). -/
def emitAfter (next : Nat → State → Run) (out : Nat) (todo : List Emit) : SinkResult → Run
  | .ok k s => next (out + k) s
  | .err s => emitFail out s
  | .wait b s => .stall (.encEmit b out todo) s

/-- ENC.FINALIZE's micro-operations in order; `out` counts sink bytes accepted by this command (R172). -/
def emitLoop (cmd : Word) : List Emit → Nat → State → Run
  | [], out, s => emitDone out s
  | .raw b :: todo, out, s =>
    match writeRawInt b s with
    | .error pending => .done (raise .misalignedRawWrite cmd out (pending.setWidth 8) s)
    | .ok r => emitAfter (emitLoop cmd todo) out todo r
  | .bit x :: todo, out, s => emitAfter (emitLoop cmd todo) out todo (writeBitInt x s)
  | .flush :: todo, out, s => emitAfter (emitLoop cmd todo) out todo (flushInt s)

/-- The encoder once TREE_BUILD and CODE_DERIVE have run (R172, R177). -/
def Encoder.derive (e : Encoder) : Encoder :=
  match treeBuild e with
  | (root, nodes) => { e with codes := codeDerive root nodes, nodes := nodes }

/-- The code written for `s`; the empty one stands for an entry that is not valid, which `codesWritten` rules out. -/
def Encoder.writtenCode (e : Encoder) (s : Byte) : Bits := (e.codeOf s).getD []

/-- Every entry ENC.FINALIZE is going to read is valid (R156, U9, log 9). -/
def Encoder.codesWritten (e : Encoder) : Bool :=
  e.present.all (fun s => (e.codeOf s).isSome) && e.buf.all (fun s => (e.codeOf s).isSome)

/-- ENC.FINALIZE's body (R172). -/
def encFinalizeBody (cmd : Word) (s : State) : Run :=
  let e := s.enc.derive
  emitLoop cmd (emitStream e.writtenCode e.present e.buf) 0 { s with enc := e }

/-- ENC.OPEN (R170). -/
def execEncOpen (s : State) : Host.Outcome State Fault Refusal :=
  .next (runCommand .encOpen encOpenBody s)

/-- ENC.WRITE N (R171). -/
def execEncWrite (n : Nat) (s : State) : Host.Outcome State Fault Refusal :=
  .next (runCommand (.encWrite n) (encWriteBody n) s)

/-- ENC.FINALIZE (R172). In a state whose buffer and frequencies disagree, which no run reaches, it would read an
unwritten code and faults (U9). -/
def execEncFinalize (s : State) : Host.Outcome State Fault Refusal :=
  if gate .encFinalize s = .proceed && !s.enc.derive.codesWritten then .fault .unwrittenRead
  else .next (runCommand .encFinalize (encFinalizeBody (encode .encFinalize)) s)

end Sys2Proof.Machine
end

