-- ==== Sys2Proof/Machine/System.lean ====
section
/-! DEFINITION. SYS.NOP (`46_system.md` R220). -/

namespace Sys2Proof.Machine

/-- SYS.NOP (R220). -/
def execSysNop (s : State) : Host.Outcome State Fault Refusal :=
  .next (runCommand .sysNop (fun s => .done (complete Status.ok.code 0#32 s)) s)

end Sys2Proof.Machine
end

