-- ==== Sys2Proof/Machine/Dispatch.lean ====
section
/-! DEFINITION. One arm per command of the opcode map (`30_encoding.md` R84). -/

namespace Sys2Proof.Machine

def exec (i : Instr) (s : State) : Host.Outcome State Fault Refusal :=
  match i with
  | .sysNop => Sys2Proof.Machine.execSysNop s
  | .bwWriteBit c => Sys2Proof.Machine.execBwWriteBit c s
  | .bwWriteBits n => Sys2Proof.Machine.execBwWriteBits n s
  | .bwWriteRaw n => Sys2Proof.Machine.execBwWriteRaw n s
  | .bwFlush => Sys2Proof.Machine.execBwFlush s
  | .bwClose => Sys2Proof.Machine.execBwClose s
  | .brReadBit => Sys2Proof.Machine.execBrReadBit s
  | .brReadRaw n => Sys2Proof.Machine.execBrReadRaw n s
  | .brResetAlign => Sys2Proof.Machine.execBrResetAlign s
  | .encOpen => Sys2Proof.Machine.execEncOpen s
  | .encWrite n => Sys2Proof.Machine.execEncWrite n s
  | .encFinalize => Sys2Proof.Machine.execEncFinalize s
  | .decOpen => Sys2Proof.Machine.execDecOpen s
  | .decRead n => Sys2Proof.Machine.execDecRead n s

end Sys2Proof.Machine
end

