-- ==== Sys2Proof/Machine/Sequencer.lean ====
section
/-! DEFINITION. What a step does beside executing an instruction: taking a command word, an illegal word, going on
with a stalled command (`10_state.md` R20, `30_encoding.md` R86, `20_memory.md` R72, R78). -/

namespace Sys2Proof.Machine

/-- The next word on CMD, taken from it (R20, R269). -/
def takeCommand (s : State) : Option (Word × State) :=
  match s.env.cmd with
  | [] => none
  | w :: rest => some (w, { s with env := { s.env with cmd := rest } })

/-- A word that selects no command: refused while FATAL is set, else ILLEGAL_COMMAND with no other effect
(R86, R232 steps 1 and 2). -/
def illegalCommand (w : Word) (s : State) : State :=
  if s.ctl.fatal then refuseFatal s else raise .illegalCommand w 0 0#8 s

/-- The stream a waiting command needs. -/
def Wait.port : Wait → Port
  | .discard _ _ => .din
  | .writeBit _ => .sink
  | .writeBitsDin _ _ => .din
  | .writeBitsSink _ _ _ => .sink
  | .writeRawDin _ _ => .din
  | .writeRawSink _ _ _ => .sink
  | .flush _ => .sink
  | .readBit => .source
  | .readRawSrc _ _ => .source
  | .readRawDout _ _ _ => .dout
  | .encWrite _ _ => .din
  | .encEmit _ _ _ => .sink
  | .headerCount _ => .source
  | .headerAlpha _ => .source
  | .descSymbol _ => .source
  | .descLength _ _ => .source
  | .descBits _ _ _ _ => .source
  | .matchBit _ _ => .source
  | .emitSymbol _ _ _ => .dout
  | .drain _ => .source

/-- The environment has an answer for stream `p` (R64 to R67). -/
def Port.ready (p : Port) (s : State) : Bool :=
  match p with
  | .din => !s.env.din.isEmpty
  | .dout => s.env.doutRoom != 0
  | .sink => !s.env.sinkAns.isEmpty
  | .source => !s.env.src.isEmpty

/-- The running command `cmd` from the transaction it waits for (R72). -/
def resume (cmd : Word) (w : Wait) (s : State) : Run :=
  match w with
  | .discard left ending => discardDin ending left s
  | .writeBit b => writeBitAfter (sinkWrite b s)
  | .writeBitsDin i left => writeBitsLoop cmd left i s
  | .writeBitsSink b i left => writeBitsAfter (writeBitsLoop cmd left (i + 1)) i left (sinkWrite b s)
  | .writeRawDin i left => writeRawLoop left i s
  | .writeRawSink b i left => writeRawAfter (writeRawLoop left (i + 1)) i left (sinkWrite b s)
  | .flush b => flushAfter (sinkWrite b s)
  | .readBit => readBitBody s
  | .readRawSrc i left => readRawLoop cmd left i s
  | .readRawDout b i left => readRawDeliver (readRawLoop cmd left (i + 1)) b i left s
  | .encWrite n left => encWriteLoop n left s
  | .encEmit b out todo => emitAfter (emitLoop cmd todo) out todo (sinkWrite b s)
  | .headerCount got => headerWord cmd .headerCount (countKnown cmd) (4 - got.length) got s
  | .headerAlpha got => headerWord cmd .headerAlpha (alphaKnown cmd) (4 - got.length) got s
  | .descSymbol left => descLoop cmd left s
  | .descLength left sym => descLength cmd (descLoop cmd left) left sym s
  | .descBits left sym more code => descBits (descLoop cmd left) left sym more code s
  | .matchBit k left => matchAfter (decReadLoop left (k + 1)) k left (matchSymbol s)
  | .emitSymbol sym k left => emitSymbol (decReadLoop left (k + 1)) sym k left s
  | .drain k => drainBody k s

/-- A step of a running command: on to its end or its next stall, and none while its stream has no answer (R78). -/
def resumeStep (r : Running) (s : State) : Host.Outcome State Fault Refusal :=
  if r.wait.port.ready s then .next (settle r.cmd (resume r.cmd r.wait { s with running := none }))
  else .fault (.stalled r.wait.port)

end Sys2Proof.Machine
end

