-- ==== Sys2Proof/Machine/Step.lean ====
section
/-! DEFINITION. One step: the reset input first, then the running command, else the next command word
(`10_state.md` R20, `70_reset_and_hazards.md` R260). -/

namespace Sys2Proof.Machine

/-- A step with no command running: take the next word and execute what it selects (R20, R85, R86). -/
def commandStep (s : State) : Host.Outcome State Fault Refusal :=
  match takeCommand s with
  | none => .fault .noCommand
  | some (w, s') =>
    match decode w with
    | .error _ => .next (illegalCommand w s')
    | .ok i => exec i s'

/-- One step of the block: to the end of a command or to its next stall (R271, log 10). -/
def step (s : State) : Host.Outcome State Fault Refusal :=
  if s.env.resetIn then .next (resetBlock s)
  else
    match s.running with
    | some r => resumeStep r s
    | none => commandStep s

/-- The state whose next step takes the word made of the `nbits` low bits of `w`: the word first on CMD, no command
running, the reset input not asserted (log 4). -/
def State.withFetchWord (s : State) (nbits w : Nat) : State :=
  { s with
    running := none
    env := { s.env with cmd := BitVec.ofNat 32 (w % 2 ^ nbits) :: s.env.cmd, resetIn := false } }

end Sys2Proof.Machine
end

