-- ==== Sys2Proof/Machine/Environment.lean ====
section
/-! DEFINITION. What host, sink and source can do to the machine (`20_memory.md` R60, R78, `70_reset_and_hazards.md`
R260 to R264). None of these is a step of the block. -/

namespace Sys2Proof.Machine

/-- The host writes a command word to CMD; a word written early waits there (R20, R269). -/
def hostCommand (w : Word) (s : State) : State := { s with env := { s.env with cmd := s.env.cmd ++ [w] } }

/-- The host offers bytes on DIN (R64). -/
def hostOffer (bs : List Byte) (s : State) : State := { s with env := { s.env with din := s.env.din ++ bs } }

/-- The host accepts `n` more DOUT bytes (R65). -/
def hostAccept (n : Nat) (s : State) : State := { s with env := { s.env with doutRoom := s.env.doutRoom + n } }

/-- The sink's next answers (R66). -/
def sinkAnswer (as : List SinkAnswer) (s : State) : State :=
  { s with env := { s.env with sinkAns := s.env.sinkAns ++ as } }

/-- The source's next answers (R67). -/
def sourceAnswer (as : List SrcAnswer) (s : State) : State := { s with env := { s.env with src := s.env.src ++ as } }

/-- The host asserts the reset input (R260). -/
def assertReset (s : State) : State := { s with env := { s.env with resetIn := true } }

end Sys2Proof.Machine
end

