-- ==== Sys2Proof/Safety.lean ====
section
/-! DEFINITION. The words the claims use: ready states, bit packing and the stream format stated on their own
(`20_memory.md` R61 to R63), what a supply of answers is, and the invariant of the machine. -/

namespace Sys2Proof.Machine

/-! ### Ready states -/

/-- No command runs (STATUS.BUSY = 0, R20) and neither FATAL nor WFAIL is set: the gate lets a write-side command
without a state check proceed (R232). -/
abbrev WriteReady (s : State) : Prop := s.running = none ∧ s.ctl.fatal = false ∧ s.ctl.wfail = false

/-- No command runs and neither FATAL nor RFAIL is set (R232). -/
abbrev ReadReady (s : State) : Prop := s.running = none ∧ s.ctl.fatal = false ∧ s.ctl.rfail = false

/-- Refused while FATAL is set (R232 step 1). -/
def refusedWhileFatal (i : Instr) : Prop :=
  ∀ s : State, s.ctl.fatal = true → exec i s = .next { s with
    running := none, ctl := { s.ctl with statusCode := 0xFF#8, result := 0#32 } }

/-- The ends of a write-side command with `n` operand bytes on DIN that its gate alone decides: refused while FATAL is
set; with WFAIL latched, the stored code once the `n` bytes are read (R232 steps 1 and 4). -/
def writeGateEnds (i : Instr) (n : Nat) : Prop :=
  refusedWhileFatal i ∧
  ∀ s : State, s.ctl.fatal = false → s.ctl.wfail = true → n ≤ s.env.din.length → exec i s = .next { s with
    running := none
    env := { s.env with din := s.env.din.drop n, dinTaken := s.env.dinTaken + n }
    ctl := { s.ctl with statusCode := s.ctl.wcode, result := 0#32 } }

/-- The ends of a read-side command that its gate alone decides: refused while FATAL is set; with RFAIL latched, the
stored code (R232 steps 1 and 4). -/
def readGateEnds (i : Instr) : Prop :=
  refusedWhileFatal i ∧
  ∀ s : State, s.ctl.fatal = false → s.ctl.rfail = true → exec i s = .next { s with
    running := none, ctl := { s.ctl with statusCode := s.ctl.rcode, result := 0#32 } }

/-- R37: every bit position of `bw_acc` that is not yet written holds 0. -/
abbrev BitWriter.padded (w : BitWriter) : Prop := ∀ k, k < 8 - w.nbits.toNat → w.acc.getLsbD k = false

/-- R40: each frequency counts its symbol's occurrences in the buffer, and the buffer keeps within ENC_BUF_BYTES. -/
abbrev State.countsBuffer (s : State) : Prop :=
  (∀ b, s.enc.freqOf b = BitVec.ofNat 32 (s.enc.buf.count b)) ∧ s.enc.buf.length ≤ s.encBufBytes.toNat

/-! ### Bits and bytes -/

/-- A byte's digits, most significant first (R61). -/
def byteBits (b : Byte) : Bits := (List.range 8).map (fun k => b.getLsbD (7 - k))

/-- The byte made of a bitstring's first eight digits, most significant first, zeros on the right (R61). -/
def packByte (c : Bits) : Byte :=
  BitVec.ofNat 8 ((List.range 8).foldl (fun v k => 2 * v + (c.getD k false).toNat) 0)

/-- A bitstring in ⌈|c|/8⌉ bytes, zero-padded on the right (R61, R63). -/
def packBits (c : Bits) : List Byte :=
  (List.range ((c.length + 7) / 8)).map (fun j => packByte (c.drop (8 * j)))

/-- The digits waiting in the bit writer, in write order (R37). -/
def BitWriter.pending (w : BitWriter) : Bits := (byteBits w.acc).take w.nbits.toNat

/-- The bit writer holding fewer than eight digits (R37). -/
def BitWriter.holding (c : Bits) : BitWriter := { acc := packByte c, nbits := BitVec.ofNat 3 c.length }

/-- The unread digits of the bit reader's byte, the next one first (R38). -/
def BitReader.unread (r : BitReader) : Bits := (byteBits r.byte).drop (8 - r.nbits.toNat)

/-- The bit character of a digit (R83). -/
def charOfBit (x : Bool) : Byte := if x then 0x31#8 else 0x30#8

/-! ### The compressed format -/

/-- A descriptor as it stands in a header: symbol, code bit-length, and the bytes its code bits are in (R63). -/
structure Descriptor where
  sym : Byte
  len : Byte
  field : List Byte
  deriving DecidableEq, Repr

/-- The code takes ⌈L/8⌉ bytes (R63). -/
abbrev Descriptor.fits (d : Descriptor) : Prop := d.field.length = (d.len.toNat + 7) / 8

/-- The L code bits, most significant first; what follows them in the last byte is padding, of any value (R193). -/
def Descriptor.code (d : Descriptor) : Bits := (d.field.flatMap byteBits).take d.len.toNat

/-- The descriptor's bytes in stream order (R63). -/
def Descriptor.bytes (d : Descriptor) : List Byte := d.sym :: d.len :: d.field

/-- The descriptor the encoder writes for a symbol and its code, the padding zero (R174). -/
def descriptorOf (sym : Byte) (code : Bits) : Descriptor :=
  { sym := sym, len := BitVec.ofNat 8 code.length, field := packBits code }

/-- The header: original byte count, alphabet size, descriptors (R63). -/
def headerBytes (count : Word) (descs : List Descriptor) : List Byte :=
  le32Bytes count ++ le32Bytes (BitVec.ofNat 32 descs.length) ++ descs.flatMap Descriptor.bytes

/-- The whole stream for a buffer, the symbols present in it and their codes (R63). -/
def streamBytes (codes : Byte → Bits) (present buf : List Byte) : List Byte :=
  headerBytes (BitVec.ofNat 32 buf.length) (present.map (fun b => descriptorOf b (codes b))) ++
  packBits (buf.flatMap codes)

/-- What ENC.FINALIZE writes for a session (R172). -/
def Encoder.stream (e : Encoder) : List Byte := streamBytes e.derive.writtenCode e.present e.buf

/-- The decode table of a list of descriptors, none on overflow (R159, R193). -/
def tableOf (descs : List Descriptor) : Option (List DtabEntry) :=
  descs.foldlM (fun table d => dtabInsert d.code d.sym table) []

/-- `br_byte` after a header: the last code byte read, 0 when there was none. -/
def lastCodeByte (descs : List Descriptor) : Byte :=
  ((descs.flatMap Descriptor.field).getLast?).getD 0#8

/-- DEC.OPEN has read the bytes `taken` of a header and needs more: what DEC_DECLARED, DEC_ALPHA, the decode table and
`br_byte` then are (R191 to R193). -/
inductive HeaderCut : (taken : List Byte) → (declared alpha : Word) → (table : List DtabEntry) → (last : Byte) → Prop
  /-- In the original byte count. -/
  | inCount (got : List Byte) : got.length < 4 → HeaderCut got 0#32 0#32 [] 0#8
  /-- In the alphabet size. -/
  | inAlpha (count : Word) (got : List Byte) : got.length < 4 → HeaderCut (le32Bytes count ++ got) count 0#32 [] 0#8
  /-- In the descriptor `d`, of which `part` is read, after the whole descriptors `pre`. -/
  | inDescriptor (count alpha : Word) (pre : List Descriptor) (d : Descriptor) (part : List Byte)
      (table : List DtabEntry) :
      (∀ x ∈ pre, x.fits) → d.fits → pre.length < alpha.toNat → tableOf pre = some table →
      part <+: d.bytes → part ≠ d.bytes →
      HeaderCut (le32Bytes count ++ le32Bytes alpha ++ pre.flatMap Descriptor.bytes ++ part) count alpha table
        (((pre.flatMap Descriptor.field ++ part.drop 2).getLast?).getD 0#8)

/-- While the code of `e` is being read no other entry of the table matches before it, so `e` is what R195 finds. In a
prefix-free table that holds of every entry; R199 asks for no such table. -/
abbrev matchedFirst (table : List DtabEntry) (e : DtabEntry) : Prop :=
  ∀ a ∈ table, a.code <+: e.code → a = e

/-! ### What the environment adds -/

/-- The answer hands over a byte (R67). -/
def SrcAnswer.isData : SrcAnswer → Bool
  | .data _ => true
  | .exhausted => false
  | .err _ => false

/-- Answers and bytes that arrive later. -/
structure Supply where
  din : List Byte
  doutRoom : Nat
  sinkAns : List SinkAnswer
  src : List SrcAnswer

/-- The state once the environment has supplied `x` more. -/
def State.supplied (s : State) (x : Supply) : State :=
  sourceAnswer x.src (sinkAnswer x.sinkAns (hostAccept x.doutRoom (hostOffer x.din s)))

/-! ### The two sides -/

/-- `s` with the write side of `w`: bit writer, encoder, SINK, DIN and the write-side latches (R74). The model's
`draws` goes with it, since only ENC.FINALIZE uses it in a step. -/
def State.withWrite (s w : State) : State :=
  { s with
    bw := w.bw
    enc := w.enc
    encBufBytes := w.encBufBytes
    draws := w.draws
    ctl := { s.ctl with wfail := w.ctl.wfail, wcode := w.ctl.wcode, ioerrSink := w.ctl.ioerrSink }
    env := { s.env with
      din := w.env.din, dinTaken := w.env.dinTaken, sink := w.env.sink, sinkAns := w.env.sinkAns } }

/-- `s` with the read side of `r`: bit reader, decoder, SRC, DOUT and the read-side latches (R74). -/
def State.withRead (s r : State) : State :=
  { s with
    br := r.br
    dec := r.dec
    ctl := { s.ctl with rfail := r.ctl.rfail, rcode := r.ctl.rcode, ioerrSrc := r.ctl.ioerrSrc }
    env := { s.env with
      src := r.env.src, srcTaken := r.env.srcTaken, dout := r.env.dout, doutRoom := r.env.doutRoom } }

/-! ### The opcode map by mask and match -/

/-- A row of the opcode map: the word's fixed bits and their values (R85). -/
structure Row where
  mask : Word
  pattern : Word
  deriving DecidableEq, Repr

/-- A row of format N. -/
def Row.ofN (pattern : Word) : Row := { mask := 0xFFFFFFFF#32, pattern := pattern }

/-- A row of format B. -/
def Row.ofB (pattern : Word) : Row := { mask := 0xFFFFFF00#32, pattern := pattern }

/-- A row of format L. -/
def Row.ofL (pattern : Word) : Row := { mask := 0xFF000000#32, pattern := pattern }

/-- The row of an instruction (R84, R85). -/
def rowOf : Instr → Row
  | .sysNop => .ofN 0x01000000#32
  | .bwWriteBit _ => .ofB 0x11000000#32
  | .bwWriteBits _ => .ofL 0x12000000#32
  | .bwWriteRaw _ => .ofL 0x13000000#32
  | .bwFlush => .ofN 0x14000000#32
  | .bwClose => .ofN 0x15000000#32
  | .brReadBit => .ofN 0x21000000#32
  | .brReadRaw _ => .ofL 0x22000000#32
  | .brResetAlign => .ofN 0x23000000#32
  | .encOpen => .ofN 0x31000000#32
  | .encWrite _ => .ofL 0x32000000#32
  | .encFinalize => .ofN 0x33000000#32
  | .decOpen => .ofN 0x41000000#32
  | .decRead _ => .ofL 0x42000000#32

/-- The fourteen rows of the opcode map (R84). -/
def opcodeRows : List Row :=
  [.ofN 0x01000000#32, .ofB 0x11000000#32, .ofL 0x12000000#32, .ofL 0x13000000#32, .ofN 0x14000000#32,
   .ofN 0x15000000#32, .ofN 0x21000000#32, .ofL 0x22000000#32, .ofN 0x23000000#32, .ofN 0x31000000#32,
   .ofL 0x32000000#32, .ofN 0x33000000#32, .ofN 0x41000000#32, .ofL 0x42000000#32]

/-- A word is of a row (R85). -/
abbrev Row.selects (r : Row) (w : Word) : Prop := w &&& r.mask = r.pattern

/-! ### The invariant -/

/-- The codes a fatal fault leaves (R24, R231). -/
def fatalCodes : List Byte :=
  [Status.invalidBit, .misalignedRawWrite, .misalignedRawRead, .illegalCommand, .writeAfterClose, .notOpen].map
    Status.code

/-- The codes WFAIL latches (R28). -/
def writeCodes : List Byte := [Status.encOverflow, .ioError].map Status.code

/-- The codes RFAIL latches (R28). -/
def readCodes : List Byte := [Status.unexpectedEof, .tableOverflow, .ioError].map Status.code

/-- Every code a command can end with (R231). -/
def statusCodes : List Byte :=
  [Status.ok, .endOfStream, .endOfSource, .refusedFatal].map Status.code ++ writeCodes ++ readCodes ++ fatalCodes

/-- R24 to R28, R231: the status, fault and failure registers agree with their flags. -/
structure Control.Sound (c : Control) : Prop where
  status : c.statusCode ∈ statusCodes
  fault : c.fatal = true → c.faultCode ∈ fatalCodes
  noFault : c.fatal = false → c.faultCode = 0#8 ∧ c.faultCmd = 0#32 ∧ c.faultInfo = 0#32
  wfail : c.wfail = true → c.wcode ∈ writeCodes
  noWfail : c.wfail = false → c.wcode = 0#8
  rfail : c.rfail = true → c.rcode ∈ readCodes
  noRfail : c.rfail = false → c.rcode = 0#8

/-- R43, R44, R159: the decode table holds at most DEC_TABLE_CAP distinct codes of at most 255 digits, the candidate
at most 255 digits, and no more symbols are emitted than declared. -/
structure Decoder.Sound (d : Decoder) : Prop where
  size : d.dtab.length ≤ Config.decTableCap
  distinct : (d.dtab.map DtabEntry.code).Nodup
  short : ∀ e ∈ d.dtab, e.code.length ≤ Config.maxCodeLen
  cand : ∀ c, d.cand = .bits c → c.length ≤ Config.maxCodeLen
  emitted : d.emitted.toNat ≤ d.declared.toNat

/-- What the point of a stalled command promises about the state it waits in. -/
def Wait.Sound (s : State) : Wait → Prop
  | .discard _ (.complete code) => code ∈ statusCodes
  | .discard _ (.writeFail f _) => f.code ∈ writeCodes
  | .writeBit _ => True
  | .writeBitsDin _ _ => True
  | .writeBitsSink _ _ _ => True
  | .writeRawDin _ _ => True
  | .writeRawSink _ _ _ => True
  | .flush _ => True
  | .readBit => True
  | .readRawSrc _ _ => True
  | .readRawDout _ _ _ => True
  | .encWrite _ left => s.enc.buf.length + left ≤ s.encBufBytes.toNat
  | .encEmit _ _ _ => True
  | .headerCount got => got.length < 4 ∧ s.dec.state = .unopened ∧ s.dec.emitted = 0#32
  | .headerAlpha got => got.length < 4 ∧ s.dec.state = .unopened ∧ s.dec.emitted = 0#32
  | .descSymbol _ => s.dec.state = .unopened ∧ s.dec.emitted = 0#32
  | .descLength _ _ => s.dec.state = .unopened ∧ s.dec.emitted = 0#32
  | .descBits _ _ more code =>
    code.length + more ≤ Config.maxCodeLen ∧ s.dec.state = .unopened ∧ s.dec.emitted = 0#32
  | .matchBit _ _ => s.dec.state = .ready ∧ s.dec.emitted ≠ s.dec.declared
  | .emitSymbol _ _ _ => s.dec.state = .ready ∧ s.dec.emitted ≠ s.dec.declared
  | .drain _ => s.dec.state ≠ .unopened ∧ s.dec.emitted = s.dec.declared

/-- The invariant every step keeps. -/
structure State.Inv (s : State) : Prop where
  /-- R24 to R28, R231. -/
  control : s.ctl.Sound
  /-- R37. -/
  writer : s.bw.padded
  /-- R40. -/
  counts : s.countsBuffer
  /-- R43, R44, R159. -/
  decoder : s.dec.Sound
  /-- R190, R194: a drained session has emitted every declared byte and has nothing left to read. -/
  drained : s.dec.state = .drained → s.dec.emitted = s.dec.declared ∧ s.br.nbits = 0#3 ∧ s.br.ended = true
  /-- R232: a command runs only while FATAL is clear. -/
  notFatal : s.running ≠ none → s.ctl.fatal = false
  /-- The point of a stalled command. -/
  waiting : ∀ r, s.running = some r → r.wait.Sound s

end Sys2Proof.Machine
end

