-- ==== Sys2Proof/Certificates/Slice0/Obligations.lean ====
section
/-! DEFINITION. The statements for the provers, each from the rules its docstring names. -/

section
open Sys2Proof Sys2Proof.Machine

/-! ### Command words -/

/-- R80 to R84: no operand and no bit of a command word is lost between encoder and decoder. -/
def Obligations.DecodeOfEncode : Prop :=
  ∀ i : Instr, i.wellFormed = true → decode (encode i) = .ok i

/-- R84, R85: a legal word is the word of the instruction it decodes to, which is well formed. -/
def Obligations.EncodeOfDecode : Prop :=
  ∀ (w : Word) (i : Instr), decode w = .ok i → encode i = w ∧ i.wellFormed = true

/-- R85: a word decodes to a row's instruction exactly when it meets the row's mask and match, is illegal exactly when
it meets none, and no two rows overlap. -/
def Obligations.RowsSelectWords : Prop :=
  ∀ w : Word,
    (∀ r ∈ opcodeRows, r.selects w ↔ ∃ i, decode w = .ok i ∧ rowOf i = r) ∧
    ((∃ e, decode w = .error e) ↔ ∀ r ∈ opcodeRows, ¬ r.selects w) ∧
    (∀ r ∈ opcodeRows, ∀ r' ∈ opcodeRows, r.selects w → r'.selects w → r = r')

/-- R84: one word of each row, written out. -/
def Obligations.SampleWords : Prop :=
  decode 0x01000000#32 = .ok .sysNop ∧
  decode 0x11000031#32 = .ok (.bwWriteBit 0x31#8) ∧
  decode 0x1200000B#32 = .ok (.bwWriteBits 11) ∧
  decode 0x13000002#32 = .ok (.bwWriteRaw 2) ∧
  decode 0x14000000#32 = .ok .bwFlush ∧
  decode 0x15000000#32 = .ok .bwClose ∧
  decode 0x21000000#32 = .ok .brReadBit ∧
  decode 0x22000003#32 = .ok (.brReadRaw 3) ∧
  decode 0x23000000#32 = .ok .brResetAlign ∧
  decode 0x31000000#32 = .ok .encOpen ∧
  decode 0x32FFFFFF#32 = .ok (.encWrite 16777215) ∧
  decode 0x33000000#32 = .ok .encFinalize ∧
  decode 0x41000000#32 = .ok .decOpen ∧
  decode 0x42000010#32 = .ok (.decRead 16)

/-- R86: which words are illegal, field by field, and that executing one raises ILLEGAL_COMMAND with no other effect;
the word itself is taken from CMD. -/
def Obligations.IllegalWords : Prop :=
  ∀ w : Word,
    ((∃ e, decode w = .error e) ↔
      (5 ≤ unitField w ∨ opField w = 0 ∨
       (unitField w = 0 ∧ 2 ≤ opField w) ∨ (unitField w = 1 ∧ 6 ≤ opField w) ∨
       (unitField w = 2 ∧ 4 ≤ opField w) ∨ (unitField w = 3 ∧ 4 ≤ opField w) ∨
       (unitField w = 4 ∧ 3 ≤ opField w) ∨
       (w.extractLsb' 24 8 ∈ [0x01#8, 0x14#8, 0x15#8, 0x21#8, 0x23#8, 0x31#8, 0x33#8, 0x41#8] ∧ argField w ≠ 0) ∨
       (w.extractLsb' 24 8 = 0x11#8 ∧ w.extractLsb' 8 16 ≠ 0#16))) ∧
    (∃ e, decode 0x00000000#32 = .error e) ∧
    ∀ (s : State) (rest : List Word), s.env.resetIn = false → s.running = none → s.ctl.fatal = false →
      s.env.cmd = w :: rest → (∃ e, decode w = .error e) →
      step s = .next { s with
        env := { s.env with cmd := rest }
        ctl := { s.ctl with
          fatal := true, faultCode := 0x83#8, faultCmd := w, faultInfo := 0#32, statusCode := 0x83#8,
          result := 0#32 } }

/-- R20, R85: with no command running and the reset input not asserted, a step takes the next word and executes the
instruction it decodes to; with no word there is no step. -/
def Obligations.StepRunsDecodedCommand : Prop :=
  ∀ s : State, s.env.resetIn = false → s.running = none →
    (∀ (w : Word) (rest : List Word) (i : Instr), s.env.cmd = w :: rest → decode w = .ok i →
      step s = exec i { s with env := { s.env with cmd := rest } }) ∧
    (s.env.cmd = [] → step s = .fault .noCommand)

/-! ### The gate -/

/-- R232 step 1, R238: while FATAL is set every command, and every word, ends with code 0xFF and RESULT 0 and nothing
else happens. -/
def Obligations.FatalRefusesEverything : Prop :=
  ∀ s : State, s.ctl.fatal = true →
    (∀ i : Instr, exec i s =
      .next { s with running := none, ctl := { s.ctl with statusCode := 0xFF#8, result := 0#32 } }) ∧
    (∀ (w : Word) (rest : List Word), s.env.resetIn = false → s.running = none → s.env.cmd = w :: rest →
      step s = .next { s with
        env := { s.env with cmd := rest }, ctl := { s.ctl with statusCode := 0xFF#8, result := 0#32 } })

/-- R232 step 4, R108: while WFAIL is set BW.WRITEBITS, BW.WRITERAW and ENC.WRITE read their N DIN bytes, waiting for the
bytes that are missing, and end with the stored code; the other write-side commands but ENC.OPEN read none and end so
too. -/
def Obligations.WriteFailureGate : Prop :=
  ∀ s : State, s.ctl.fatal = false → s.ctl.wfail = true →
    (∀ (op : Nat → Instr) (n : Nat), op = .bwWriteBits ∨ op = .bwWriteRaw ∨ op = .encWrite →
      (n ≤ s.env.din.length → exec (op n) s = .next { s with
        running := none
        env := { s.env with din := s.env.din.drop n, dinTaken := s.env.dinTaken + n }
        ctl := { s.ctl with statusCode := s.ctl.wcode, result := 0#32 } }) ∧
      (s.env.din.length < n → exec (op n) s = .next { s with
        running := some {
          cmd := encode (op n), wait := .discard (n - s.env.din.length) (.complete s.ctl.wcode) }
        env := { s.env with din := [], dinTaken := s.env.dinTaken + s.env.din.length } })) ∧
    (∀ i : Instr, (∃ c, i = .bwWriteBit c) ∨ i = .bwFlush ∨ i = .bwClose ∨ i = .encFinalize →
      exec i s = .next { s with
        running := none, ctl := { s.ctl with statusCode := s.ctl.wcode, result := 0#32 } })

/-- R232 step 4, R126: while RFAIL is set every read-side command but DEC.OPEN ends with the stored code and has no other
effect. -/
def Obligations.ReadFailureGate : Prop :=
  ∀ (i : Instr) (s : State),
    i = .brReadBit ∨ (∃ n, i = .brReadRaw n) ∨ i = .brResetAlign ∨ (∃ n, i = .decRead n) →
    s.ctl.fatal = false → s.ctl.rfail = true →
    exec i s = .next { s with
      running := none, ctl := { s.ctl with statusCode := s.ctl.rcode, result := 0#32 } }

/-- R232 step 5: ENC.WRITE after a close and DEC.READ before an open are fatal for every N and read no DIN byte, a
second ENC.FINALIZE succeeds and does nothing. -/
def Obligations.StateChecks : Prop :=
  ∀ s : State, s.running = none → s.ctl.fatal = false →
    (∀ n : Nat, s.ctl.wfail = false → s.enc.closed = true → exec (.encWrite n) s = .next { s with
      ctl := { s.ctl with
        fatal := true, faultCode := 0x84#8, faultCmd := encode (.encWrite n), faultInfo := 0#32,
        statusCode := 0x84#8, result := 0#32 } }) ∧
    (s.ctl.wfail = false → s.enc.closed = true → exec .encFinalize s = .next { s with
      ctl := { s.ctl with statusCode := 0x00#8, result := 0#32 } }) ∧
    (∀ n : Nat, s.ctl.rfail = false → s.dec.state = .unopened → exec (.decRead n) s = .next { s with
      ctl := { s.ctl with
        fatal := true, faultCode := 0x85#8, faultCmd := encode (.decRead n), faultInfo := 0#32,
        statusCode := 0x85#8, result := 0#32 } })

/-- R220: SYS.NOP completes, whatever WFAIL and RFAIL are, and changes nothing but STATUS.CODE and RESULT; refused while
FATAL is set; with a non-zero ARG its word is illegal. -/
def Obligations.NopOnlyCompletes : Prop :=
  encode .sysNop = 0x01000000#32 ∧
  (∀ s : State, exec .sysNop s = .next { s with
    running := none
    ctl := { s.ctl with statusCode := if s.ctl.fatal then 0xFF#8 else 0x00#8, result := 0#32 } }) ∧
  (∀ w : Word, w.extractLsb' 24 8 = 0x01#8 → argField w ≠ 0 → ∃ e, decode w = .error e)

/-! ### Bit writer -/

/-- R103 with R37, R61, R100: after the gate BW.WRITEBIT puts its digit after the pending ones; the eighth sends the byte to the sink;
a refused byte is lost and latches WFAIL; any other character is fatal. -/
def Obligations.WriteBitPlacesDigit : Prop :=
  (∀ c : Byte, writeGateEnds (.bwWriteBit c) 0) ∧
  ∀ s : State, WriteReady s → s.bw.padded →
    (∀ x : Bool, s.bw.nbits ≠ 7#3 → exec (.bwWriteBit (charOfBit x)) s = .next { s with
      bw := BitWriter.holding (s.bw.pending ++ [x])
      ctl := { s.ctl with statusCode := 0x00#8, result := 1#32 } }) ∧
    (∀ (x : Bool) (more : List SinkAnswer), s.bw.nbits = 7#3 → s.env.sinkAns = .ack :: more →
      exec (.bwWriteBit (charOfBit x)) s = .next { s with
        bw := { acc := 0#8, nbits := 0#3 }
        env := { s.env with sink := s.env.sink ++ [packByte (s.bw.pending ++ [x])], sinkAns := more }
        ctl := { s.ctl with statusCode := 0x00#8, result := 1#32 } }) ∧
    (∀ (x : Bool) (e : Byte) (more : List SinkAnswer), s.bw.nbits = 7#3 → s.env.sinkAns = .err e :: more →
      exec (.bwWriteBit (charOfBit x)) s = .next { s with
        bw := { acc := 0#8, nbits := 0#3 }
        env := { s.env with sinkAns := more }
        ctl := { s.ctl with
          ioerrSink := e, wfail := true, wcode := 0x20#8, statusCode := 0x20#8, result := 0#32 } }) ∧
    (∀ c : Byte, c ≠ 0x30#8 → c ≠ 0x31#8 → exec (.bwWriteBit c) s = .next { s with
      ctl := { s.ctl with
        fatal := true, faultCode := 0x80#8, faultCmd := encode (.bwWriteBit c),
        faultInfo := c.setWidth 32 <<< 24, statusCode := 0x80#8, result := 0#32 } })

/-- R104 with R37, R61, R100: after the gate BW.WRITEBITS packs its digits after the pending ones into whole bytes for the sink and
keeps the rest pending; it stops at a refused byte, dropping the rest of its operand, or at an invalid character,
leaving it. -/
def Obligations.WriteBitsPacksDigits : Prop :=
  (∀ n : Nat, writeGateEnds (.bwWriteBits n) n) ∧
  ∀ s : State, WriteReady s → s.bw.padded →
    (∀ (bits : Bits) (rest : List Byte) (more : List SinkAnswer),
      s.env.din = bits.map charOfBit ++ rest →
      s.env.sinkAns = List.replicate ((s.bw.pending ++ bits).length / 8) .ack ++ more →
      exec (.bwWriteBits bits.length) s = .next { s with
        bw := BitWriter.holding
          ((s.bw.pending ++ bits).drop (8 * ((s.bw.pending ++ bits).length / 8)))
        env := { s.env with
          din := rest
          dinTaken := s.env.dinTaken + bits.length
          sink := s.env.sink ++
            packBits ((s.bw.pending ++ bits).take (8 * ((s.bw.pending ++ bits).length / 8)))
          sinkAns := more }
        ctl := { s.ctl with statusCode := 0x00#8, result := BitVec.ofNat 32 bits.length } }) ∧
    (∀ (pre : Bits) (c : Byte) (n : Nat) (rest : List Byte) (more : List SinkAnswer),
      c ≠ 0x30#8 → c ≠ 0x31#8 → pre.length < n →
      s.env.din = pre.map charOfBit ++ c :: rest →
      s.env.sinkAns = List.replicate ((s.bw.pending ++ pre).length / 8) .ack ++ more →
      exec (.bwWriteBits n) s = .next { s with
        bw := BitWriter.holding
          ((s.bw.pending ++ pre).drop (8 * ((s.bw.pending ++ pre).length / 8)))
        env := { s.env with
          din := rest
          dinTaken := s.env.dinTaken + (pre.length + 1)
          sink := s.env.sink ++
            packBits ((s.bw.pending ++ pre).take (8 * ((s.bw.pending ++ pre).length / 8)))
          sinkAns := more }
        ctl := { s.ctl with
          fatal := true, faultCode := 0x80#8, faultCmd := encode (.bwWriteBits n),
          faultInfo := (c.setWidth 32 <<< 24) ||| BitVec.ofNat 32 pre.length,
          statusCode := 0x80#8, result := BitVec.ofNat 32 pre.length } }) ∧
    (∀ (pre : Bits) (x : Bool) (k : Nat) (e : Byte) (tail rest : List Byte) (more : List SinkAnswer),
      (s.bw.pending ++ pre ++ [x]).length = 8 * (k + 1) →
      s.env.din = (pre ++ [x]).map charOfBit ++ (tail ++ rest) →
      s.env.sinkAns = List.replicate k .ack ++ .err e :: more →
      exec (.bwWriteBits (pre.length + 1 + tail.length)) s = .next { s with
        bw := { acc := 0#8, nbits := 0#3 }
        env := { s.env with
          din := rest
          dinTaken := s.env.dinTaken + (pre.length + 1 + tail.length)
          sink := s.env.sink ++ packBits ((s.bw.pending ++ pre).take (8 * k))
          sinkAns := more }
        ctl := { s.ctl with
          ioerrSink := e, wfail := true, wcode := 0x20#8, statusCode := 0x20#8,
          result := BitVec.ofNat 32 pre.length } })

/-- R105: after the gate BW.WRITERAW passes its bytes to the sink when the writer is aligned, stops at a refused byte dropping the rest
of its operand, and is fatal for every N when a partial byte is pending, with no DIN byte read. -/
def Obligations.WriteRawPassesBytes : Prop :=
  (∀ n : Nat, writeGateEnds (.bwWriteRaw n) n) ∧
  ∀ s : State, WriteReady s →
    (∀ (bs rest : List Byte) (more : List SinkAnswer), s.bw.nbits = 0#3 → s.env.din = bs ++ rest →
      s.env.sinkAns = List.replicate bs.length .ack ++ more →
      exec (.bwWriteRaw bs.length) s = .next { s with
        env := { s.env with
          din := rest, dinTaken := s.env.dinTaken + bs.length, sink := s.env.sink ++ bs, sinkAns := more }
        ctl := { s.ctl with statusCode := 0x00#8, result := BitVec.ofNat 32 bs.length } }) ∧
    (∀ (pre tail rest : List Byte) (b e : Byte) (more : List SinkAnswer), s.bw.nbits = 0#3 →
      s.env.din = pre ++ b :: (tail ++ rest) →
      s.env.sinkAns = List.replicate pre.length .ack ++ .err e :: more →
      exec (.bwWriteRaw (pre.length + 1 + tail.length)) s = .next { s with
        env := { s.env with
          din := rest, dinTaken := s.env.dinTaken + (pre.length + 1 + tail.length)
          sink := s.env.sink ++ pre, sinkAns := more }
        ctl := { s.ctl with
          ioerrSink := e, wfail := true, wcode := 0x20#8, statusCode := 0x20#8,
          result := BitVec.ofNat 32 pre.length } }) ∧
    (∀ n : Nat, s.bw.nbits ≠ 0#3 → exec (.bwWriteRaw n) s = .next { s with
      ctl := { s.ctl with
        fatal := true, faultCode := 0x81#8, faultCmd := encode (.bwWriteRaw n),
        faultInfo := s.bw.nbits.setWidth 32 <<< 24, statusCode := 0x81#8, result := 0#32 } })

/-- R106, R107 with R37, R61, R101: after the gate BW.FLUSH and BW.CLOSE do the same: with digits pending they send them to the sink
with zeros on the right, with none pending they do nothing. -/
def Obligations.FlushAndClosePad : Prop :=
  writeGateEnds .bwFlush 0 ∧ writeGateEnds .bwClose 0 ∧
  ∀ (i : Instr) (s : State), i = .bwFlush ∨ i = .bwClose → WriteReady s → s.bw.padded →
    (s.bw.nbits = 0#3 → exec i s = .next { s with
      ctl := { s.ctl with statusCode := 0x00#8, result := 0#32 } }) ∧
    (∀ more : List SinkAnswer, s.bw.nbits ≠ 0#3 → s.env.sinkAns = .ack :: more →
      exec i s = .next { s with
        bw := { acc := 0#8, nbits := 0#3 }
        env := { s.env with sink := s.env.sink ++ packBits s.bw.pending, sinkAns := more }
        ctl := { s.ctl with statusCode := 0x00#8, result := 1#32 } }) ∧
    (∀ (e : Byte) (more : List SinkAnswer), s.bw.nbits ≠ 0#3 → s.env.sinkAns = .err e :: more →
      exec i s = .next { s with
        bw := { acc := 0#8, nbits := 0#3 }
        env := { s.env with sinkAns := more }
        ctl := { s.ctl with
          ioerrSink := e, wfail := true, wcode := 0x20#8, statusCode := 0x20#8, result := 0#32 } })

/-! ### Bit reader -/

/-- R123 with R120: after the gate BR.READBIT gives the next unread bit, or the top bit of a fresh byte, or END_OF_SOURCE without a
transaction once the source has ended, or a latched IO_ERROR. -/
def Obligations.ReadBitCases : Prop :=
  readGateEnds .brReadBit ∧
  ∀ s : State, ReadReady s →
    (s.br.nbits ≠ 0#3 → exec .brReadBit s = .next { s with
      br := { s.br with nbits := s.br.nbits - 1#3 }
      ctl := { s.ctl with
        statusCode := 0x00#8
        result := BitVec.ofNat 32 (s.br.byte.getLsbD (s.br.nbits.toNat - 1)).toNat } }) ∧
    (∀ (b : Byte) (rest : List SrcAnswer), s.br.nbits = 0#3 → s.br.ended = false →
      s.env.src = .data b :: rest → exec .brReadBit s = .next { s with
        br := { byte := b, nbits := 7#3, ended := false }
        env := { s.env with src := rest, srcTaken := s.env.srcTaken + 1 }
        ctl := { s.ctl with statusCode := 0x00#8, result := BitVec.ofNat 32 (b.getLsbD 7).toNat } }) ∧
    (s.br.nbits = 0#3 → s.br.ended = true → exec .brReadBit s = .next { s with
      ctl := { s.ctl with statusCode := 0x02#8, result := 0#32 } }) ∧
    (∀ rest : List SrcAnswer, s.br.nbits = 0#3 → s.br.ended = false → s.env.src = .exhausted :: rest →
      exec .brReadBit s = .next { s with
        br := { s.br with ended := true }
        env := { s.env with src := rest }
        ctl := { s.ctl with statusCode := 0x02#8, result := 0#32 } }) ∧
    (∀ (e : Byte) (rest : List SrcAnswer), s.br.nbits = 0#3 → s.br.ended = false →
      s.env.src = .err e :: rest → exec .brReadBit s = .next { s with
        env := { s.env with src := rest }
        ctl := { s.ctl with
          ioerrSrc := e, rfail := true, rcode := 0x20#8, statusCode := 0x20#8, result := 0#32 } })

/-- R61, R38: BR.READBIT delivers a byte's digits most significant first, one a command. -/
def Obligations.ReadBitTakesNextDigit : Prop :=
  ∀ (s : State) (x : Bool) (left : Bits), ReadReady s →
    (s.br.unread = x :: left → ∃ t, exec .brReadBit s = .next t ∧ t.br.unread = left ∧
      t = { s with
        br := { s.br with nbits := t.br.nbits }
        ctl := { s.ctl with statusCode := 0x00#8, result := BitVec.ofNat 32 x.toNat } }) ∧
    (∀ (b : Byte) (rest : List SrcAnswer), s.br.unread = [] → s.br.ended = false →
      s.env.src = .data b :: rest → byteBits b = x :: left →
      ∃ t, exec .brReadBit s = .next t ∧ t.br.unread = left ∧
        t = { s with
          br := { s.br with byte := b, nbits := t.br.nbits }
          env := { s.env with src := rest, srcTaken := s.env.srcTaken + 1 }
          ctl := { s.ctl with statusCode := 0x00#8, result := BitVec.ofNat 32 x.toNat } })

/-- R124 with R121: after the gate BR.READRAW moves whole bytes from the source to DOUT, is short and clean at the source's end,
latches IO_ERROR at an error with the bytes before it delivered, and is fatal for every N when a partial byte is
pending. -/
def Obligations.ReadRawMovesBytes : Prop :=
  (∀ n : Nat, readGateEnds (.brReadRaw n)) ∧
  ∀ s : State, ReadReady s →
    (∀ (bs : List Byte) (rest : List SrcAnswer) (room : Nat), s.br.nbits = 0#3 →
      (s.br.ended = false ∨ bs = []) → s.env.src = bs.map .data ++ rest → s.env.doutRoom = bs.length + room →
      exec (.brReadRaw bs.length) s = .next { s with
        env := { s.env with
          src := rest, srcTaken := s.env.srcTaken + bs.length, dout := s.env.dout ++ bs, doutRoom := room }
        ctl := { s.ctl with statusCode := 0x00#8, result := BitVec.ofNat 32 bs.length } }) ∧
    (∀ (bs : List Byte) (rest : List SrcAnswer) (room n : Nat), s.br.nbits = 0#3 → s.br.ended = false →
      bs.length < n → s.env.src = bs.map .data ++ .exhausted :: rest → s.env.doutRoom = bs.length + room →
      exec (.brReadRaw n) s = .next { s with
        br := { s.br with ended := true }
        env := { s.env with
          src := rest, srcTaken := s.env.srcTaken + bs.length, dout := s.env.dout ++ bs, doutRoom := room }
        ctl := { s.ctl with statusCode := 0x02#8, result := BitVec.ofNat 32 bs.length } }) ∧
    (∀ n : Nat, s.br.nbits = 0#3 → s.br.ended = true → 0 < n → exec (.brReadRaw n) s = .next { s with
      ctl := { s.ctl with statusCode := 0x02#8, result := 0#32 } }) ∧
    (∀ (bs : List Byte) (e : Byte) (rest : List SrcAnswer) (room n : Nat), s.br.nbits = 0#3 →
      s.br.ended = false → bs.length < n → s.env.src = bs.map .data ++ .err e :: rest →
      s.env.doutRoom = bs.length + room →
      exec (.brReadRaw n) s = .next { s with
        env := { s.env with
          src := rest, srcTaken := s.env.srcTaken + bs.length, dout := s.env.dout ++ bs, doutRoom := room }
        ctl := { s.ctl with
          ioerrSrc := e, rfail := true, rcode := 0x20#8, statusCode := 0x20#8,
          result := BitVec.ofNat 32 bs.length } }) ∧
    (∀ n : Nat, s.br.nbits ≠ 0#3 → exec (.brReadRaw n) s = .next { s with
      ctl := { s.ctl with
        fatal := true, faultCode := 0x82#8, faultCmd := encode (.brReadRaw n),
        faultInfo := s.br.nbits.setWidth 32 <<< 24, statusCode := 0x82#8, result := 0#32 } })

/-- R125 with R122: after the gate BR.RESETALIGN drops the unread bits and gives their number; there is no source
transaction. -/
def Obligations.ResetAlignDropsBits : Prop :=
  readGateEnds .brResetAlign ∧
  ∀ s : State, ReadReady s → exec .brResetAlign s = .next { s with
    br := { s.br with nbits := 0#3 }
    ctl := { s.ctl with statusCode := 0x00#8, result := s.br.nbits.setWidth 32 } }

/-! ### Encoder commands -/

/-- R170: ENC.OPEN, from any state but FATAL, leaves an empty open session, an empty bit writer and WFAIL clear. -/
def Obligations.EncOpenStartsSession : Prop :=
  refusedWhileFatal .encOpen ∧
  ∀ s : State, s.ctl.fatal = false → exec .encOpen s = .next { s with
    running := none
    enc := {
      buf := [], freq := Vector.replicate 256 0#32, closed := false, codes := Vector.replicate 256 none,
      nodes := [] }
    bw := { acc := 0#8, nbits := 0#3 }
    ctl := { s.ctl with wfail := false, wcode := 0#8, statusCode := 0x00#8, result := 0#32 } }

/-- R171: after the gate ENC.WRITE buffers its bytes and counts each, all or nothing against ENC_BUF_BYTES, and is fatal after a
close. -/
def Obligations.EncWriteAccumulates : Prop :=
  (∀ n : Nat, writeGateEnds (.encWrite n) n) ∧
  ∀ s : State, WriteReady s →
    (∀ bs rest : List Byte, s.enc.closed = false → s.enc.buf.length + bs.length ≤ s.encBufBytes.toNat →
      s.env.din = bs ++ rest → exec (.encWrite bs.length) s = .next { s with
        enc := { s.enc with
          buf := s.enc.buf ++ bs
          freq := Vector.ofFn (fun k : Fin 256 =>
            s.enc.freqOf (symbolOf k) + BitVec.ofNat 32 (bs.count (symbolOf k))) }
        env := { s.env with din := rest, dinTaken := s.env.dinTaken + bs.length }
        ctl := { s.ctl with statusCode := 0x00#8, result := BitVec.ofNat 32 bs.length } }) ∧
    (∀ bs rest : List Byte, s.enc.closed = false → s.encBufBytes.toNat < s.enc.buf.length + bs.length →
      s.env.din = bs ++ rest → exec (.encWrite bs.length) s = .next { s with
        env := { s.env with din := rest, dinTaken := s.env.dinTaken + bs.length }
        ctl := { s.ctl with
          wfail := true, wcode := 0x12#8, statusCode := 0x12#8, result := 0#32 } }) ∧
    (∀ n : Nat, s.enc.closed = true → exec (.encWrite n) s = .next { s with
      ctl := { s.ctl with
        fatal := true, faultCode := 0x84#8, faultCmd := encode (.encWrite n), faultInfo := 0#32,
        statusCode := 0x84#8, result := 0#32 } })

/-- R82: for BW.WRITEBITS, BW.WRITERAW and ENC.WRITE two consecutive commands that succeed have the effect of one on
the concatenated operand. -/
def Obligations.OperandsSplit : Prop :=
  ∀ (op : Nat → Instr) (s t u : State) (m n : Nat),
    op = .bwWriteBits ∨ op = .bwWriteRaw ∨ op = .encWrite → WriteReady s →
    exec (op m) s = .next t → t.running = none → t.ctl.statusCode = 0x00#8 →
    exec (op n) t = .next u → u.running = none → u.ctl.statusCode = 0x00#8 →
    exec (op (m + n)) s = .next { u with ctl := { u.ctl with result := BitVec.ofNat 32 (m + n) } }

/-- R172 to R175, R63: from an open session with the writer empty, ENC.FINALIZE writes exactly the stream of the
format and closes the session. A byte count that RESULT cannot hold leaves a free value in it (log 8). -/
def Obligations.FinalizeWritesStream : Prop :=
  ∀ (s : State) (more : List SinkAnswer), WriteReady s → s.enc.closed = false → s.bw = BitWriter.reset →
    s.countsBuffer → s.env.sinkAns = List.replicate s.enc.stream.length .ack ++ more →
    exec .encFinalize s = .next { s with
      enc := { s.enc.derive with closed := true }
      env := { s.env with sink := s.env.sink ++ s.enc.stream, sinkAns := more }
      ctl := { s.ctl with
        statusCode := 0x00#8
        result :=
          if s.enc.stream.length < 2 ^ 32 then BitVec.ofNat 32 s.enc.stream.length
          else Config.freeWord s.draws }
      draws := if s.enc.stream.length < 2 ^ 32 then s.draws else s.draws + 1 }

/-- R172: ENC.FINALIZE's other ends: a partial byte in the writer is fatal before any byte moves; a refused byte latches
WFAIL with the bytes before it written and the session still open; a closed session is left alone. That RESULT is a free
value, and `draws` moves, where 2^32 bytes or more came before the refused one is the model's choice (log 8). -/
def Obligations.FinalizeOtherEnds : Prop :=
  ∀ s : State, WriteReady s → s.countsBuffer →
    (s.enc.closed = false → s.bw.nbits ≠ 0#3 → exec .encFinalize s = .next { s with
      enc := s.enc.derive
      ctl := { s.ctl with
        fatal := true, faultCode := 0x81#8, faultCmd := encode .encFinalize,
        faultInfo := s.bw.nbits.setWidth 32 <<< 24, statusCode := 0x81#8, result := 0#32 } }) ∧
    (∀ (k : Nat) (e : Byte) (more : List SinkAnswer), s.enc.closed = false → s.bw = BitWriter.reset →
      k < s.enc.stream.length → s.env.sinkAns = List.replicate k .ack ++ .err e :: more →
      exec .encFinalize s = .next { s with
        enc := s.enc.derive
        env := { s.env with sink := s.env.sink ++ s.enc.stream.take k, sinkAns := more }
        ctl := { s.ctl with
          ioerrSink := e, wfail := true, wcode := 0x20#8, statusCode := 0x20#8
          result := if k < 2 ^ 32 then BitVec.ofNat 32 k else Config.freeWord s.draws }
        draws := if k < 2 ^ 32 then s.draws else s.draws + 1 }) ∧
    (s.enc.closed = true → exec .encFinalize s = .next { s with
      ctl := { s.ctl with statusCode := 0x00#8, result := 0#32 } })

/-- R176: the number of bytes ENC.FINALIZE writes, from the code lengths. -/
def Obligations.StreamLength : Prop :=
  ∀ (s : State) (len : Nat) (more : List SinkAnswer), WriteReady s → s.enc.closed = false →
    s.bw = BitWriter.reset → s.countsBuffer →
    len = 8 + (s.enc.present.map (fun b => 2 + ((s.enc.derive.writtenCode b).length + 7) / 8)).sum +
      ((s.enc.buf.map (fun b => (s.enc.derive.writtenCode b).length)).sum + 7) / 8 →
    s.env.sinkAns = List.replicate len .ack ++ more →
    ∃ t, exec .encFinalize s = .next t ∧ t.ctl.statusCode = 0x00#8 ∧ t.running = none ∧
      t.env.sinkAns = more ∧ t.env.sink.length = s.env.sink.length + len

/-- R68: the empty input gives eight zero bytes; C copies of one symbol give ten bytes and no payload. -/
def Obligations.DegenerateStreams : Prop :=
  ∀ (s : State) (more : List SinkAnswer), WriteReady s → s.enc.closed = false → s.bw = BitWriter.reset →
    s.countsBuffer →
    (s.enc.buf = [] → s.env.sinkAns = List.replicate 8 .ack ++ more →
      ∃ t, exec .encFinalize s = .next t ∧ t = { s with
        enc := { t.enc with buf := [], freq := s.enc.freq, closed := true }
        env := { s.env with
          sink := s.env.sink ++ [0x00#8, 0x00#8, 0x00#8, 0x00#8, 0x00#8, 0x00#8, 0x00#8, 0x00#8], sinkAns := more }
        ctl := { s.ctl with statusCode := 0x00#8, result := 8#32 } }) ∧
    (∀ (c : Nat) (b : Byte), 0 < c → s.enc.buf = List.replicate c b →
      s.env.sinkAns = List.replicate 10 .ack ++ more →
      ∃ t, exec .encFinalize s = .next t ∧ t = { s with
        enc := { t.enc with buf := s.enc.buf, freq := s.enc.freq, closed := true }
        env := { s.env with
          sink := s.env.sink ++ le32Bytes (BitVec.ofNat 32 c) ++ [0x01#8, 0x00#8, 0x00#8, 0x00#8, b, 0x00#8]
          sinkAns := more }
        ctl := { s.ctl with statusCode := 0x00#8, result := 10#32 } })

/-- R62: header integers are little-endian in both directions. -/
def Obligations.HeaderIntegers : Prop :=
  (∀ v : Word, le32 (le32Bytes v) = v) ∧
  (∀ b0 b1 b2 b3 : Byte, (le32 [b0, b1, b2, b3]).toNat =
    b0.toNat + 256 * b1.toNat + 65536 * b2.toNat + 16777216 * b3.toNat) ∧
  (∀ v : Word, le32Bytes v =
    [v.extractLsb' 0 8, v.extractLsb' 8 8, v.extractLsb' 16 8, v.extractLsb' 24 8])

/-! ### Tree and codes -/

/-- R140, R30: the symbols taking part are those with a frequency above 0, each once, in ascending value. -/
def Obligations.PresentAscending : Prop :=
  ∀ e : Encoder, e.present = ((List.range 256).map symbolOf).filter (fun b => e.freqOf b != 0#32)

/-- R141, R143, R144, R146: no tree for the empty alphabet; else A leaves in ascending order, then A − 1 internal nodes,
each with two different earlier children and their sum as frequency, every node but the last, the root, the child of
exactly one; the root's frequency is `enc_count`. -/
def Obligations.TreeShape : Prop :=
  (∀ e : Encoder, e.present = [] → treeBuild e = (none, [])) ∧
  (∀ e : Encoder, e.present ≠ [] →
    (treeBuild e).1 = some (2 * e.present.length - 2) ∧
    (treeBuild e).2.length = 2 * e.present.length - 1 ∧
    (treeBuild e).2.take e.present.length = e.present.map (fun b => Node.leaf b (e.freqOf b)) ∧
    (∀ k, e.present.length ≤ k → k < 2 * e.present.length - 1 →
      ∃ f l r x y, (treeBuild e).2[k]? = some (Node.internal f l r) ∧ l.toNat < k ∧ r.toNat < k ∧ l ≠ r ∧
        (treeBuild e).2[l.toNat]? = some x ∧ (treeBuild e).2[r.toNat]? = some y ∧ f = x.freq + y.freq) ∧
    (∀ j, j < 2 * e.present.length - 2 →
      ∃! k : Nat, ∃ f l r, (treeBuild e).2[k]? = some (Node.internal f l r) ∧ (l.toNat = j ∨ r.toNat = j))) ∧
  (∀ s : State, s.countsBuffer → s.enc.buf ≠ [] →
    ∃ x, (treeBuild s.enc).2[2 * s.enc.present.length - 2]? = some x ∧ x.freq = s.encCount)

/-- R142, R143: of the nodes that exist and have no parent yet when a merge creates node k, its left child has the least
key (freq, seq) and its right child the least among the others. -/
def Obligations.MergeTakesLeast : Prop :=
  ∀ (e : Encoder) (k : Nat) (f : Word) (l r : BitVec 9), (treeBuild e).2[k]? = some (Node.internal f l r) →
    ∀ (j : Nat) (x y z : Node), j < k → (treeBuild e).2[j]? = some x →
      (treeBuild e).2[l.toNat]? = some y → (treeBuild e).2[r.toNat]? = some z →
      (∀ (k' : Nat) (f' : Word) (l' r' : BitVec 9), k' < k → (treeBuild e).2[k']? = some (Node.internal f' l' r') →
        l'.toNat ≠ j ∧ r'.toNat ≠ j) →
      (j ≠ l.toNat → y.freq.toNat < x.freq.toNat ∨ y.freq = x.freq ∧ l.toNat < j) ∧
      (j ≠ l.toNat → j ≠ r.toNat → z.freq.toNat < x.freq.toNat ∨ z.freq = x.freq ∧ r.toNat < j)

/-- R155: the code of a symbol is the path from the root to its leaf, 0 for a left child and 1 for a right one. -/
def Obligations.CodeIsPath : Prop :=
  ∀ (e : Encoder) (b : Byte) (p : Bits), e.derive.codeOf b = some p ↔
    ∃ (path : Nat → Nat) (f : Word), (treeBuild e).1 = some (path 0) ∧
      (treeBuild e).2[path p.length]? = some (Node.leaf b f) ∧
      ∀ (j : Nat) (h : j < p.length), ∃ g l r, (treeBuild e).2[path j]? = some (Node.internal g l r) ∧
        path (j + 1) = if p[j] then r.toNat else l.toNat

/-- R156: the codes derived are exactly those of the symbols present; a lone symbol's is empty; ENC.FINALIZE reads no
entry that is not valid. -/
def Obligations.CodesOfPresentSymbols : Prop :=
  (∀ (e : Encoder) (b : Byte), (e.derive.codeOf b).isSome = true ↔ e.freqOf b ≠ 0#32) ∧
  (∀ (e : Encoder) (b : Byte), e.present = [b] → e.derive.codeOf b = some []) ∧
  (∀ s : State, s.countsBuffer → exec .encFinalize s ≠ .fault .unwrittenRead)

/-- R157, R146: a code is shorter than the alphabet is large, so at most 255 digits. -/
def Obligations.CodeLengthBound : Prop :=
  ∀ (e : Encoder) (b : Byte) (p : Bits), e.derive.codeOf b = some p →
    p.length < e.present.length ∧ p.length ≤ 255

/-- R158: for two symbols or more the codes are non-empty, none is a prefix of another's, their lengths meet
Σ 2^−len = 1, and every infinite digit sequence starts with exactly one of them. -/
def Obligations.CodesPrefixFreeAndComplete : Prop :=
  ∀ e : Encoder, 2 ≤ e.present.length →
    (∀ b p, e.derive.codeOf b = some p → p ≠ []) ∧
    (∀ b c p q, e.derive.codeOf b = some p → e.derive.codeOf c = some q → p <+: q → b = c) ∧
    (e.present.map (fun b => 2 ^ (255 - (e.derive.writtenCode b).length))).sum = 2 ^ 255 ∧
    (∀ digits : Nat → Bool, ∃! b, ∃ p, e.derive.codeOf b = some p ∧ p = (List.range p.length).map digits)

/-! ### Decode table -/

/-- R159: inserting a code that is in the table replaces its symbol, a new code is appended, and only a new code in a
full table overflows. -/
def Obligations.DtabInsertMaps : Prop :=
  ∀ (table : List DtabEntry) (c : Bits) (sym : Byte), (table.map DtabEntry.code).Nodup →
    (∀ table', dtabInsert c sym table = some table' →
      (∀ d, dtabLookup (.bits d) table' = if d = c then some sym else dtabLookup (.bits d) table) ∧
      (table'.map DtabEntry.code).Nodup ∧
      (c ∈ table.map DtabEntry.code → table'.map DtabEntry.code = table.map DtabEntry.code) ∧
      (c ∉ table.map DtabEntry.code → table' = table ++ [{ code := c, sym := sym }])) ∧
    (dtabInsert c sym table = none ↔ c ∉ table.map DtabEntry.code ∧ 256 ≤ table.length)

/-- R160: Lookup finds the entry with exactly the candidate's digits; the saturated candidate matches nothing. -/
def Obligations.LookupIsExact : Prop :=
  ∀ table : List DtabEntry, (table.map DtabEntry.code).Nodup →
    (∀ (c : Bits) (sym : Byte), dtabLookup (.bits c) table = some sym ↔
      ∃ e ∈ table, e.code = c ∧ e.sym = sym) ∧
    dtabLookup .saturated table = none

/-! ### Decoder commands -/

/-- R191 to R193: DEC.OPEN reads exactly a header's bytes, whatever its padding bits, and leaves Ready with the counts
and the table the header declares. The candidate is not part of what it writes. -/
def Obligations.DecOpenParsesHeader : Prop :=
  ∀ (s : State) (count : Word) (descs : List Descriptor) (table : List DtabEntry) (rest : List SrcAnswer),
    s.ctl.fatal = false → (∀ d ∈ descs, d.fits) → descs.length < 2 ^ 32 → tableOf descs = some table →
    s.env.src = (headerBytes count descs).map .data ++ rest →
    exec .decOpen s = .next { s with
      running := none
      br := { byte := lastCodeByte descs, nbits := 0#3, ended := false }
      dec := {
        state := .ready, declared := count, alpha := BitVec.ofNat 32 descs.length, emitted := 0#32,
        dtab := table, cand := s.dec.cand }
      env := { s.env with src := rest, srcTaken := s.env.srcTaken + (headerBytes count descs).length }
      ctl := { s.ctl with rfail := false, rcode := 0#8, statusCode := 0x00#8, result := 0#32 } }

/-- R191 to R193, R198, R121: a header cut short by the source's end is UNEXPECTED_EOF with `br_ended` set, by an error
IO_ERROR; the session stays Unopened with the counts and the table of what was read, and the write side is as it was.
Every proper prefix of a header that parses is such a cut. -/
def Obligations.DecOpenPrematureEnd : Prop :=
  (∀ (count : Word) (descs : List Descriptor) (table : List DtabEntry) (taken : List Byte),
    (∀ d ∈ descs, d.fits) → descs.length < 2 ^ 32 → tableOf descs = some table →
    taken <+: headerBytes count descs → taken ≠ headerBytes count descs →
    ∃ declared alpha read last, HeaderCut taken declared alpha read last) ∧
  ∀ (s : State) (taken : List Byte) (declared alpha : Word) (table : List DtabEntry) (last : Byte)
    (rest : List SrcAnswer), s.ctl.fatal = false → HeaderCut taken declared alpha table last →
    (s.env.src = taken.map .data ++ .exhausted :: rest → exec .decOpen s = .next { s with
      running := none
      br := { byte := last, nbits := 0#3, ended := true }
      dec := {
        state := .unopened, declared := declared, alpha := alpha, emitted := 0#32, dtab := table, cand := s.dec.cand }
      env := { s.env with src := rest, srcTaken := s.env.srcTaken + taken.length }
      ctl := { s.ctl with rfail := true, rcode := 0x10#8, statusCode := 0x10#8, result := 0#32 } }) ∧
    (∀ e : Byte, s.env.src = taken.map .data ++ .err e :: rest → exec .decOpen s = .next { s with
      running := none
      br := { byte := last, nbits := 0#3, ended := false }
      dec := {
        state := .unopened, declared := declared, alpha := alpha, emitted := 0#32, dtab := table, cand := s.dec.cand }
      env := { s.env with src := rest, srcTaken := s.env.srcTaken + taken.length }
      ctl := { s.ctl with
        ioerrSrc := e, rfail := true, rcode := 0x20#8, statusCode := 0x20#8, result := 0#32 } })

/-- R191, R193, R159: a descriptor that needs an entry beyond DEC_TABLE_CAP ends DEC.OPEN with TABLE_OVERFLOW, the session
Unopened with both counts and the full table, the reader aligned after that descriptor. -/
def Obligations.DecOpenTableOverflow : Prop :=
  ∀ (s : State) (count alpha : Word) (pre : List Descriptor) (d : Descriptor) (table : List DtabEntry)
    (rest : List SrcAnswer),
    s.ctl.fatal = false → (∀ x ∈ pre, x.fits) → d.fits → pre.length < alpha.toNat →
    tableOf pre = some table → dtabInsert d.code d.sym table = none →
    s.env.src =
      (le32Bytes count ++ le32Bytes alpha ++ (pre ++ [d]).flatMap Descriptor.bytes).map .data ++ rest →
    exec .decOpen s = .next { s with
      running := none
      br := { byte := lastCodeByte (pre ++ [d]), nbits := 0#3, ended := false }
      dec := {
        state := .unopened, declared := count, alpha := alpha, emitted := 0#32, dtab := table, cand := s.dec.cand }
      env := { s.env with
        src := rest, srcTaken := s.env.srcTaken + (8 + ((pre ++ [d]).flatMap Descriptor.bytes).length) }
      ctl := { s.ctl with rfail := true, rcode := 0x11#8, statusCode := 0x11#8, result := 0#32 } }

/-- R194, R195, R160, R199: DEC.READ emits the symbols whose codes the source's digits spell, in each place the first code
to match, and reads no byte beyond the last code; the table need not be prefix-free or complete (U5). -/
def Obligations.DecReadDecodes : Prop :=
  ∀ (s : State) (out : List DtabEntry) (bytes : List Byte) (left : Bits) (room : Nat) (rest : List SrcAnswer),
    ReadReady s → s.dec.state ≠ .unopened → s.dec.Sound →
    (∀ e ∈ out, e ∈ s.dec.dtab ∧ matchedFirst s.dec.dtab e) →
    s.dec.emitted.toNat + out.length ≤ s.dec.declared.toNat →
    (s.br.ended = false ∨ bytes = []) → left.length < 8 →
    s.br.unread ++ bytes.flatMap byteBits = out.flatMap DtabEntry.code ++ left →
    s.env.src = bytes.map .data ++ rest → s.env.doutRoom = out.length + room →
    ∃ t, exec (.decRead out.length) s = .next t ∧ t.br.unread = left ∧ t.br.ended = s.br.ended ∧ t = { s with
      br := t.br
      dec := { s.dec with
        emitted := s.dec.emitted + BitVec.ofNat 32 out.length, cand := t.dec.cand }
      env := { s.env with
        src := rest, srcTaken := s.env.srcTaken + bytes.length
        dout := s.env.dout ++ out.map DtabEntry.sym, doutRoom := room }
      ctl := { s.ctl with statusCode := 0x00#8, result := BitVec.ofNat 32 out.length } }

/-- R194, R197: DEC.READ 0 does nothing; with every declared byte emitted DEC.READ reads the source to its end, asking
nothing of a source that has ended, and reports END_OF_STREAM, or IO_ERROR. -/
def Obligations.DecReadEndOfStream : Prop :=
  ∀ s : State, ReadReady s → s.dec.state ≠ .unopened →
    (exec (.decRead 0) s = .next { s with ctl := { s.ctl with statusCode := 0x00#8, result := 0#32 } }) ∧
    (∀ (n : Nat) (bytes : List Byte) (rest : List SrcAnswer), 0 < n → s.dec.emitted = s.dec.declared →
      s.br.ended = false → s.env.src = bytes.map .data ++ .exhausted :: rest →
      exec (.decRead n) s = .next { s with
        br := { byte := bytes.getLast?.getD s.br.byte, nbits := 0#3, ended := true }
        dec := { s.dec with state := .drained }
        env := { s.env with src := rest, srcTaken := s.env.srcTaken + bytes.length }
        ctl := { s.ctl with statusCode := 0x01#8, result := 0#32 } }) ∧
    (∀ n : Nat, 0 < n → s.dec.emitted = s.dec.declared → s.br.ended = true →
      exec (.decRead n) s = .next { s with
        br := { s.br with nbits := 0#3 }
        dec := { s.dec with state := .drained }
        ctl := { s.ctl with statusCode := 0x01#8, result := 0#32 } }) ∧
    (∀ (n : Nat) (bytes : List Byte) (e : Byte) (rest : List SrcAnswer), 0 < n →
      s.dec.emitted = s.dec.declared → s.br.ended = false → s.env.src = bytes.map .data ++ .err e :: rest →
      exec (.decRead n) s = .next { s with
        br := { byte := bytes.getLast?.getD s.br.byte, nbits := 0#3, ended := false }
        env := { s.env with src := rest, srcTaken := s.env.srcTaken + bytes.length }
        ctl := { s.ctl with
          ioerrSrc := e, rfail := true, rcode := 0x20#8, statusCode := 0x20#8, result := 0#32 } })

/-- R194 to R196, R198, R199: a source that ends where the next symbol still needs a digit is UNEXPECTED_EOF, one that
fails there IO_ERROR, after the symbols before it, each the first to match, however many digits were read in vain; the
table need not be prefix-free or complete (U5). -/
def Obligations.DecReadEndsInsideCode : Prop :=
  ∀ (s : State) (out : List DtabEntry) (bytes : List Byte) (left : Bits) (room n : Nat),
    ReadReady s → s.dec.state ≠ .unopened → s.dec.Sound →
    (∀ e ∈ out, e ∈ s.dec.dtab ∧ matchedFirst s.dec.dtab e) → (∀ e ∈ s.dec.dtab, ¬ e.code <+: left) →
    s.dec.emitted.toNat + out.length < s.dec.declared.toNat → out.length < n →
    s.br.unread ++ bytes.flatMap byteBits = out.flatMap DtabEntry.code ++ left →
    s.env.doutRoom = out.length + room →
    (∀ rest : List SrcAnswer, s.br.ended = false → s.env.src = bytes.map .data ++ .exhausted :: rest →
      ∃ t, exec (.decRead n) s = .next t ∧ t = { s with
        br := { byte := bytes.getLast?.getD s.br.byte, nbits := 0#3, ended := true }
        dec := { s.dec with
          emitted := s.dec.emitted + BitVec.ofNat 32 out.length, cand := t.dec.cand }
        env := { s.env with
          src := rest, srcTaken := s.env.srcTaken + bytes.length
          dout := s.env.dout ++ out.map DtabEntry.sym, doutRoom := room }
        ctl := { s.ctl with
          rfail := true, rcode := 0x10#8, statusCode := 0x10#8, result := BitVec.ofNat 32 out.length } }) ∧
    (s.br.ended = true → bytes = [] →
      ∃ t, exec (.decRead n) s = .next t ∧ t = { s with
        br := { s.br with nbits := 0#3 }
        dec := { s.dec with
          emitted := s.dec.emitted + BitVec.ofNat 32 out.length, cand := t.dec.cand }
        env := { s.env with dout := s.env.dout ++ out.map DtabEntry.sym, doutRoom := room }
        ctl := { s.ctl with
          rfail := true, rcode := 0x10#8, statusCode := 0x10#8, result := BitVec.ofNat 32 out.length } }) ∧
    (∀ (e : Byte) (rest : List SrcAnswer), s.br.ended = false →
      s.env.src = bytes.map .data ++ .err e :: rest →
      ∃ t, exec (.decRead n) s = .next t ∧ t = { s with
        br := { byte := bytes.getLast?.getD s.br.byte, nbits := 0#3, ended := false }
        dec := { s.dec with
          emitted := s.dec.emitted + BitVec.ofNat 32 out.length, cand := t.dec.cand }
        env := { s.env with
          src := rest, srcTaken := s.env.srcTaken + bytes.length
          dout := s.env.dout ++ out.map DtabEntry.sym, doutRoom := room }
        ctl := { s.ctl with
          ioerrSrc := e, rfail := true, rcode := 0x20#8, statusCode := 0x20#8,
          result := BitVec.ofNat 32 out.length } })

/-- R194: a DEC.READ that fills its slots and another after it emit what one DEC.READ for both would. -/
def Obligations.DecReadSplits : Prop :=
  ∀ (s t u : State) (m n : Nat), ReadReady s → s.dec.state ≠ .unopened →
    exec (.decRead m) s = .next t → t.running = none → t.ctl.statusCode = 0x00#8 →
    exec (.decRead n) t = .next u → u.running = none →
    exec (.decRead (m + n)) s =
      .next { u with ctl := { u.ctl with result := u.ctl.result + BitVec.ofNat 32 m } }

/-- R178: what ENC.FINALIZE writes, given to DEC.OPEN and DEC.READ on any block, yields the input and then
END_OF_STREAM. -/
def Obligations.RoundTrip : Prop :=
  ∀ (s t : State), WriteReady s → s.enc.closed = false → s.bw.padded → s.countsBuffer →
    exec .encFinalize s = .next t → t.running = none → t.ctl.statusCode = 0x00#8 →
    ∃ bytes, t.env.sink = s.env.sink ++ bytes ∧
      ∀ (r : State) (n : Nat) (rest : List SrcAnswer), r.ctl.fatal = false →
        r.env.src = bytes.map .data ++ .exhausted :: rest → s.enc.buf.length < n →
        s.enc.buf.length ≤ r.env.doutRoom →
        ∃ r1 r2, exec .decOpen r = .next r1 ∧ r1.running = none ∧ r1.ctl.statusCode = 0x00#8 ∧
          exec (.decRead n) r1 = .next r2 ∧ r2.running = none ∧ r2.ctl.statusCode = 0x01#8 ∧
          r2.ctl.result = BitVec.ofNat 32 s.enc.buf.length ∧ r2.env.dout = r.env.dout ++ s.enc.buf ∧
          r2.env.src = rest ∧ r2.dec.state = .drained

/-- R198: that stream cut short by one byte or more always ends in UNEXPECTED_EOF, in DEC.OPEN or in DEC.READ. -/
def Obligations.TruncationDetected : Prop :=
  ∀ (s t : State), WriteReady s → s.enc.closed = false → s.bw.padded → s.countsBuffer →
    exec .encFinalize s = .next t → t.running = none → t.ctl.statusCode = 0x00#8 →
    ∃ bytes, t.env.sink = s.env.sink ++ bytes ∧
      ∀ (r : State) (k n : Nat) (rest : List SrcAnswer), r.ctl.fatal = false → k < bytes.length →
        r.env.src = (bytes.take k).map .data ++ .exhausted :: rest → s.enc.buf.length ≤ n →
        s.enc.buf.length ≤ r.env.doutRoom →
        ∃ r1, exec .decOpen r = .next r1 ∧ r1.running = none ∧
          (r1.ctl.statusCode = 0x10#8 ∧ r1.ctl.rfail = true ∨
           r1.ctl.statusCode = 0x00#8 ∧ ∃ r2, exec (.decRead n) r1 = .next r2 ∧ r2.running = none ∧
             r2.ctl.statusCode = 0x10#8 ∧ r2.ctl.rfail = true)

/-! ### The whole machine -/

/-- R24 to R28, R37, R40, R43, R44, R159, R190, R231: every step keeps the invariant of `Safety.lean`. -/
def Obligations.InvariantKept : Prop :=
  ∀ s t : State, s.Inv → step s = .next t → t.Inv

/-- R47: the invariant holds after reset. -/
def Obligations.InvariantAtReset : Prop :=
  State.reset.Inv

/-- R260, R261, R47: the reset input, whatever runs, puts the block's state at its reset values and leaves the streams
DIN, DOUT, SINK and SRC as they are. That words waiting on CMD stay is the model's choice (log 4). What becomes of the
candidate, the input itself, which log 5 lets the step lower, and the model's counter is no rule's and is not said here
(logs 3, 5, 7). -/
def Obligations.ResetClearsBlock : Prop :=
  ∀ s : State, s.env.resetIn = true → ∃ t, step s = .next t ∧ t = { s with
    running := none
    ctl := {
      statusCode := 0#8, result := 0#32, fatal := false, faultCode := 0#8, faultCmd := 0#32, faultInfo := 0#32,
      wfail := false, wcode := 0#8, rfail := false, rcode := 0#8, ioerrSink := 0#8, ioerrSrc := 0#8 }
    bw := { acc := 0#8, nbits := 0#3 }
    br := { byte := 0#8, nbits := 0#3, ended := false }
    enc := {
      buf := [], freq := Vector.replicate 256 0#32, closed := false, codes := Vector.replicate 256 none,
      nodes := [] }
    dec := {
      state := .unopened, declared := 0#32, alpha := 0#32, emitted := 0#32, dtab := [], cand := t.dec.cand }
    env := { s.env with resetIn := t.env.resetIn }
    draws := t.draws }

/-- R47, R262, R34: after a reset every register reads 0 but ID. -/
def Obligations.ResetRegisters : Prop :=
  ∀ (s t : State) (idx : BitVec 6), s.env.resetIn = true → step s = .next t →
    (readRegister idx t).1 = (if idx = 12#6 then 0x485A0001#32 else 0#32) ∧
    (readRegister idx State.reset).1 = (if idx = 12#6 then 0x485A0001#32 else 0#32)

/-- R237, R238, R24, R25, R26: without the reset input FATAL and the fault registers never change once FATAL is set,
WFAIL is cleared by no command but ENC.OPEN and RFAIL by none but DEC.OPEN. -/
def Obligations.FailureFlagsLatch : Prop :=
  ∀ s t : State, s.Inv → s.env.resetIn = false → step s = .next t →
    (s.ctl.fatal = true → t.ctl.fatal = true ∧ t.ctl.faultCode = s.ctl.faultCode ∧
      t.ctl.faultCmd = s.ctl.faultCmd ∧ t.ctl.faultInfo = s.ctl.faultInfo) ∧
    (s.ctl.wfail = true → t.ctl.wfail = false →
      s.running = none ∧ ∃ w rest, s.env.cmd = w :: rest ∧ decode w = .ok .encOpen) ∧
    (s.ctl.rfail = true → t.ctl.rfail = false →
      s.running = none ∧ ∃ w rest, s.env.cmd = w :: rest ∧ decode w = .ok .decOpen)

/-- R74: apart from FATAL and STATUS, a read-side command neither reads nor writes the write side and a write-side
command neither reads nor writes the read side: put any other side in and the command does the same beside it. -/
def Obligations.SidesIndependent : Prop :=
  ∀ (i : Instr) (s t x : State), exec i s = .next t →
    (sideOf i = .read → exec i (s.withWrite x) = .next (t.withWrite x) ∧ t.withWrite s = t) ∧
    (sideOf i = .write → exec i (s.withRead x) = .next (t.withRead x) ∧ t.withRead s = t)

/-- R78: a stalled command has a step exactly when its stream has an answer; until then the block is stuck. -/
def Obligations.StallHasNoStep : Prop :=
  ∀ (s : State) (r : Running), s.running = some r → s.env.resetIn = false →
    (r.wait.port = .din → s.env.din = [] → step s = .fault (.stalled .din)) ∧
    (r.wait.port = .dout → s.env.doutRoom = 0 → step s = .fault (.stalled .dout)) ∧
    (r.wait.port = .sink → s.env.sinkAns = [] → step s = .fault (.stalled .sink)) ∧
    (r.wait.port = .source → s.env.src = [] → step s = .fault (.stalled .source)) ∧
    (r.wait.port = .din ∧ s.env.din ≠ [] ∨ r.wait.port = .dout ∧ s.env.doutRoom ≠ 0 ∨
      r.wait.port = .sink ∧ s.env.sinkAns ≠ [] ∨ r.wait.port = .source ∧ s.env.src ≠ [] →
      ∃ t, step s = .next t)

/-- R64 to R67 say what a transaction waits for. That a step goes on until its stream has no answer left, and so leaves
a command running only there, is the step size that R271 leaves to the model: the model's choice (log 10). -/
def Obligations.StallsAreReal : Prop :=
  ∀ (s t : State) (r : Running), step s = .next t → t.running = some r →
    (r.wait.port = .din → t.env.din = []) ∧ (r.wait.port = .dout → t.env.doutRoom = 0) ∧
    (r.wait.port = .sink → t.env.sinkAns = []) ∧
    (r.wait.port = .source → t.env.src = [] ∧ t.br.nbits = 0#3 ∧ t.br.ended = false)

/-- R271, R66, R67, R78: no result depends on when the environment answers: what arrives while a command waits has the
effect it would have had there from the start. -/
def Obligations.AnswersMayComeLate : Prop :=
  ∀ (s t : State) (x : Supply), s.env.resetIn = false → step s = .next t →
    (t.running = none → step (s.supplied x) = .next (t.supplied x)) ∧
    (∀ r, t.running = some r → r.wait.port.ready (t.supplied x) = true →
      step (s.supplied x) = step (t.supplied x))

/-- R64 to R67, R71, R72, R269: a step takes at most one command word, and that only with no command running; it
consumes stream bytes and answers from the front and counts them, appends to DOUT and SINK one byte for each place
used and each ACK, and takes nothing back. That a step of the reset input leaves the words on CMD is the model's choice
(log 4). -/
def Obligations.StreamsOnlyAdvance : Prop :=
  ∀ s t : State, step s = .next t →
    t.env.cmd = (if s.env.resetIn = false ∧ s.running = none then s.env.cmd.drop 1 else s.env.cmd) ∧
    (∃ n, n ≤ s.env.din.length ∧ t.env.din = s.env.din.drop n ∧ t.env.dinTaken = s.env.dinTaken + n) ∧
    (∃ bs, t.env.dout = s.env.dout ++ bs ∧ s.env.doutRoom = t.env.doutRoom + bs.length) ∧
    (∃ n bs, t.env.sinkAns = s.env.sinkAns.drop n ∧ t.env.sink = s.env.sink ++ bs ∧
      bs.length = (s.env.sinkAns.take n).count .ack) ∧
    (∃ n, t.env.src = s.env.src.drop n ∧
      t.env.srcTaken = s.env.srcTaken + ((s.env.src.take n).filter SrcAnswer.isData).length) ∧
    t.encBufBytes = s.encBufBytes

/-! ### The register port -/

/-- R22: STATUS holds each field of the state at its place and 0 elsewhere while no command runs, BUSY is 1 while one
runs, all is 0 after reset; reading it changes no state. -/
def Obligations.StatusFields : Prop :=
  (∀ s : State, s.running = none →
    (readRegister 0#6 s).2 = s ∧
    (readRegister 0#6 s).1.extractLsb' 0 8 = s.ctl.statusCode ∧
    (readRegister 0#6 s).1.extractLsb' 8 1 = BitVec.ofBool s.ctl.fatal ∧
    (readRegister 0#6 s).1.extractLsb' 9 1 = BitVec.ofBool s.ctl.wfail ∧
    (readRegister 0#6 s).1.extractLsb' 10 1 = BitVec.ofBool s.ctl.rfail ∧
    (readRegister 0#6 s).1.extractLsb' 11 1 = BitVec.ofBool s.enc.closed ∧
    (readRegister 0#6 s).1.extractLsb' 12 2 =
      (match s.dec.state with | .unopened => 0#2 | .ready => 1#2 | .drained => 2#2) ∧
    (readRegister 0#6 s).1.extractLsb' 14 3 = s.bw.nbits ∧
    (readRegister 0#6 s).1.extractLsb' 17 3 = s.br.nbits ∧
    (readRegister 0#6 s).1.extractLsb' 20 1 = BitVec.ofBool s.br.ended ∧
    (readRegister 0#6 s).1.extractLsb' 21 1 = 0#1 ∧
    (readRegister 0#6 s).1.extractLsb' 22 10 = 0#10) ∧
  (∀ (s : State) (r : Running), s.running = some r →
    (readRegister 0#6 s).1.extractLsb' 21 1 = 1#1) ∧
  (readRegister 0#6 State.reset).1 = 0x00000000#32

/-- R21, R23 to R35, R221: with no command running every other slot holds the value its rule names, and reading one
changes nothing; after reset each but ID reads 0. -/
def Obligations.RegisterSlots : Prop :=
  ∀ s : State, s.running = none →
    (∀ idx : BitVec 6, (readRegister idx s).2 = s) ∧
    (readRegister 1#6 s).1 = s.ctl.result ∧
    (readRegister 2#6 s).1 = s.ctl.faultCode.setWidth 32 ∧
    (readRegister 3#6 s).1 = s.ctl.faultCmd ∧
    (readRegister 4#6 s).1 = s.ctl.faultInfo ∧
    (readRegister 5#6 s).1 = s.ctl.ioerrSink.setWidth 32 + 256#32 * s.ctl.ioerrSrc.setWidth 32 ∧
    (readRegister 6#6 s).1 = s.ctl.wcode.setWidth 32 + 256#32 * s.ctl.rcode.setWidth 32 ∧
    (readRegister 7#6 s).1 = BitVec.ofNat 32 s.enc.buf.length ∧
    (readRegister 8#6 s).1 =
      BitVec.ofNat 32 (((List.range 256).filter (fun v => s.enc.freqOf (symbolOf v) != 0#32)).length) ∧
    (readRegister 9#6 s).1 = s.dec.declared ∧
    (readRegister 10#6 s).1 = s.dec.alpha ∧
    (readRegister 11#6 s).1 = s.dec.emitted ∧
    (readRegister 12#6 s).1 = 0x485A0001#32 ∧
    (∀ idx : BitVec 6, 13#6 ≤ idx → (readRegister idx s).1 = 0#32) ∧
    (∀ idx : BitVec 6, idx ≠ 12#6 → (readRegister idx State.reset).1 = 0#32)

/-- R36: while a command runs STATUS.BUSY reads 1 and ID its constant; a read moves nothing but the model's counter of
free values (log 7). -/
def Obligations.BusyReads : Prop :=
  ∀ (s : State) (r : Running), s.running = some r →
    (readRegister 0#6 s).1.getLsbD 21 = true ∧
    readRegister 12#6 s = (0x485A0001#32, s) ∧
    (∀ idx : BitVec 6, ∃ d, (readRegister idx s).2 = { s with draws := d })

/-! ### The model's own reset input -/

/-- Log 5, the model's choice: the step that performs the reset lowers the reset input. -/
def Obligations.ResetInputReleased : Prop :=
  ∀ s : State, s.env.resetIn = true → ∃ t, step s = .next t ∧ t.env.resetIn = false

end
end

