-- ==== Sys2Proof/Laws/State.lean ====
section
/-! SUPPORT. What each named update of the state leaves in each field: one lemma a field, true by rfl. -/

namespace Sys2Proof.Machine

/-! ### complete -/

section
variable (c : Byte) (r : Word) (s : State)

@[simp] theorem complete_bw : (complete c r s).bw = s.bw := rfl
@[simp] theorem complete_br : (complete c r s).br = s.br := rfl
@[simp] theorem complete_enc : (complete c r s).enc = s.enc := rfl
@[simp] theorem complete_dec : (complete c r s).dec = s.dec := rfl
@[simp] theorem complete_running : (complete c r s).running = s.running := rfl
@[simp] theorem complete_env : (complete c r s).env = s.env := rfl
@[simp] theorem complete_encBufBytes : (complete c r s).encBufBytes = s.encBufBytes := rfl
@[simp] theorem complete_draws : (complete c r s).draws = s.draws := rfl
@[simp] theorem complete_ctl_statusCode : (complete c r s).ctl.statusCode = c := rfl
@[simp] theorem complete_ctl_result : (complete c r s).ctl.result = r := rfl
@[simp] theorem complete_ctl_fatal : (complete c r s).ctl.fatal = s.ctl.fatal := rfl
@[simp] theorem complete_ctl_faultCode : (complete c r s).ctl.faultCode = s.ctl.faultCode := rfl
@[simp] theorem complete_ctl_faultCmd : (complete c r s).ctl.faultCmd = s.ctl.faultCmd := rfl
@[simp] theorem complete_ctl_faultInfo : (complete c r s).ctl.faultInfo = s.ctl.faultInfo := rfl
@[simp] theorem complete_ctl_wfail : (complete c r s).ctl.wfail = s.ctl.wfail := rfl
@[simp] theorem complete_ctl_wcode : (complete c r s).ctl.wcode = s.ctl.wcode := rfl
@[simp] theorem complete_ctl_rfail : (complete c r s).ctl.rfail = s.ctl.rfail := rfl
@[simp] theorem complete_ctl_rcode : (complete c r s).ctl.rcode = s.ctl.rcode := rfl
@[simp] theorem complete_ctl_ioerrSink : (complete c r s).ctl.ioerrSink = s.ctl.ioerrSink := rfl
@[simp] theorem complete_ctl_ioerrSrc : (complete c r s).ctl.ioerrSrc = s.ctl.ioerrSrc := rfl

end

/-! ### raise -/

section
variable (f : Status) (w : Word) (n : Nat) (x : Byte) (s : State)

@[simp] theorem raise_bw : (raise f w n x s).bw = s.bw := rfl
@[simp] theorem raise_br : (raise f w n x s).br = s.br := rfl
@[simp] theorem raise_enc : (raise f w n x s).enc = s.enc := rfl
@[simp] theorem raise_dec : (raise f w n x s).dec = s.dec := rfl
@[simp] theorem raise_running : (raise f w n x s).running = s.running := rfl
@[simp] theorem raise_env : (raise f w n x s).env = s.env := rfl
@[simp] theorem raise_encBufBytes : (raise f w n x s).encBufBytes = s.encBufBytes := rfl
@[simp] theorem raise_draws : (raise f w n x s).draws = s.draws := rfl
@[simp] theorem raise_ctl_statusCode : (raise f w n x s).ctl.statusCode = f.code := rfl
@[simp] theorem raise_ctl_result : (raise f w n x s).ctl.result = BitVec.ofNat 32 n := rfl
@[simp] theorem raise_ctl_fatal : (raise f w n x s).ctl.fatal = true := rfl
@[simp] theorem raise_ctl_faultCode : (raise f w n x s).ctl.faultCode = f.code := rfl
@[simp] theorem raise_ctl_faultCmd : (raise f w n x s).ctl.faultCmd = w := rfl
@[simp] theorem raise_ctl_faultInfo : (raise f w n x s).ctl.faultInfo = (x.setWidth 32 <<< 24) ||| BitVec.ofNat 32 n := rfl
@[simp] theorem raise_ctl_wfail : (raise f w n x s).ctl.wfail = s.ctl.wfail := rfl
@[simp] theorem raise_ctl_wcode : (raise f w n x s).ctl.wcode = s.ctl.wcode := rfl
@[simp] theorem raise_ctl_rfail : (raise f w n x s).ctl.rfail = s.ctl.rfail := rfl
@[simp] theorem raise_ctl_rcode : (raise f w n x s).ctl.rcode = s.ctl.rcode := rfl
@[simp] theorem raise_ctl_ioerrSink : (raise f w n x s).ctl.ioerrSink = s.ctl.ioerrSink := rfl
@[simp] theorem raise_ctl_ioerrSrc : (raise f w n x s).ctl.ioerrSrc = s.ctl.ioerrSrc := rfl

end

/-! ### refuseFatal -/

section
variable (s : State)

@[simp] theorem refuseFatal_bw : (refuseFatal s).bw = s.bw := rfl
@[simp] theorem refuseFatal_br : (refuseFatal s).br = s.br := rfl
@[simp] theorem refuseFatal_enc : (refuseFatal s).enc = s.enc := rfl
@[simp] theorem refuseFatal_dec : (refuseFatal s).dec = s.dec := rfl
@[simp] theorem refuseFatal_running : (refuseFatal s).running = s.running := rfl
@[simp] theorem refuseFatal_env : (refuseFatal s).env = s.env := rfl
@[simp] theorem refuseFatal_encBufBytes : (refuseFatal s).encBufBytes = s.encBufBytes := rfl
@[simp] theorem refuseFatal_draws : (refuseFatal s).draws = s.draws := rfl
@[simp] theorem refuseFatal_ctl_statusCode : (refuseFatal s).ctl.statusCode = Status.refusedFatal.code := rfl
@[simp] theorem refuseFatal_ctl_result : (refuseFatal s).ctl.result = 0#32 := rfl
@[simp] theorem refuseFatal_ctl_fatal : (refuseFatal s).ctl.fatal = s.ctl.fatal := rfl
@[simp] theorem refuseFatal_ctl_faultCode : (refuseFatal s).ctl.faultCode = s.ctl.faultCode := rfl
@[simp] theorem refuseFatal_ctl_faultCmd : (refuseFatal s).ctl.faultCmd = s.ctl.faultCmd := rfl
@[simp] theorem refuseFatal_ctl_faultInfo : (refuseFatal s).ctl.faultInfo = s.ctl.faultInfo := rfl
@[simp] theorem refuseFatal_ctl_wfail : (refuseFatal s).ctl.wfail = s.ctl.wfail := rfl
@[simp] theorem refuseFatal_ctl_wcode : (refuseFatal s).ctl.wcode = s.ctl.wcode := rfl
@[simp] theorem refuseFatal_ctl_rfail : (refuseFatal s).ctl.rfail = s.ctl.rfail := rfl
@[simp] theorem refuseFatal_ctl_rcode : (refuseFatal s).ctl.rcode = s.ctl.rcode := rfl
@[simp] theorem refuseFatal_ctl_ioerrSink : (refuseFatal s).ctl.ioerrSink = s.ctl.ioerrSink := rfl
@[simp] theorem refuseFatal_ctl_ioerrSrc : (refuseFatal s).ctl.ioerrSrc = s.ctl.ioerrSrc := rfl

end

/-! ### writeFail -/

section
variable (f : Status) (r : Word) (s : State)

@[simp] theorem writeFail_bw : (writeFail f r s).bw = s.bw := rfl
@[simp] theorem writeFail_br : (writeFail f r s).br = s.br := rfl
@[simp] theorem writeFail_enc : (writeFail f r s).enc = s.enc := rfl
@[simp] theorem writeFail_dec : (writeFail f r s).dec = s.dec := rfl
@[simp] theorem writeFail_running : (writeFail f r s).running = s.running := rfl
@[simp] theorem writeFail_env : (writeFail f r s).env = s.env := rfl
@[simp] theorem writeFail_encBufBytes : (writeFail f r s).encBufBytes = s.encBufBytes := rfl
@[simp] theorem writeFail_draws : (writeFail f r s).draws = s.draws := rfl
@[simp] theorem writeFail_ctl_statusCode : (writeFail f r s).ctl.statusCode = f.code := rfl
@[simp] theorem writeFail_ctl_result : (writeFail f r s).ctl.result = r := rfl
@[simp] theorem writeFail_ctl_fatal : (writeFail f r s).ctl.fatal = s.ctl.fatal := rfl
@[simp] theorem writeFail_ctl_faultCode : (writeFail f r s).ctl.faultCode = s.ctl.faultCode := rfl
@[simp] theorem writeFail_ctl_faultCmd : (writeFail f r s).ctl.faultCmd = s.ctl.faultCmd := rfl
@[simp] theorem writeFail_ctl_faultInfo : (writeFail f r s).ctl.faultInfo = s.ctl.faultInfo := rfl
@[simp] theorem writeFail_ctl_wfail : (writeFail f r s).ctl.wfail = true := rfl
@[simp] theorem writeFail_ctl_wcode : (writeFail f r s).ctl.wcode = f.code := rfl
@[simp] theorem writeFail_ctl_rfail : (writeFail f r s).ctl.rfail = s.ctl.rfail := rfl
@[simp] theorem writeFail_ctl_rcode : (writeFail f r s).ctl.rcode = s.ctl.rcode := rfl
@[simp] theorem writeFail_ctl_ioerrSink : (writeFail f r s).ctl.ioerrSink = s.ctl.ioerrSink := rfl
@[simp] theorem writeFail_ctl_ioerrSrc : (writeFail f r s).ctl.ioerrSrc = s.ctl.ioerrSrc := rfl

end

/-! ### readFail -/

section
variable (f : Status) (r : Word) (s : State)

@[simp] theorem readFail_bw : (readFail f r s).bw = s.bw := rfl
@[simp] theorem readFail_br : (readFail f r s).br = s.br := rfl
@[simp] theorem readFail_enc : (readFail f r s).enc = s.enc := rfl
@[simp] theorem readFail_dec : (readFail f r s).dec = s.dec := rfl
@[simp] theorem readFail_running : (readFail f r s).running = s.running := rfl
@[simp] theorem readFail_env : (readFail f r s).env = s.env := rfl
@[simp] theorem readFail_encBufBytes : (readFail f r s).encBufBytes = s.encBufBytes := rfl
@[simp] theorem readFail_draws : (readFail f r s).draws = s.draws := rfl
@[simp] theorem readFail_ctl_statusCode : (readFail f r s).ctl.statusCode = f.code := rfl
@[simp] theorem readFail_ctl_result : (readFail f r s).ctl.result = r := rfl
@[simp] theorem readFail_ctl_fatal : (readFail f r s).ctl.fatal = s.ctl.fatal := rfl
@[simp] theorem readFail_ctl_faultCode : (readFail f r s).ctl.faultCode = s.ctl.faultCode := rfl
@[simp] theorem readFail_ctl_faultCmd : (readFail f r s).ctl.faultCmd = s.ctl.faultCmd := rfl
@[simp] theorem readFail_ctl_faultInfo : (readFail f r s).ctl.faultInfo = s.ctl.faultInfo := rfl
@[simp] theorem readFail_ctl_wfail : (readFail f r s).ctl.wfail = s.ctl.wfail := rfl
@[simp] theorem readFail_ctl_wcode : (readFail f r s).ctl.wcode = s.ctl.wcode := rfl
@[simp] theorem readFail_ctl_rfail : (readFail f r s).ctl.rfail = true := rfl
@[simp] theorem readFail_ctl_rcode : (readFail f r s).ctl.rcode = f.code := rfl
@[simp] theorem readFail_ctl_ioerrSink : (readFail f r s).ctl.ioerrSink = s.ctl.ioerrSink := rfl
@[simp] theorem readFail_ctl_ioerrSrc : (readFail f r s).ctl.ioerrSrc = s.ctl.ioerrSrc := rfl

end

/-! ### clearWriteFail -/

section
variable (s : State)

@[simp] theorem clearWriteFail_bw : (clearWriteFail s).bw = s.bw := rfl
@[simp] theorem clearWriteFail_br : (clearWriteFail s).br = s.br := rfl
@[simp] theorem clearWriteFail_enc : (clearWriteFail s).enc = s.enc := rfl
@[simp] theorem clearWriteFail_dec : (clearWriteFail s).dec = s.dec := rfl
@[simp] theorem clearWriteFail_running : (clearWriteFail s).running = s.running := rfl
@[simp] theorem clearWriteFail_env : (clearWriteFail s).env = s.env := rfl
@[simp] theorem clearWriteFail_encBufBytes : (clearWriteFail s).encBufBytes = s.encBufBytes := rfl
@[simp] theorem clearWriteFail_draws : (clearWriteFail s).draws = s.draws := rfl
@[simp] theorem clearWriteFail_ctl_statusCode : (clearWriteFail s).ctl.statusCode = s.ctl.statusCode := rfl
@[simp] theorem clearWriteFail_ctl_result : (clearWriteFail s).ctl.result = s.ctl.result := rfl
@[simp] theorem clearWriteFail_ctl_fatal : (clearWriteFail s).ctl.fatal = s.ctl.fatal := rfl
@[simp] theorem clearWriteFail_ctl_faultCode : (clearWriteFail s).ctl.faultCode = s.ctl.faultCode := rfl
@[simp] theorem clearWriteFail_ctl_faultCmd : (clearWriteFail s).ctl.faultCmd = s.ctl.faultCmd := rfl
@[simp] theorem clearWriteFail_ctl_faultInfo : (clearWriteFail s).ctl.faultInfo = s.ctl.faultInfo := rfl
@[simp] theorem clearWriteFail_ctl_wfail : (clearWriteFail s).ctl.wfail = false := rfl
@[simp] theorem clearWriteFail_ctl_wcode : (clearWriteFail s).ctl.wcode = 0#8 := rfl
@[simp] theorem clearWriteFail_ctl_rfail : (clearWriteFail s).ctl.rfail = s.ctl.rfail := rfl
@[simp] theorem clearWriteFail_ctl_rcode : (clearWriteFail s).ctl.rcode = s.ctl.rcode := rfl
@[simp] theorem clearWriteFail_ctl_ioerrSink : (clearWriteFail s).ctl.ioerrSink = s.ctl.ioerrSink := rfl
@[simp] theorem clearWriteFail_ctl_ioerrSrc : (clearWriteFail s).ctl.ioerrSrc = s.ctl.ioerrSrc := rfl

end

/-! ### clearReadFail -/

section
variable (s : State)

@[simp] theorem clearReadFail_bw : (clearReadFail s).bw = s.bw := rfl
@[simp] theorem clearReadFail_br : (clearReadFail s).br = s.br := rfl
@[simp] theorem clearReadFail_enc : (clearReadFail s).enc = s.enc := rfl
@[simp] theorem clearReadFail_dec : (clearReadFail s).dec = s.dec := rfl
@[simp] theorem clearReadFail_running : (clearReadFail s).running = s.running := rfl
@[simp] theorem clearReadFail_env : (clearReadFail s).env = s.env := rfl
@[simp] theorem clearReadFail_encBufBytes : (clearReadFail s).encBufBytes = s.encBufBytes := rfl
@[simp] theorem clearReadFail_draws : (clearReadFail s).draws = s.draws := rfl
@[simp] theorem clearReadFail_ctl_statusCode : (clearReadFail s).ctl.statusCode = s.ctl.statusCode := rfl
@[simp] theorem clearReadFail_ctl_result : (clearReadFail s).ctl.result = s.ctl.result := rfl
@[simp] theorem clearReadFail_ctl_fatal : (clearReadFail s).ctl.fatal = s.ctl.fatal := rfl
@[simp] theorem clearReadFail_ctl_faultCode : (clearReadFail s).ctl.faultCode = s.ctl.faultCode := rfl
@[simp] theorem clearReadFail_ctl_faultCmd : (clearReadFail s).ctl.faultCmd = s.ctl.faultCmd := rfl
@[simp] theorem clearReadFail_ctl_faultInfo : (clearReadFail s).ctl.faultInfo = s.ctl.faultInfo := rfl
@[simp] theorem clearReadFail_ctl_wfail : (clearReadFail s).ctl.wfail = s.ctl.wfail := rfl
@[simp] theorem clearReadFail_ctl_wcode : (clearReadFail s).ctl.wcode = s.ctl.wcode := rfl
@[simp] theorem clearReadFail_ctl_rfail : (clearReadFail s).ctl.rfail = false := rfl
@[simp] theorem clearReadFail_ctl_rcode : (clearReadFail s).ctl.rcode = 0#8 := rfl
@[simp] theorem clearReadFail_ctl_ioerrSink : (clearReadFail s).ctl.ioerrSink = s.ctl.ioerrSink := rfl
@[simp] theorem clearReadFail_ctl_ioerrSrc : (clearReadFail s).ctl.ioerrSrc = s.ctl.ioerrSrc := rfl

end

/-! ### setEnded -/

section
variable (s : State)

@[simp] theorem setEnded_ctl : (setEnded s).ctl = s.ctl := rfl
@[simp] theorem setEnded_bw : (setEnded s).bw = s.bw := rfl
@[simp] theorem setEnded_br : (setEnded s).br = { s.br with ended := true } := rfl
@[simp] theorem setEnded_enc : (setEnded s).enc = s.enc := rfl
@[simp] theorem setEnded_dec : (setEnded s).dec = s.dec := rfl
@[simp] theorem setEnded_running : (setEnded s).running = s.running := rfl
@[simp] theorem setEnded_env : (setEnded s).env = s.env := rfl
@[simp] theorem setEnded_encBufBytes : (setEnded s).encBufBytes = s.encBufBytes := rfl
@[simp] theorem setEnded_draws : (setEnded s).draws = s.draws := rfl

end

/-! ### clearCandidate -/

section
variable (s : State)

@[simp] theorem clearCandidate_ctl : (clearCandidate s).ctl = s.ctl := rfl
@[simp] theorem clearCandidate_bw : (clearCandidate s).bw = s.bw := rfl
@[simp] theorem clearCandidate_br : (clearCandidate s).br = s.br := rfl
@[simp] theorem clearCandidate_enc : (clearCandidate s).enc = s.enc := rfl
@[simp] theorem clearCandidate_dec : (clearCandidate s).dec = { s.dec with cand := .bits [] } := rfl
@[simp] theorem clearCandidate_running : (clearCandidate s).running = s.running := rfl
@[simp] theorem clearCandidate_env : (clearCandidate s).env = s.env := rfl
@[simp] theorem clearCandidate_encBufBytes : (clearCandidate s).encBufBytes = s.encBufBytes := rfl
@[simp] theorem clearCandidate_draws : (clearCandidate s).draws = s.draws := rfl

end

/-! ### resetBlock -/

section
variable (s : State)

@[simp] theorem resetBlock_ctl : (resetBlock s).ctl = Control.reset := rfl
@[simp] theorem resetBlock_bw : (resetBlock s).bw = BitWriter.reset := rfl
@[simp] theorem resetBlock_br : (resetBlock s).br = BitReader.reset := rfl
@[simp] theorem resetBlock_enc : (resetBlock s).enc = Encoder.reset := rfl
@[simp] theorem resetBlock_dec : (resetBlock s).dec = Decoder.reset := rfl
@[simp] theorem resetBlock_running : (resetBlock s).running = none := rfl
@[simp] theorem resetBlock_env : (resetBlock s).env = { s.env with resetIn := false } := rfl
@[simp] theorem resetBlock_encBufBytes : (resetBlock s).encBufBytes = s.encBufBytes := rfl
@[simp] theorem resetBlock_draws : (resetBlock s).draws = s.draws := rfl

end

/-! ### settle -/

section
variable (w : Word) (p : Wait) (s : State)

@[simp] theorem settle_done : settle w (.done s) = { s with running := none } := rfl
@[simp] theorem settle_stall : settle w (.stall p s) = { s with running := some { cmd := w, wait := p } } := rfl

end

/-! ### supplied -/

section
variable (s : State) (x : Supply)

@[simp] theorem supplied_ctl : (s.supplied x).ctl = s.ctl := rfl
@[simp] theorem supplied_bw : (s.supplied x).bw = s.bw := rfl
@[simp] theorem supplied_br : (s.supplied x).br = s.br := rfl
@[simp] theorem supplied_enc : (s.supplied x).enc = s.enc := rfl
@[simp] theorem supplied_dec : (s.supplied x).dec = s.dec := rfl
@[simp] theorem supplied_running : (s.supplied x).running = s.running := rfl
@[simp] theorem supplied_env : (s.supplied x).env =
    { s.env with din := s.env.din ++ x.din, doutRoom := s.env.doutRoom + x.doutRoom, sinkAns := s.env.sinkAns ++ x.sinkAns, src := s.env.src ++ x.src } := rfl
@[simp] theorem supplied_encBufBytes : (s.supplied x).encBufBytes = s.encBufBytes := rfl
@[simp] theorem supplied_draws : (s.supplied x).draws = s.draws := rfl

end

end Sys2Proof.Machine
end

