-- ==== Sys2Proof/Laws/Ops.lean ====
section
/-! SUPPORT. What each stream primitive and micro-operation can do, said once. -/

namespace Sys2Proof.Machine

/-! ### DIN and DOUT -/

theorem dinRead_none {s : State} : dinRead s = none ↔ s.env.din = [] := by
  unfold dinRead
  split <;> simp_all

/-- DinRead consumes the first byte and does nothing else. -/
theorem dinRead_some {s t : State} {b : Byte} :
    dinRead s = some (b, t) ↔ ∃ rest, s.env.din = b :: rest ∧
      t = { s with env := { s.env with din := rest, dinTaken := s.env.dinTaken + 1 } } := by
  unfold dinRead
  split
  · simp_all
  · rename_i c rest h
    simp only [h, Option.some.injEq, Prod.mk.injEq, List.cons.injEq]
    constructor
    · rintro ⟨rfl, rfl⟩
      exact ⟨rest, ⟨rfl, rfl⟩, rfl⟩
    · rintro ⟨_, ⟨rfl, rfl⟩, rfl⟩
      exact ⟨rfl, rfl⟩

theorem dinRead_cons {s : State} {b : Byte} {rest : List Byte} (h : s.env.din = b :: rest) :
    dinRead s = some (b, { s with env := { s.env with din := rest, dinTaken := s.env.dinTaken + 1 } }) :=
  dinRead_some.mpr ⟨rest, h, rfl⟩

theorem doutWrite_none {b : Byte} {s : State} : doutWrite b s = none ↔ s.env.doutRoom = 0 := by
  unfold doutWrite
  split <;> simp_all

/-- DoutWrite appends its byte, uses up one place and does nothing else. -/
theorem doutWrite_some {s t : State} {b : Byte} :
    doutWrite b s = some t ↔ ∃ room, s.env.doutRoom = room + 1 ∧
      t = { s with env := { s.env with dout := s.env.dout ++ [b], doutRoom := room } } := by
  unfold doutWrite
  split
  · simp_all
  · rename_i room h
    simp only [h, Option.some.injEq]
    constructor
    · rintro rfl
      exact ⟨room, rfl, rfl⟩
    · rintro ⟨n, hn, rfl⟩
      obtain rfl : n = room := (Nat.succ.inj hn).symm
      rfl

/-! ### SINK -/

theorem sinkWrite_nil {s : State} (h : s.env.sinkAns = []) (b : Byte) : sinkWrite b s = .wait b s := by
  simp [sinkWrite, h]

theorem sinkWrite_ack {s : State} {rest : List SinkAnswer} (h : s.env.sinkAns = .ack :: rest) (b : Byte) :
    sinkWrite b s =
      .ok 1 { s with env := { s.env with sink := s.env.sink ++ [b], sinkAns := rest } } := by
  simp [sinkWrite, h]

theorem sinkWrite_err {s : State} {e : Byte} {rest : List SinkAnswer} (h : s.env.sinkAns = .err e :: rest)
    (b : Byte) :
    sinkWrite b s =
      .err { s with env := { s.env with sinkAns := rest }, ctl := { s.ctl with ioerrSink := e } } := by
  simp [sinkWrite, h]

/-- SinkWrite waits, or the byte is appended, or the error code is recorded; nothing else happens (R66). -/
theorem sinkWrite_cases (b : Byte) (s : State) :
    (s.env.sinkAns = [] ∧ sinkWrite b s = .wait b s) ∨
    (∃ rest, s.env.sinkAns = .ack :: rest ∧ sinkWrite b s =
      .ok 1 { s with env := { s.env with sink := s.env.sink ++ [b], sinkAns := rest } }) ∨
    (∃ e rest, s.env.sinkAns = .err e :: rest ∧ sinkWrite b s =
      .err { s with env := { s.env with sinkAns := rest }, ctl := { s.ctl with ioerrSink := e } }) := by
  cases h : s.env.sinkAns with
  | nil => exact .inl ⟨rfl, sinkWrite_nil h b⟩
  | cons a rest =>
    cases a with
    | ack => exact .inr (.inl ⟨rest, rfl, sinkWrite_ack h b⟩)
    | err e => exact .inr (.inr ⟨e, rest, rfl, sinkWrite_err h b⟩)

/-- WriteBitInt places a bit without a transaction, or offers the completed byte with the writer emptied (R100). -/
theorem writeBitInt_cases (x : Bool) (s : State) :
    (s.bw.nbits ≠ 7#3 ∧ writeBitInt x s =
      .ok 0 { s with bw := { acc := putBit s.bw.acc (7 - s.bw.nbits.toNat) x, nbits := s.bw.nbits + 1#3 } }) ∨
    (s.bw.nbits = 7#3 ∧ writeBitInt x s =
      sinkWrite (putBit s.bw.acc (7 - s.bw.nbits.toNat) x) { s with bw := BitWriter.reset }) := by
  by_cases h : s.bw.nbits = 7#3
  · exact .inr ⟨h, by simp [writeBitInt, h]⟩
  · exact .inl ⟨h, by simp [writeBitInt, h]⟩

/-- FlushInt does nothing when aligned and else offers the padded byte with the writer emptied (R101). -/
theorem flushInt_cases (s : State) :
    (s.bw.nbits = 0#3 ∧ flushInt s = .ok 0 s) ∨
    (s.bw.nbits ≠ 0#3 ∧ flushInt s = sinkWrite s.bw.acc { s with bw := BitWriter.reset }) := by
  by_cases h : s.bw.nbits = 0#3
  · exact .inl ⟨h, by simp [flushInt, h]⟩
  · exact .inr ⟨h, by simp [flushInt, h]⟩

theorem writeRawInt_aligned {s : State} (h : s.bw.nbits = 0#3) (b : Byte) :
    writeRawInt b s = .ok (sinkWrite b s) := by
  simp [writeRawInt, h]

theorem writeRawInt_misaligned {s : State} (h : s.bw.nbits ≠ 0#3) (b : Byte) :
    writeRawInt b s = .error s.bw.nbits := by
  simp [writeRawInt, h]

/-! ### SRC -/

/-- SrcRead waits, or consumes one answer; ERR is recorded in IOERR (R67). -/
theorem srcRead_cases (s : State) :
    (s.env.src = [] ∧ srcRead s = .wait s) ∨
    (∃ b rest, s.env.src = .data b :: rest ∧
      srcRead s = .got b { s with env := { s.env with src := rest, srcTaken := s.env.srcTaken + 1 } }) ∨
    (∃ rest, s.env.src = .exhausted :: rest ∧
      srcRead s = .exhausted { s with env := { s.env with src := rest } }) ∨
    (∃ e rest, s.env.src = .err e :: rest ∧
      srcRead s = .err { s with env := { s.env with src := rest }, ctl := { s.ctl with ioerrSrc := e } }) := by
  cases h : s.env.src with
  | nil => exact .inl ⟨rfl, by simp [srcRead, h]⟩
  | cons a rest =>
    cases a with
    | data b => exact .inr (.inl ⟨b, rest, rfl, by simp [srcRead, h]⟩)
    | exhausted => exact .inr (.inr (.inl ⟨rest, rfl, by simp [srcRead, h]⟩))
    | err e => exact .inr (.inr (.inr ⟨e, rest, rfl, by simp [srcRead, h]⟩))

section
variable {s : State} {b e : Byte} {rest : List SrcAnswer}

theorem readBitInt_unread (h : s.br.nbits ≠ 0#3) : readBitInt s =
    .got (s.br.byte.getLsbD (s.br.nbits.toNat - 1)) { s with br := { s.br with nbits := s.br.nbits - 1#3 } } := by
  simp [readBitInt, h]

theorem readBitInt_ended (h : s.br.nbits = 0#3) (he : s.br.ended = true) : readBitInt s = .exhausted s := by
  simp [readBitInt, h, he]

theorem readBitInt_wait (h : s.br.nbits = 0#3) (he : s.br.ended = false) (hs : s.env.src = []) :
    readBitInt s = .wait s := by
  simp [readBitInt, srcRead, h, he, hs]

theorem readBitInt_data (h : s.br.nbits = 0#3) (he : s.br.ended = false) (hs : s.env.src = .data b :: rest) :
    readBitInt s = .got (b.getLsbD 7) { s with
      env := { s.env with src := rest, srcTaken := s.env.srcTaken + 1 }
      br := { s.br with byte := b, nbits := 7#3 } } := by
  simp [readBitInt, srcRead, h, he, hs]

theorem readBitInt_exhausted (h : s.br.nbits = 0#3) (he : s.br.ended = false) (hs : s.env.src = .exhausted :: rest) :
    readBitInt s =
      .exhausted { s with env := { s.env with src := rest }, br := { s.br with ended := true } } := by
  simp [readBitInt, srcRead, setEnded, h, he, hs]

theorem readBitInt_err (h : s.br.nbits = 0#3) (he : s.br.ended = false) (hs : s.env.src = .err e :: rest) :
    readBitInt s =
      .err { s with env := { s.env with src := rest }, ctl := { s.ctl with ioerrSrc := e } } := by
  simp [readBitInt, srcRead, h, he, hs]

theorem readRawInt_misaligned (h : s.br.nbits ≠ 0#3) : readRawInt s = .error s.br.nbits := by
  simp [readRawInt, h]

theorem readRawInt_ended (h : s.br.nbits = 0#3) (he : s.br.ended = true) : readRawInt s = .ok (.exhausted s) := by
  simp [readRawInt, h, he]

theorem readRawInt_wait (h : s.br.nbits = 0#3) (he : s.br.ended = false) (hs : s.env.src = []) :
    readRawInt s = .ok (.wait s) := by
  simp [readRawInt, srcRead, h, he, hs]

theorem readRawInt_data (h : s.br.nbits = 0#3) (he : s.br.ended = false) (hs : s.env.src = .data b :: rest) :
    readRawInt s = .ok (.got b { s with env := { s.env with src := rest, srcTaken := s.env.srcTaken + 1 } }) := by
  simp [readRawInt, srcRead, h, he, hs]

theorem readRawInt_exhausted (h : s.br.nbits = 0#3) (he : s.br.ended = false) (hs : s.env.src = .exhausted :: rest) :
    readRawInt s =
      .ok (.exhausted { s with env := { s.env with src := rest }, br := { s.br with ended := true } }) := by
  simp [readRawInt, srcRead, setEnded, h, he, hs]

theorem readRawInt_err (h : s.br.nbits = 0#3) (he : s.br.ended = false) (hs : s.env.src = .err e :: rest) :
    readRawInt s =
      .ok (.err { s with env := { s.env with src := rest }, ctl := { s.ctl with ioerrSrc := e } }) := by
  simp [readRawInt, srcRead, h, he, hs]

end

/-- ReadBitInt takes an unread bit, or a fresh byte's first bit, or reports END, ERR or a wait (R120). -/
theorem readBitInt_cases (s : State) :
    (s.br.nbits ≠ 0#3 ∧ readBitInt s =
      .got (s.br.byte.getLsbD (s.br.nbits.toNat - 1)) { s with br := { s.br with nbits := s.br.nbits - 1#3 } }) ∨
    (s.br.nbits = 0#3 ∧ s.br.ended = true ∧ readBitInt s = .exhausted s) ∨
    (s.br.nbits = 0#3 ∧ s.br.ended = false ∧ s.env.src = [] ∧ readBitInt s = .wait s) ∨
    (s.br.nbits = 0#3 ∧ s.br.ended = false ∧ ∃ b rest, s.env.src = .data b :: rest ∧ readBitInt s =
      .got (b.getLsbD 7) { s with
        env := { s.env with src := rest, srcTaken := s.env.srcTaken + 1 }
        br := { s.br with byte := b, nbits := 7#3 } }) ∨
    (s.br.nbits = 0#3 ∧ s.br.ended = false ∧ ∃ rest, s.env.src = .exhausted :: rest ∧ readBitInt s =
      .exhausted { s with env := { s.env with src := rest }, br := { s.br with ended := true } }) ∨
    (s.br.nbits = 0#3 ∧ s.br.ended = false ∧ ∃ e rest, s.env.src = .err e :: rest ∧ readBitInt s =
      .err { s with env := { s.env with src := rest }, ctl := { s.ctl with ioerrSrc := e } }) := by
  by_cases h : s.br.nbits = 0#3
  · cases he : s.br.ended with
    | true => exact .inr (.inl ⟨h, rfl, readBitInt_ended h he⟩)
    | false =>
      match hs : s.env.src with
      | [] => exact .inr (.inr (.inl ⟨h, rfl, rfl, readBitInt_wait h he hs⟩))
      | .data b :: rest => exact .inr (.inr (.inr (.inl ⟨h, rfl, b, rest, rfl, readBitInt_data h he hs⟩)))
      | .exhausted :: rest =>
        exact .inr (.inr (.inr (.inr (.inl ⟨h, rfl, rest, rfl, readBitInt_exhausted h he hs⟩))))
      | .err e :: rest => exact .inr (.inr (.inr (.inr (.inr ⟨h, rfl, e, rest, rfl, readBitInt_err h he hs⟩))))
  · exact .inl ⟨h, readBitInt_unread h⟩

/-- ReadRawInt is misaligned, or takes a whole byte, or reports END, ERR or a wait (R121). -/
theorem readRawInt_cases (s : State) :
    (s.br.nbits ≠ 0#3 ∧ readRawInt s = .error s.br.nbits) ∨
    (s.br.nbits = 0#3 ∧ s.br.ended = true ∧ readRawInt s = .ok (.exhausted s)) ∨
    (s.br.nbits = 0#3 ∧ s.br.ended = false ∧ s.env.src = [] ∧ readRawInt s = .ok (.wait s)) ∨
    (s.br.nbits = 0#3 ∧ s.br.ended = false ∧ ∃ b rest, s.env.src = .data b :: rest ∧ readRawInt s =
      .ok (.got b { s with env := { s.env with src := rest, srcTaken := s.env.srcTaken + 1 } })) ∨
    (s.br.nbits = 0#3 ∧ s.br.ended = false ∧ ∃ rest, s.env.src = .exhausted :: rest ∧ readRawInt s =
      .ok (.exhausted { s with env := { s.env with src := rest }, br := { s.br with ended := true } })) ∨
    (s.br.nbits = 0#3 ∧ s.br.ended = false ∧ ∃ e rest, s.env.src = .err e :: rest ∧ readRawInt s =
      .ok (.err { s with env := { s.env with src := rest }, ctl := { s.ctl with ioerrSrc := e } })) := by
  by_cases h : s.br.nbits = 0#3
  · cases he : s.br.ended with
    | true => exact .inr (.inl ⟨h, rfl, readRawInt_ended h he⟩)
    | false =>
      match hs : s.env.src with
      | [] => exact .inr (.inr (.inl ⟨h, rfl, rfl, readRawInt_wait h he hs⟩))
      | .data b :: rest => exact .inr (.inr (.inr (.inl ⟨h, rfl, b, rest, rfl, readRawInt_data h he hs⟩)))
      | .exhausted :: rest =>
        exact .inr (.inr (.inr (.inr (.inl ⟨h, rfl, rest, rfl, readRawInt_exhausted h he hs⟩))))
      | .err e :: rest => exact .inr (.inr (.inr (.inr (.inr ⟨h, rfl, e, rest, rfl, readRawInt_err h he hs⟩))))
  · exact .inl ⟨h, readRawInt_misaligned h⟩

/-! ### The gate -/

theorem gated_refuse {i : Instr} {s : State} (h : s.ctl.fatal = true) (body : State → Run) :
    gated i body s = .done (refuseFatal s) := by
  simp [gated, gate, h]

theorem gated_proceed {i : Instr} {s : State} (h : gate i s = .proceed) (body : State → Run) :
    gated i body s = body s := by
  simp [gated, h]

/-- A write-side command with no state check proceeds from a ready state (R232). -/
theorem gate_write {i : Instr} {s : State} (hs : sideOf i = .write) (hf : s.ctl.fatal = false)
    (hw : s.ctl.wfail = false) (hc : stateCheck i s = .proceed) : gate i s = .proceed := by
  simp [gate, hs, hf, hw, hc]

/-- A read-side command with no state check proceeds from a ready state (R232). -/
theorem gate_read {i : Instr} {s : State} (hs : sideOf i = .read) (hf : s.ctl.fatal = false)
    (hr : s.ctl.rfail = false) (hc : stateCheck i s = .proceed) : gate i s = .proceed := by
  simp [gate, hs, hf, hr, hc]

/-- The gate lets a command proceed only while FATAL is clear (R232). -/
theorem gate_proceed_fatal {i : Instr} {s : State} (h : gate i s = .proceed) : s.ctl.fatal = false := by
  cases hf : s.ctl.fatal with
  | false => rfl
  | true => simp [gate, hf] at h

/-- The gate ends a write-side command with the stored code only while WFAIL is set (R232 step 4). -/
theorem gate_writeFailed {i : Instr} {s : State} (h : gate i s = .writeFailed) :
    s.ctl.fatal = false ∧ s.ctl.wfail = true ∧ sideOf i = .write := by
  cases hf : s.ctl.fatal <;> cases hw : s.ctl.wfail <;> cases hr : s.ctl.rfail <;> cases hc : s.enc.closed <;>
    cases hd : s.dec.state <;> cases i <;> simp [gate, sideOf, isOpen, stateCheck, *] at h ⊢

/-- The gate ends a read-side command with the stored code only while RFAIL is set (R232 step 4). -/
theorem gate_readFailed {i : Instr} {s : State} (h : gate i s = .readFailed) :
    s.ctl.fatal = false ∧ s.ctl.rfail = true ∧ sideOf i = .read := by
  cases hf : s.ctl.fatal <;> cases hw : s.ctl.wfail <;> cases hr : s.ctl.rfail <;> cases hc : s.enc.closed <;>
    cases hd : s.dec.state <;> cases i <;> simp [gate, sideOf, isOpen, stateCheck, *] at h ⊢

/-- The gate's own faults (R232 step 5). -/
theorem gate_violation {i : Instr} {s : State} {f : Status} (h : gate i s = .violation f) :
    s.ctl.fatal = false ∧ (f = .writeAfterClose ∨ f = .notOpen) := by
  cases hf : s.ctl.fatal <;> cases hw : s.ctl.wfail <;> cases hr : s.ctl.rfail <;> cases hc : s.enc.closed <;>
    cases hd : s.dec.state <;> cases i <;> simp [gate, sideOf, isOpen, stateCheck, *] at h ⊢ <;> simp [← h]

/-! ### Candidates, tables and keys -/

/-- Lookup finds an entry of the table with exactly the candidate's code (R160). -/
theorem dtabLookup_some {cand : Candidate} {table : List DtabEntry} {sym : Byte}
    (h : dtabLookup cand table = some sym) :
    ∃ c e, cand = .bits c ∧ e ∈ table ∧ e.code = c ∧ e.sym = sym := by
  cases cand with
  | saturated => simp [dtabLookup] at h
  | bits c =>
    simp only [dtabLookup, Option.map_eq_some_iff] at h
    obtain ⟨e, he, rfl⟩ := h
    exact ⟨c, e, rfl, List.mem_of_find?_eq_some he, by simpa using List.find?_some he, rfl⟩

/-- Lookup misses when no entry has the candidate's code (R160). -/
theorem dtabLookup_none {c : Bits} {table : List DtabEntry} (h : ∀ e ∈ table, e.code ≠ c) :
    dtabLookup (.bits c) table = none := by
  simpa [dtabLookup, List.find?_eq_none] using h

theorem mem_insertKey {k a : MergeKey} {p : List MergeKey} : a ∈ insertKey k p ↔ a = k ∨ a ∈ p := by
  induction p with
  | nil => simp [insertKey]
  | cons b rest ih =>
    simp only [insertKey]
    split
    · simp
    · simp only [List.mem_cons, ih]
      tauto

theorem length_insertKey (k : MergeKey) (p : List MergeKey) : (insertKey k p).length = p.length + 1 := by
  induction p with
  | nil => rfl
  | cons b rest ih =>
    simp only [insertKey]
    split <;> simp_all

end Sys2Proof.Machine
end

