-- ==== Sys2Proof/Laws/Supply.lean ====
section
/-! SUPPORT. What later answers of the environment change: a run given more answers from the start is the run without
them, gone on with from where it stalled (`70_reset_and_hazards.md` R271). One lemma for each loop of a command. -/

namespace Sys2Proof.Machine

/-- A run once `x` has been supplied: its end with `x` unused, or the run that goes on from the stall. -/
def Run.supplied (cmd : Word) (x : Supply) : Run → Run
  | .done t => .done (t.supplied x)
  | .stall w t => resume cmd w (t.supplied x)

/-- A sink result once `x` has been supplied: a waiting byte is offered again. -/
def SinkResult.supplied (x : Supply) : SinkResult → SinkResult
  | .ok k t => .ok k (t.supplied x)
  | .err t => .err (t.supplied x)
  | .wait b t => sinkWrite b (t.supplied x)

/-- A source result once `x` has been supplied: a waiting read is tried `again`. -/
def SrcResult.supplied {α : Type} (again : State → SrcResult α) (x : Supply) : SrcResult α → SrcResult α
  | .got a t => .got a (t.supplied x)
  | .exhausted t => .exhausted (t.supplied x)
  | .err t => .err (t.supplied x)
  | .wait t => again (t.supplied x)

variable (x : Supply) (cmd : Word)

/-! ### Primitives -/

theorem dinRead_supplied {s t : State} {b : Byte} (h : dinRead s = some (b, t)) :
    dinRead (s.supplied x) = some (b, t.supplied x) := by
  obtain ⟨rest, hd, rfl⟩ := dinRead_some.mp h
  exact dinRead_some.mpr ⟨rest ++ x.din, by simp [hd], rfl⟩

theorem doutWrite_supplied {s t : State} {b : Byte} (h : doutWrite b s = some t) :
    doutWrite b (s.supplied x) = some (t.supplied x) := by
  obtain ⟨room, hd, rfl⟩ := doutWrite_some.mp h
  exact doutWrite_some.mpr ⟨room + x.doutRoom, by simp only [supplied_env, hd]; omega, rfl⟩

theorem sinkWrite_supplied (b : Byte) (s : State) : sinkWrite b (s.supplied x) = (sinkWrite b s).supplied x := by
  obtain ⟨_, hr⟩ | ⟨rest, hs, hr⟩ | ⟨e, rest, hs, hr⟩ := sinkWrite_cases b s <;> rw [hr]
  · rfl
  · rw [sinkWrite_ack (s := s.supplied x) (rest := rest ++ x.sinkAns) (by simp [hs])]; rfl
  · rw [sinkWrite_err (s := s.supplied x) (e := e) (rest := rest ++ x.sinkAns) (by simp [hs])]; rfl

theorem writeBitInt_supplied (v : Bool) (s : State) :
    writeBitInt v (s.supplied x) = (writeBitInt v s).supplied x := by
  obtain ⟨hn, hr⟩ | ⟨hn, hr⟩ := writeBitInt_cases v s <;> rw [hr]
  · simp only [writeBitInt, supplied_bw, hn, if_false]; rfl
  · rw [← sinkWrite_supplied]; simp only [writeBitInt, supplied_bw, hn, if_true]; rfl

theorem flushInt_supplied (s : State) : flushInt (s.supplied x) = (flushInt s).supplied x := by
  obtain ⟨hn, hr⟩ | ⟨hn, hr⟩ := flushInt_cases s <;> rw [hr]
  · simp only [flushInt, supplied_bw, hn, if_true]; rfl
  · rw [← sinkWrite_supplied]; simp only [flushInt, supplied_bw, hn, if_false]; rfl

theorem readBitInt_supplied (s : State) :
    readBitInt (s.supplied x) = (readBitInt s).supplied readBitInt x := by
  obtain ⟨hn, hr⟩ | ⟨hn, he, hr⟩ | ⟨_, _, _, hr⟩ | ⟨hn, he, b, rest, hs, hr⟩ | ⟨hn, he, rest, hs, hr⟩ |
    ⟨hn, he, e, rest, hs, hr⟩ := readBitInt_cases s <;> rw [hr]
  · rw [readBitInt_unread (s := s.supplied x) hn]; rfl
  · rw [readBitInt_ended (s := s.supplied x) hn he]; rfl
  · rfl
  · rw [readBitInt_data (s := s.supplied x) (b := b) hn he (rest := rest ++ x.src) (by simp [hs])]; rfl
  · rw [readBitInt_exhausted (s := s.supplied x) hn he (rest := rest ++ x.src) (by simp [hs])]; rfl
  · rw [readBitInt_err (s := s.supplied x) (e := e) hn he (rest := rest ++ x.src) (by simp [hs])]; rfl

/-- ReadRawInt once `x` has been supplied: misaligned as before, or its answer, or tried again. -/
theorem readRawInt_supplied (s : State) :
    readRawInt (s.supplied x) =
      match readRawInt s with
      | .error p => .error p
      | .ok (.got b t) => .ok (.got b (t.supplied x))
      | .ok (.exhausted t) => .ok (.exhausted (t.supplied x))
      | .ok (.err t) => .ok (.err (t.supplied x))
      | .ok (.wait t) => readRawInt (t.supplied x) := by
  obtain ⟨hn, hr⟩ | ⟨hn, he, hr⟩ | ⟨_, _, _, hr⟩ | ⟨hn, he, b, rest, hs, hr⟩ | ⟨hn, he, rest, hs, hr⟩ |
    ⟨hn, he, e, rest, hs, hr⟩ := readRawInt_cases s <;> rw [hr]
  · rw [readRawInt_misaligned (s := s.supplied x) hn]; rfl
  · rw [readRawInt_ended (s := s.supplied x) hn he]
  · rw [readRawInt_data (s := s.supplied x) (b := b) hn he (rest := rest ++ x.src) (by simp [hs])]; rfl
  · rw [readRawInt_exhausted (s := s.supplied x) hn he (rest := rest ++ x.src) (by simp [hs])]; rfl
  · rw [readRawInt_err (s := s.supplied x) (e := e) hn he (rest := rest ++ x.src) (by simp [hs])]; rfl

/-- A read that waits has done nothing. -/
theorem readBitInt_wait_eq {s t : State} (h : readBitInt s = .wait t) : t = s := by
  obtain ⟨_, hr⟩ | ⟨_, _, hr⟩ | ⟨_, _, _, hr⟩ | ⟨_, _, _, _, _, hr⟩ | ⟨_, _, _, _, hr⟩ | ⟨_, _, _, _, _, hr⟩ :=
    readBitInt_cases s <;> rw [hr] at h <;> cases h
  rfl

theorem readRawInt_wait_eq {s t : State} (h : readRawInt s = .ok (.wait t)) : t = s := by
  obtain ⟨_, hr⟩ | ⟨_, _, hr⟩ | ⟨_, _, _, hr⟩ | ⟨_, _, _, _, _, hr⟩ | ⟨_, _, _, _, hr⟩ | ⟨_, _, _, _, _, hr⟩ :=
    readRawInt_cases s <;> rw [hr] at h <;> cases h
  rfl

/-! ### Fuel -/

/-- The unread bits of the reader and of the bytes the source has given. -/
def unreadCount (s : State) : Nat := s.br.nbits.toNat + 8 * s.env.src.length

theorem unreadCount_dec (s : State) (d : Decoder) : unreadCount { s with dec := d } = unreadCount s := rfl

/-- A bit read leaves fewer bits to read, so `readFuel` is never used up. -/
theorem readBitInt_got_lt {s t : State} {v : Bool} (h : readBitInt s = .got v t) : unreadCount t < unreadCount s := by
  obtain ⟨hn, hr⟩ | ⟨hn, he, hr⟩ | ⟨_, _, _, hr⟩ | ⟨hn, he, b, rest, hs, hr⟩ | ⟨hn, he, rest, hs, hr⟩ |
    ⟨hn, he, e, rest, hs, hr⟩ := readBitInt_cases s <;> rw [hr] at h <;> cases h
  · simp only [unreadCount]
    have : (s.br.nbits - 1#3).toNat + 1 = s.br.nbits.toNat := by
      generalize s.br.nbits = n at hn
      revert n; decide
    omega
  · simp only [unreadCount, hs, hn, List.length_cons]
    simp only [BitVec.toNat_ofNat]
    omega

/-- More fuel than there are bits makes no difference to the match loop. -/
theorem matchLoop_fuel {s : State} {m n : Nat} (hm : unreadCount s < m) (hn : unreadCount s < n) :
    matchLoop m s = matchLoop n s := by
  induction m generalizing s n with
  | zero => omega
  | succ m ih =>
    obtain ⟨n, rfl⟩ : ∃ k, n = k + 1 := ⟨n - 1, by omega⟩
    simp only [matchLoop]
    cases dtabLookup s.dec.cand s.dec.dtab with
    | some sym => rfl
    | none =>
      cases h : readBitInt s with
      | got v t =>
        have := readBitInt_got_lt h
        exact ih (by simp only [unreadCount] at *; omega) (by simp only [unreadCount] at *; omega)
      | exhausted t => rfl
      | err t => rfl
      | wait t => rfl

/-- More fuel than there are bits makes no difference to the drain loop. -/
theorem drainLoop_fuel {s : State} {m n : Nat} (hm : unreadCount s < m) (hn : unreadCount s < n) :
    drainLoop m s = drainLoop n s := by
  induction m generalizing s n with
  | zero => omega
  | succ m ih =>
    obtain ⟨n, rfl⟩ : ∃ k, n = k + 1 := ⟨n - 1, by omega⟩
    simp only [drainLoop]
    cases h : readBitInt s with
    | got v t =>
      have := readBitInt_got_lt h
      exact ih (by omega) (by omega)
    | exhausted t => rfl
    | err t => rfl
    | wait t => rfl

theorem unreadCount_lt_readFuel (s : State) : unreadCount s < readFuel s := by
  simp only [unreadCount, readFuel]; omega

/-- `match_symbol` one step at a time, without fuel (R195). -/
theorem matchSymbol_eq (s : State) :
    matchSymbol s =
      match dtabLookup s.dec.cand s.dec.dtab with
      | some sym => .got sym s
      | none =>
        match readBitInt s with
        | .got v t => matchSymbol { t with dec := { t.dec with cand := candAppend t.dec.cand v } }
        | .exhausted t => .exhausted t
        | .err t => .err t
        | .wait t => .wait t := by
  rw [matchSymbol, readFuel, matchLoop]
  cases dtabLookup s.dec.cand s.dec.dtab with
  | some sym => rfl
  | none =>
    cases h : readBitInt s with
    | got v t =>
      have := readBitInt_got_lt h
      exact matchLoop_fuel (by simp only [unreadCount] at *; omega) (unreadCount_lt_readFuel _)
    | exhausted t => rfl
    | err t => rfl
    | wait t => rfl

/-- `Drain()` on its own. -/
def drainAll (s : State) : SrcResult Empty := drainLoop (readFuel s) s

/-- `Drain()` one step at a time, without fuel (R197). -/
theorem drainAll_eq (s : State) :
    drainAll s =
      match readBitInt s with
      | .got _ t => drainAll t
      | .exhausted t => .exhausted t
      | .err t => .err t
      | .wait t => .wait t := by
  rw [drainAll, readFuel, drainLoop]
  cases h : readBitInt s with
  | got v t =>
    have := readBitInt_got_lt h
    exact drainLoop_fuel (by simp only [unreadCount] at *; omega) (unreadCount_lt_readFuel _)
  | exhausted t => rfl
  | err t => rfl
  | wait t => rfl

/-- A wait of the match loop is a wait for the source: no bit is left unread (R195). -/
theorem matchSymbol_wait {s t : State} (h : matchSymbol s = .wait t) :
    t.br.nbits = 0#3 ∧ t.br.ended = false ∧ t.env.src = [] ∧ readBitInt t = .wait t ∧
      dtabLookup t.dec.cand t.dec.dtab = none := by
  induction hk : unreadCount s using Nat.strongRecOn generalizing s with
  | _ k ih =>
    rw [matchSymbol_eq] at h
    cases hl : dtabLookup s.dec.cand s.dec.dtab with
    | some sym => simp [hl] at h
    | none =>
      cases hb : readBitInt s with
      | got v u =>
        have hlt := readBitInt_got_lt hb
        simp only [hl, hb] at h
        exact ih _ (by rw [unreadCount_dec]; omega) h rfl
      | exhausted u => simp [hl, hb] at h
      | err u => simp [hl, hb] at h
      | wait u =>
        simp only [hl, hb, SrcResult.wait.injEq] at h
        subst h
        obtain ⟨hn, hr⟩ | ⟨hn, he, hr⟩ | ⟨hn, he, hs, hr⟩ | ⟨hn, he, b, rest, hs, hr⟩ | ⟨hn, he, rest, hs, hr⟩ |
          ⟨hn, he, e, rest, hs, hr⟩ := readBitInt_cases s <;> rw [hr] at hb <;> cases hb
        exact ⟨hn, he, hs, hr, hl⟩

theorem matchSymbol_supplied (s : State) :
    matchSymbol (s.supplied x) = (matchSymbol s).supplied matchSymbol x := by
  induction hk : unreadCount s using Nat.strongRecOn generalizing s with
  | _ k ih =>
    rw [matchSymbol_eq, matchSymbol_eq s]
    simp only [supplied_dec, readBitInt_supplied]
    cases hl : dtabLookup s.dec.cand s.dec.dtab with
    | some sym => rfl
    | none =>
      cases hb : readBitInt s with
      | got v u =>
        have hlt := readBitInt_got_lt hb
        exact ih (unreadCount u) (by omega) { u with dec := { u.dec with cand := candAppend u.dec.cand v } } rfl
      | exhausted u => rfl
      | err u => rfl
      | wait u =>
        have hu := readBitInt_wait_eq hb
        subst hu
        simp only [SrcResult.supplied]
        rw [matchSymbol_eq (u.supplied x)]
        simp only [supplied_dec, hl]

theorem drainAll_supplied (s : State) : drainAll (s.supplied x) = (drainAll s).supplied drainAll x := by
  induction hk : unreadCount s using Nat.strongRecOn generalizing s with
  | _ k ih =>
    rw [drainAll_eq, drainAll_eq s]
    simp only [readBitInt_supplied]
    cases hb : readBitInt s with
    | got v u =>
      have hlt := readBitInt_got_lt hb
      exact ih _ (by omega) _ rfl
    | exhausted u => rfl
    | err u => rfl
    | wait u =>
      simp only [SrcResult.supplied]
      rw [drainAll_eq (u.supplied x)]

/-! ### Loops over DIN and the sink -/

theorem discardDin_supplied (e : Ending) (left : Nat) (s : State) :
    discardDin e left (s.supplied x) = (discardDin e left s).supplied cmd x := by
  induction left generalizing s with
  | zero => cases e <;> rfl
  | succ left ih =>
    cases h : dinRead s with
    | none => simp only [discardDin, h, Run.supplied, resume]
    | some p => simp only [discardDin, h, dinRead_supplied x h, ih]

theorem writeBitAfter_supplied (r : SinkResult) :
    writeBitAfter (r.supplied x) = (writeBitAfter r).supplied cmd x := by
  cases r <;> rfl

theorem flushAfter_supplied (r : SinkResult) : flushAfter (r.supplied x) = (flushAfter r).supplied cmd x := by
  cases r <;> rfl

theorem writeBitsLoop_supplied (left i : Nat) (s : State) :
    writeBitsLoop cmd left i (s.supplied x) = (writeBitsLoop cmd left i s).supplied cmd x := by
  induction left generalizing i s with
  | zero => rfl
  | succ left ih =>
    simp only [writeBitsLoop]
    cases h : dinRead s with
    | none => simp only [Run.supplied, resume, writeBitsLoop]
    | some p =>
      simp only [dinRead_supplied x h]
      cases bitOfChar p.1 with
      | none => rfl
      | some v =>
        simp only [writeBitInt_supplied]
        cases writeBitInt v p.2 with
        | ok k t => exact ih _ _
        | err t => exact discardDin_supplied x cmd _ _ _
        | wait b t => rfl

theorem writeRawLoop_supplied (left i : Nat) (s : State) :
    writeRawLoop left i (s.supplied x) = (writeRawLoop left i s).supplied cmd x := by
  induction left generalizing i s with
  | zero => rfl
  | succ left ih =>
    simp only [writeRawLoop]
    cases h : dinRead s with
    | none => simp only [Run.supplied, resume, writeRawLoop]
    | some p =>
      simp only [dinRead_supplied x h, sinkWrite_supplied]
      cases sinkWrite p.1 p.2 with
      | ok k t => exact ih _ _
      | err t => exact discardDin_supplied x cmd _ _ _
      | wait b t => rfl

theorem encWriteLoop_supplied (n left : Nat) (s : State) :
    encWriteLoop n left (s.supplied x) = (encWriteLoop n left s).supplied cmd x := by
  induction left generalizing s with
  | zero => rfl
  | succ left ih =>
    simp only [encWriteLoop]
    cases h : dinRead s with
    | none => simp only [Run.supplied, resume, encWriteLoop]
    | some p =>
      simp only [dinRead_supplied x h]
      exact ih { p.2 with enc := p.2.enc.push p.1 }

theorem emitFail_supplied (out : Nat) (s : State) :
    emitFail out (s.supplied x) = (emitFail out s).supplied cmd x := by
  simp only [emitFail, countResult]
  split <;> rfl

theorem emitDone_supplied (out : Nat) (s : State) :
    emitDone out (s.supplied x) = (emitDone out s).supplied cmd x := by
  simp only [emitDone, countResult]
  split <;> rfl

theorem emitLoop_supplied (todo : List Emit) (out : Nat) (s : State) :
    emitLoop cmd todo out (s.supplied x) = (emitLoop cmd todo out s).supplied cmd x := by
  induction todo generalizing out s with
  | nil => exact emitDone_supplied x cmd out s
  | cons op todo ih =>
    have key : ∀ r : SinkResult, emitAfter (emitLoop cmd todo) out todo (r.supplied x) =
        (emitAfter (emitLoop cmd todo) out todo r).supplied cmd x := by
      intro r
      cases r with
      | ok k t => exact ih _ _
      | err t => exact emitFail_supplied x cmd out t
      | wait b t => rfl
    cases op with
    | raw b =>
      simp only [emitLoop]
      by_cases hn : s.bw.nbits = 0#3
      · rw [writeRawInt_aligned (s := s.supplied x) hn, writeRawInt_aligned hn, sinkWrite_supplied]
        exact key _
      · rw [writeRawInt_misaligned (s := s.supplied x) hn, writeRawInt_misaligned hn]
        rfl
    | bit v => simp only [emitLoop, writeBitInt_supplied]; exact key _
    | flush => simp only [emitLoop, flushInt_supplied]; exact key _

/-! ### Loops over the source and DOUT -/

theorem readBitBody_supplied (s : State) : readBitBody (s.supplied x) = (readBitBody s).supplied cmd x := by
  simp only [readBitBody, readBitInt_supplied]
  cases h : readBitInt s with
  | got v t => rfl
  | exhausted t => rfl
  | err t => rfl
  | wait t => rfl

theorem readRawLoop_supplied (left i : Nat) (s : State) :
    readRawLoop cmd left i (s.supplied x) = (readRawLoop cmd left i s).supplied cmd x := by
  induction left generalizing i s with
  | zero => rfl
  | succ left ih =>
    rw [readRawLoop, readRawLoop, readRawInt_supplied]
    match h : readRawInt s with
    | .error p => rfl
    | .ok (.got b t) =>
      simp only [readRawDeliver]
      cases hd : doutWrite b t with
      | none => rfl
      | some u => simp only [doutWrite_supplied x hd]; exact ih _ _
    | .ok (.exhausted t) => rfl
    | .ok (.err t) => rfl
    | .ok (.wait t) => obtain rfl := readRawInt_wait_eq h; simp only [Run.supplied, resume, readRawLoop]

theorem headerByte_supplied {w : Wait} {next : Byte → State → Run}
    (hw : ∀ t, resume cmd w t = headerByte cmd w next t)
    (hn : ∀ b t, next b (t.supplied x) = (next b t).supplied cmd x) (s : State) :
    headerByte cmd w next (s.supplied x) = (headerByte cmd w next s).supplied cmd x := by
  rw [headerByte, headerByte, readRawInt_supplied]
  match h : readRawInt s with
  | .error p => rfl
  | .ok (.got b t) => exact hn _ _
  | .ok (.exhausted t) => rfl
  | .ok (.err t) => rfl
  | .ok (.wait t) => obtain rfl := readRawInt_wait_eq h; simp only [Run.supplied, hw, headerByte]

theorem headerWord_supplied {w : List Byte → Wait} {next : Word → State → Run}
    (hw : ∀ need got t, need + got.length = 4 → resume cmd (w got) t = headerWord cmd w next need got t)
    (hn : ∀ v t, next v (t.supplied x) = (next v t).supplied cmd x) (need : Nat) (got : List Byte)
    (h4 : need + got.length = 4) (s : State) :
    headerWord cmd w next need got (s.supplied x) = (headerWord cmd w next need got s).supplied cmd x := by
  induction need generalizing got s with
  | zero => exact hn _ _
  | succ need ih =>
    exact headerByte_supplied x cmd (fun t => hw (need + 1) got t h4)
      (fun b t => ih (got ++ [b]) (by simp; omega) t) s

theorem descInsert_supplied {next : State → Run} (hn : ∀ t, next (t.supplied x) = (next t).supplied cmd x)
    (sym : Byte) (code : Bits) (s : State) :
    descInsert next sym code (s.supplied x) = (descInsert next sym code s).supplied cmd x := by
  have h : (resetAlignInt (s.supplied x)).2 = (resetAlignInt s).2.supplied x := rfl
  simp only [descInsert, h, supplied_dec]
  cases dtabInsert code sym (resetAlignInt s).2.dec.dtab with
  | none => rfl
  | some table =>
    exact hn { (resetAlignInt s).2 with dec := { (resetAlignInt s).2.dec with dtab := table } }

theorem descBits_supplied (left : Nat) (hn : ∀ t, descLoop cmd left (t.supplied x) = (descLoop cmd left t).supplied cmd x)
    (sym : Byte) (more : Nat) (code : Bits) (s : State) :
    descBits (descLoop cmd left) left sym more code (s.supplied x) =
      (descBits (descLoop cmd left) left sym more code s).supplied cmd x := by
  induction more generalizing code s with
  | zero => exact descInsert_supplied x cmd hn sym code s
  | succ more ih =>
    simp only [descBits, readBitInt_supplied]
    cases h : readBitInt s with
    | got v t => exact ih _ _
    | exhausted t => rfl
    | err t => rfl
    | wait t => rfl

theorem descLoop_supplied (left : Nat) (s : State) :
    descLoop cmd left (s.supplied x) = (descLoop cmd left s).supplied cmd x := by
  induction left generalizing s with
  | zero => rfl
  | succ left ih =>
    refine headerByte_supplied x cmd (fun t => rfl) (fun sym t => ?_) s
    exact headerByte_supplied x cmd (fun t => rfl) (fun len t => descBits_supplied x cmd left ih sym _ _ t) t

theorem alphaKnown_supplied (v : Word) (s : State) :
    alphaKnown cmd v (s.supplied x) = (alphaKnown cmd v s).supplied cmd x :=
  descLoop_supplied x cmd v.toNat { s with dec := { s.dec with alpha := v } }

theorem countKnown_supplied (v : Word) (s : State) :
    countKnown cmd v (s.supplied x) = (countKnown cmd v s).supplied cmd x :=
  headerWord_supplied x cmd
    (fun need got t h => by obtain rfl : need = 4 - got.length := by omega
                            rfl)
    (alphaKnown_supplied x cmd) 4 [] rfl { s with dec := { s.dec with declared := v } }

theorem decOpenBody_supplied (s : State) : decOpenBody cmd (s.supplied x) = (decOpenBody cmd s).supplied cmd x :=
  headerWord_supplied x cmd
    (fun need got t h => by obtain rfl : need = 4 - got.length := by omega
                            rfl)
    (countKnown_supplied x cmd) 4 [] rfl (freshSession s)

theorem drainBody_supplied (k : Nat) (s : State) : drainBody k (s.supplied x) = (drainBody k s).supplied cmd x := by
  have h := drainAll_supplied x s
  simp only [drainAll] at h
  simp only [drainBody, h]
  cases drainLoop (readFuel s) s with
  | got v t => exact v.elim
  | exhausted t => rfl
  | err t => rfl
  | wait t => rfl

theorem decReadLoop_supplied (left k : Nat) (s : State) :
    decReadLoop left k (s.supplied x) = (decReadLoop left k s).supplied cmd x := by
  induction left generalizing k s with
  | zero => rfl
  | succ left ih =>
    rw [decReadLoop, decReadLoop]
    by_cases he : s.dec.emitted = s.dec.declared
    · simp only [supplied_dec, he, if_true]
      exact drainBody_supplied x cmd k s
    · simp only [supplied_dec, he, if_false]
      have hc : clearCandidate (s.supplied x) = (clearCandidate s).supplied x := rfl
      rw [hc, matchSymbol_supplied]
      cases h : matchSymbol (clearCandidate s) with
      | got sym t =>
        simp only [SrcResult.supplied, matchAfter, emitSymbol]
        cases hd : doutWrite sym t with
        | none => rfl
        | some u =>
          simp only [doutWrite_supplied x hd]
          exact ih (k + 1) { u with dec := { u.dec with emitted := u.dec.emitted + 1#32 } }
      | exhausted t => rfl
      | err t => rfl
      | wait t => rfl

end Sys2Proof.Machine
end

