-- ==== Sys2Proof/Laws/Keep.lean ====
section
/-! SUPPORT. What every loop of a command keeps: the invariant of `Safety.lean` but for its clauses about the running
command, and at a stall the promise of the point reached. -/

namespace Sys2Proof.Machine

/-- The clauses of the invariant that do not speak of the running command. -/
structure State.Calm (s : State) : Prop where
  control : s.ctl.Sound
  writer : s.bw.padded
  counts : s.countsBuffer
  decoder : s.dec.Sound
  drained : s.dec.state = .drained → s.dec.emitted = s.dec.declared ∧ s.br.nbits = 0#3 ∧ s.br.ended = true

/-- What a body keeps: a calm state at its end; at a stall also FATAL clear and the point's promise. -/
def Run.Keeps : Run → Prop
  | .done t => t.Calm
  | .stall w t => t.Calm ∧ t.ctl.fatal = false ∧ w.Sound t

/-- The states a body starts from. -/
def State.Fit (s : State) : Prop := s.Calm ∧ s.ctl.fatal = false

/-! ### Status and control -/

theorem fatal_mem_status {c : Byte} (h : c ∈ fatalCodes) : c ∈ statusCodes := by
  simp only [statusCodes, List.mem_append]; exact .inr h

theorem write_mem_status {c : Byte} (h : c ∈ writeCodes) : c ∈ statusCodes := by
  simp only [statusCodes, List.mem_append]; exact .inl (.inl (.inr h))

theorem read_mem_status {c : Byte} (h : c ∈ readCodes) : c ∈ statusCodes := by
  simp only [statusCodes, List.mem_append]; exact .inl (.inr h)

theorem State.Calm.complete {s : State} (h : s.Calm) {c : Byte} (hc : c ∈ statusCodes) (r : Word) :
    (Machine.complete c r s).Calm :=
  { h with control := { h.control with status := hc } }

theorem State.Calm.raise {s : State} (h : s.Calm) {f : Status} (hf : f.code ∈ fatalCodes) (w : Word) (n : Nat)
    (x : Byte) : (Machine.raise f w n x s).Calm :=
  { h with control := { h.control with
      status := fatal_mem_status hf, fault := fun _ => hf, noFault := fun hn => nomatch hn } }

theorem State.Calm.writeFail {s : State} (h : s.Calm) {f : Status} (hf : f.code ∈ writeCodes) (r : Word) :
    (Machine.writeFail f r s).Calm :=
  { h with control := { h.control with
      status := write_mem_status hf, wfail := fun _ => hf, noWfail := fun hn => nomatch hn } }

theorem State.Calm.readFail {s : State} (h : s.Calm) {f : Status} (hf : f.code ∈ readCodes) (r : Word) :
    (Machine.readFail f r s).Calm :=
  { h with control := { h.control with
      status := read_mem_status hf, rfail := fun _ => hf, noRfail := fun hn => nomatch hn } }

theorem State.Calm.refuseFatal {s : State} (h : s.Calm) : (Machine.refuseFatal s).Calm :=
  h.complete (by decide) _

/-! ### The bit writer -/

theorem getLsbD_putBit (acc : Byte) {pos k : Nat} (hp : pos < 8) (x : Bool) :
    (putBit acc pos x).getLsbD k = if k = pos then x else acc.getLsbD k := by
  unfold putBit
  cases x <;> by_cases hk : k = pos <;> by_cases h8 : k < 8 <;>
    simp_all [eq_comm]; omega

theorem nbits_succ {n : BitVec 3} (h : n ≠ 7#3) : (n + 1#3).toNat = n.toNat + 1 := by
  revert n; decide

theorem BitWriter.padded_reset : BitWriter.reset.padded := by
  intro k _; simp [BitWriter.reset]

/-- R37: placing a bit keeps the unwritten positions at 0. -/
theorem BitWriter.padded_put {w : BitWriter} (h : w.padded) (hn : w.nbits ≠ 7#3) (x : Bool) :
    BitWriter.padded { acc := putBit w.acc (7 - w.nbits.toNat) x, nbits := w.nbits + 1#3 } := by
  intro k hk
  have hs := nbits_succ hn
  have : w.nbits.toNat < 8 := w.nbits.isLt
  simp only at hk
  rw [getLsbD_putBit _ (by omega), if_neg (by omega)]
  exact h k (by omega)

/-! ### Sink results -/

/-- What a micro-operation towards the sink keeps. -/
def SinkResult.Keeps : SinkResult → Prop
  | .ok _ t => t.Fit
  | .err t => t.Fit
  | .wait _ t => t.Fit

theorem sinkWrite_keeps {s : State} (h : s.Fit) (b : Byte) : (sinkWrite b s).Keeps := by
  obtain ⟨hc, hf⟩ := h
  obtain ⟨_, hr⟩ | ⟨rest, hs, hr⟩ | ⟨e, rest, hs, hr⟩ := sinkWrite_cases b s <;> rw [hr]
  · exact ⟨hc, hf⟩
  · exact ⟨{ hc with }, hf⟩
  · exact ⟨{ hc with control := { hc.control with } }, hf⟩

theorem writeBitInt_keeps {s : State} (h : s.Fit) (v : Bool) : (writeBitInt v s).Keeps := by
  obtain ⟨hn, hr⟩ | ⟨hn, hr⟩ := writeBitInt_cases v s <;> rw [hr]
  · exact ⟨{ h.1 with writer := BitWriter.padded_put h.1.writer hn v }, h.2⟩
  · exact sinkWrite_keeps (s := { s with bw := BitWriter.reset })
      ⟨{ h.1 with writer := BitWriter.padded_reset }, h.2⟩ _

theorem flushInt_keeps {s : State} (h : s.Fit) : (flushInt s).Keeps := by
  obtain ⟨hn, hr⟩ | ⟨hn, hr⟩ := flushInt_cases s <;> rw [hr]
  · exact h
  · exact sinkWrite_keeps (s := { s with bw := BitWriter.reset })
      ⟨{ h.1 with writer := BitWriter.padded_reset }, h.2⟩ _

/-! ### DIN -/

theorem dinRead_keeps {s t : State} {b : Byte} (h : s.Fit) (hd : dinRead s = some (b, t)) : t.Fit := by
  obtain ⟨rest, _, rfl⟩ := dinRead_some.mp hd
  exact ⟨{ h.1 with }, h.2⟩

/-- The promise of an ending. -/
def Ending.Sound : Ending → Prop
  | .complete code => code ∈ statusCodes
  | .writeFail f _ => f.code ∈ writeCodes

theorem discardDin_keeps {s : State} (h : s.Fit) {e : Ending} (he : e.Sound) (left : Nat) :
    (discardDin e left s).Keeps := by
  induction left generalizing s with
  | zero =>
    cases e with
    | complete code => exact h.1.complete he _
    | writeFail f n => exact h.1.writeFail he _
  | succ left ih =>
    simp only [discardDin]
    cases hd : dinRead s with
    | none => exact ⟨h.1, h.2, by cases e <;> exact he⟩
    | some p => exact ih (dinRead_keeps h hd)

/-! ### Bit writer commands -/

theorem writeBitAfter_keeps {r : SinkResult} (h : r.Keeps) : (writeBitAfter r).Keeps := by
  cases r with
  | ok k t => exact h.1.complete (by decide) _
  | err t => exact h.1.writeFail (by decide) _
  | wait b t => exact ⟨h.1, h.2, trivial⟩

theorem flushAfter_keeps {r : SinkResult} (h : r.Keeps) : (flushAfter r).Keeps := by
  cases r with
  | ok k t => exact h.1.complete (by decide) _
  | err t => exact h.1.writeFail (by decide) _
  | wait b t => exact ⟨h.1, h.2, trivial⟩

theorem writeBitBody_keeps {s : State} (h : s.Fit) (cmd : Word) (c : Byte) : (writeBitBody cmd c s).Keeps := by
  simp only [writeBitBody]
  cases bitOfChar c with
  | none => exact h.1.raise (by decide) _ _ _
  | some v => exact writeBitAfter_keeps (writeBitInt_keeps h v)

theorem writeBitsAfter_keeps {next : State → Run} (hn : ∀ t : State, t.Fit → (next t).Keeps) (i left : Nat)
    {r : SinkResult} (h : r.Keeps) : (writeBitsAfter next i left r).Keeps := by
  cases r with
  | ok k t => exact hn t h
  | err t => exact discardDin_keeps h (by show _ ∈ _; decide) left
  | wait b t => exact ⟨h.1, h.2, trivial⟩

theorem writeBitsLoop_keeps {s : State} (h : s.Fit) (cmd : Word) (left i : Nat) :
    (writeBitsLoop cmd left i s).Keeps := by
  induction left generalizing i s with
  | zero => exact h.1.complete (by decide) _
  | succ left ih =>
    simp only [writeBitsLoop]
    cases hd : dinRead s with
    | none => exact ⟨h.1, h.2, trivial⟩
    | some p =>
      have hp := dinRead_keeps h hd
      simp only
      cases bitOfChar p.1 with
      | none => exact hp.1.raise (by decide) _ _ _
      | some v => exact writeBitsAfter_keeps (fun t ht => ih ht (i + 1)) i left (writeBitInt_keeps hp v)

theorem writeRawAfter_keeps {next : State → Run} (hn : ∀ t : State, t.Fit → (next t).Keeps) (i left : Nat)
    {r : SinkResult} (h : r.Keeps) : (writeRawAfter next i left r).Keeps := by
  cases r with
  | ok k t => exact hn t h
  | err t => exact discardDin_keeps h (by show _ ∈ _; decide) left
  | wait b t => exact ⟨h.1, h.2, trivial⟩

theorem writeRawLoop_keeps {s : State} (h : s.Fit) (left i : Nat) : (writeRawLoop left i s).Keeps := by
  induction left generalizing i s with
  | zero => exact h.1.complete (by decide) _
  | succ left ih =>
    simp only [writeRawLoop]
    cases hd : dinRead s with
    | none => exact ⟨h.1, h.2, trivial⟩
    | some p =>
      exact writeRawAfter_keeps (fun t ht => ih ht (i + 1)) i left (sinkWrite_keeps (dinRead_keeps h hd) _)

theorem writeRawBody_keeps {s : State} (h : s.Fit) (cmd : Word) (n : Nat) : (writeRawBody cmd n s).Keeps := by
  simp only [writeRawBody]
  split
  · exact writeRawLoop_keeps h n 0
  · exact h.1.raise (by decide) _ _ _

/-! ### Source results -/

/-- What a read from the source keeps: a fit state that is not drained any more once a bit or byte was taken. -/
def SrcResult.Keeps {α : Type} (r : SrcResult α) (P : State → Prop) : Prop :=
  match r with
  | .got _ t => t.Fit ∧ P t
  | .exhausted t => t.Fit ∧ P t
  | .err t => t.Fit ∧ P t
  | .wait t => t.Fit ∧ P t

theorem readBitInt_keeps {s : State} (h : s.Fit) :
    (readBitInt s).Keeps (fun t => t.dec = s.dec ∧ t.enc = s.enc ∧ t.encBufBytes = s.encBufBytes) := by
  obtain ⟨hc, hf⟩ := h
  have hd := hc.drained
  obtain ⟨hn, hr⟩ | ⟨hn, he, hr⟩ | ⟨_, _, _, hr⟩ | ⟨hn, he, b, rest, hs, hr⟩ | ⟨hn, he, rest, hs, hr⟩ |
    ⟨hn, he, e, rest, hs, hr⟩ := readBitInt_cases s <;> rw [hr] <;> refine ⟨⟨?_, hf⟩, rfl, rfl, rfl⟩
  · exact { hc with drained := fun h => absurd (hd h).2.1 hn }
  · exact hc
  · exact hc
  · exact { hc with drained := fun h => by simp [(hd h).2.2] at he }
  · exact { hc with drained := fun h => by simp [(hd h).2.2] at he }
  · exact { hc with control := { hc.control with } }

theorem readRawInt_keeps {s : State} (h : s.Fit) {r : SrcResult Byte} (hr : readRawInt s = .ok r) :
    r.Keeps (fun t => t.dec = s.dec ∧ t.enc = s.enc ∧ t.encBufBytes = s.encBufBytes) := by
  obtain ⟨hc, hf⟩ := h
  have hd := hc.drained
  obtain ⟨hn, hq⟩ | ⟨hn, he, hq⟩ | ⟨_, _, _, hq⟩ | ⟨hn, he, b, rest, hs, hq⟩ | ⟨hn, he, rest, hs, hq⟩ |
    ⟨hn, he, e, rest, hs, hq⟩ := readRawInt_cases s <;> rw [hq] at hr <;> cases hr <;>
    refine ⟨⟨?_, hf⟩, rfl, rfl, rfl⟩
  · exact hc
  · exact hc
  · exact { hc with }
  · exact { hc with drained := fun h => by simp [(hd h).2.2] at he }
  · exact { hc with control := { hc.control with } }

theorem doutWrite_keeps {s t : State} {b : Byte} (h : s.Fit) (hd : doutWrite b s = some t) : t.Fit ∧ t.dec = s.dec := by
  obtain ⟨room, _, rfl⟩ := doutWrite_some.mp hd
  exact ⟨⟨{ h.1 with }, h.2⟩, rfl⟩

theorem resetAlignInt_keeps {s : State} (h : s.Fit) : (resetAlignInt s).2.Fit :=
  ⟨{ h.1 with drained := fun hd => ⟨(h.1.drained hd).1, rfl, (h.1.drained hd).2.2⟩ }, h.2⟩

/-! ### Bit reader commands -/

theorem readBitBody_keeps {s : State} (h : s.Fit) : (readBitBody s).Keeps := by
  have hk := readBitInt_keeps h
  simp only [readBitBody]
  cases hr : readBitInt s with
  | got v t => rw [hr] at hk; exact hk.1.1.complete (by decide) _
  | exhausted t => rw [hr] at hk; exact hk.1.1.complete (by decide) _
  | err t => rw [hr] at hk; exact hk.1.1.readFail (by decide) _
  | wait t => rw [hr] at hk; exact ⟨hk.1.1, hk.1.2, trivial⟩

theorem readRawDeliver_keeps {next : State → Run} (hn : ∀ t : State, t.Fit → (next t).Keeps) (b : Byte)
    (i left : Nat) {s : State} (h : s.Fit) : (readRawDeliver next b i left s).Keeps := by
  simp only [readRawDeliver]
  cases hd : doutWrite b s with
  | none => exact ⟨h.1, h.2, trivial⟩
  | some t => exact hn t (doutWrite_keeps h hd).1

theorem readRawLoop_keeps {s : State} (h : s.Fit) (cmd : Word) (left i : Nat) : (readRawLoop cmd left i s).Keeps := by
  induction left generalizing i s with
  | zero => exact h.1.complete (by decide) _
  | succ left ih =>
    rw [readRawLoop]
    match hr : readRawInt s with
    | .error p => exact h.1.raise (by decide) _ _ _
    | .ok (.got b t) =>
      exact readRawDeliver_keeps (fun u hu => ih hu (i + 1)) b i left (readRawInt_keeps h hr).1
    | .ok (.exhausted t) => exact (readRawInt_keeps h hr).1.1.complete (by decide) _
    | .ok (.err t) => exact (readRawInt_keeps h hr).1.1.readFail (by decide) _
    | .ok (.wait t) => exact ⟨(readRawInt_keeps h hr).1.1, (readRawInt_keeps h hr).1.2, trivial⟩

theorem readRawBody_keeps {s : State} (h : s.Fit) (cmd : Word) (n : Nat) : (readRawBody cmd n s).Keeps := by
  simp only [readRawBody]
  split
  · exact readRawLoop_keeps h cmd n 0
  · exact h.1.raise (by decide) _ _ _

theorem resetAlignBody_keeps {s : State} (h : s.Fit) : (resetAlignBody s).Keeps :=
  (resetAlignInt_keeps h).1.complete (by decide) _

/-! ### Encoder commands -/

theorem freqOf_reset (b : Byte) : Encoder.reset.freqOf b = 0#32 := by
  simp [Encoder.freqOf, Encoder.reset]

theorem encOpenBody_keeps {s : State} (h : s.Fit) : (encOpenBody s).Keeps := by
  refine State.Calm.complete ?_ (by decide) _
  exact { h.1 with
    control := { h.1.control with wfail := (fun hn => nomatch hn), noWfail := fun _ => rfl }
    writer := BitWriter.padded_reset
    counts := ⟨fun b => by exact freqOf_reset b, Nat.zero_le _⟩ }

theorem freqOf_push (e : Encoder) (b c : Byte) :
    (e.push b).freqOf c = if c = b then e.freqOf b + 1#32 else e.freqOf c := by
  simp only [Encoder.freqOf, Encoder.push, Vector.getElem_set]
  by_cases h : c = b
  · simp [h]
  · have : b.toNat ≠ c.toNat := fun h' => h (BitVec.eq_of_toNat_eq h').symm
    simp [h, this]

/-- R40: buffering a byte within ENC_BUF_BYTES keeps the frequencies counting the buffer. -/
theorem countsBuffer_push {s : State} (h : s.countsBuffer) (hl : s.enc.buf.length + 1 ≤ s.encBufBytes.toNat)
    (b : Byte) : State.countsBuffer { s with enc := s.enc.push b } := by
  refine ⟨fun c => ?_, by simpa [Encoder.push] using hl⟩
  simp only [freqOf_push, h.1]
  by_cases hc : c = b
  · subst hc
    simp [Encoder.push, List.count_append, BitVec.ofNat_add]
  · have : List.count c [b] = 0 := by simp [Ne.symm hc]
    simp [Encoder.push, List.count_append, hc, this]

theorem encWriteLoop_keeps {s : State} (h : s.Fit) (n left : Nat)
    (hl : s.enc.buf.length + left ≤ s.encBufBytes.toNat) : (encWriteLoop n left s).Keeps := by
  induction left generalizing s with
  | zero => exact h.1.complete (by decide) _
  | succ left ih =>
    simp only [encWriteLoop]
    cases hd : dinRead s with
    | none => exact ⟨h.1, h.2, hl⟩
    | some p =>
      have hp := dinRead_keeps h hd
      obtain ⟨rest, _, hpe⟩ := dinRead_some.mp hd
      have he : p.2.enc = s.enc := by rw [hpe]
      have hb : p.2.encBufBytes = s.encBufBytes := by rw [hpe]
      refine ih (s := { p.2 with enc := p.2.enc.push p.1 }) ⟨{ hp.1 with counts := ?_ }, hp.2⟩ ?_
      · exact countsBuffer_push hp.1.counts (by rw [he, hb]; omega) _
      · simp only [Encoder.push, List.length_append, List.length_singleton, he, hb]; omega

theorem encWriteBody_keeps {s : State} (h : s.Fit) (n : Nat) : (encWriteBody n s).Keeps := by
  simp only [encWriteBody]
  split
  · exact discardDin_keeps h (by show _ ∈ _; decide) n
  · exact encWriteLoop_keeps h n n (by omega)

theorem countResult_keeps {s : State} (h : s.Fit) (out : Nat) : (countResult out s).2.Fit := by
  simp only [countResult]
  split
  · exact h
  · exact ⟨{ h.1 with }, h.2⟩

theorem emitAfter_keeps {next : Nat → State → Run} (hn : ∀ (k : Nat) (t : State), t.Fit → (next k t).Keeps)
    (out : Nat) (todo : List Emit) {r : SinkResult} (h : r.Keeps) : (emitAfter next out todo r).Keeps := by
  cases r with
  | ok k t => exact hn _ t h
  | err t => exact (countResult_keeps h out).1.writeFail (by decide) _
  | wait b t => exact ⟨h.1, h.2, trivial⟩

theorem emitLoop_keeps {s : State} (h : s.Fit) (cmd : Word) (todo : List Emit) (out : Nat) :
    (emitLoop cmd todo out s).Keeps := by
  induction todo generalizing out s with
  | nil =>
    refine State.Calm.complete ?_ (by decide) _
    exact { (countResult_keeps h out).1 with }
  | cons op todo ih =>
    have hn := fun k t ht => ih (s := t) ht k
    cases op with
    | raw b =>
      simp only [emitLoop]
      by_cases ha : s.bw.nbits = 0#3
      · rw [writeRawInt_aligned ha]; exact emitAfter_keeps hn out todo (sinkWrite_keeps h b)
      · rw [writeRawInt_misaligned ha]; exact h.1.raise (by decide) _ _ _
    | bit v => exact emitAfter_keeps hn out todo (writeBitInt_keeps h v)
    | flush => exact emitAfter_keeps hn out todo (flushInt_keeps h)

theorem encFinalizeBody_keeps {s : State} (h : s.Fit) (cmd : Word) : (encFinalizeBody cmd s).Keeps :=
  emitLoop_keeps (s := { s with enc := s.enc.derive }) ⟨{ h.1 with }, h.2⟩ cmd _ 0

/-! ### Decoder commands -/

/-- A session whose header is being parsed. -/
def State.Parsing (s : State) : Prop := s.dec.state = .unopened ∧ s.dec.emitted = 0#32

theorem State.Parsing.of_dec {s t : State} (h : s.Parsing) (hd : t.dec = s.dec) : t.Parsing := by
  simpa only [State.Parsing, hd] using h

theorem headerByte_keeps {s : State} (h : s.Fit) (hp : s.Parsing) (cmd : Word) {w : Wait}
    (hw : ∀ t : State, t.Parsing → w.Sound t) {next : Byte → State → Run}
    (hn : ∀ (b : Byte) (t : State), t.Fit → t.Parsing → (next b t).Keeps) : (headerByte cmd w next s).Keeps := by
  rw [headerByte]
  match hr : readRawInt s with
  | .error p => exact h.1.raise (by decide) _ _ _
  | .ok (.got b t) => exact hn b t (readRawInt_keeps h hr).1 (hp.of_dec (readRawInt_keeps h hr).2.1)
  | .ok (.exhausted t) => exact (readRawInt_keeps h hr).1.1.readFail (by decide) _
  | .ok (.err t) => exact (readRawInt_keeps h hr).1.1.readFail (by decide) _
  | .ok (.wait t) =>
    exact ⟨(readRawInt_keeps h hr).1.1, (readRawInt_keeps h hr).1.2, hw t (hp.of_dec (readRawInt_keeps h hr).2.1)⟩

theorem headerWord_keeps {s : State} (h : s.Fit) (hp : s.Parsing) (cmd : Word) {w : List Byte → Wait}
    (hw : ∀ (got : List Byte) (t : State), got.length < 4 → t.Parsing → (w got).Sound t) {next : Word → State → Run}
    (hn : ∀ (v : Word) (t : State), t.Fit → t.Parsing → (next v t).Keeps) (need : Nat) (got : List Byte)
    (hl : need + got.length = 4) : (headerWord cmd w next need got s).Keeps := by
  induction need generalizing got s with
  | zero => exact hn _ s h hp
  | succ need ih =>
    exact headerByte_keeps h hp cmd (fun t ht => hw got t (by omega) ht)
      (fun b t ht htp => ih ht htp (got ++ [b]) (by simp; omega))

/-- R159: an insertion keeps the table within its capacity, its codes distinct and short. -/
theorem dtabInsert_keeps {d : Decoder} (h : d.Sound) {c : Bits} (hc : c.length ≤ Config.maxCodeLen) {sym : Byte}
    {table : List DtabEntry} (ht : dtabInsert c sym d.dtab = some table) :
    Decoder.Sound { d with dtab := table } := by
  unfold dtabInsert at ht
  split at ht
  · cases ht
    have hcodes : (d.dtab.map (fun e => if e.code == c then { e with sym := sym } else e)).map DtabEntry.code =
        d.dtab.map DtabEntry.code := by
      rw [List.map_map]
      refine List.map_congr_left fun e _ => ?_
      simp only [Function.comp_apply]
      split <;> rfl
    refine { h with size := by simpa using h.size, distinct := by simpa only [hcodes] using h.distinct, short := ?_ }
    intro e he
    have : e.code ∈ d.dtab.map DtabEntry.code := by
      rw [← hcodes]; exact List.mem_map_of_mem he
    obtain ⟨e', he', hee⟩ := List.mem_map.mp this
    exact hee ▸ h.short e' he'
  · rename_i hany
    split at ht
    · cases ht
    · cases ht
      rename_i hlen
      refine { h with size := ?_, distinct := ?_, short := ?_ }
      · simp only [List.length_append, List.length_singleton]; omega
      · simp only [List.map_append, List.map_cons, List.map_nil]
        rw [List.nodup_append]
        refine ⟨h.distinct, by simp, ?_⟩
        rintro a ha b hb rfl
        obtain rfl : a = c := by simpa using hb
        obtain ⟨e, he, hec⟩ := List.mem_map.mp ha
        exact hany (List.any_eq_true.mpr ⟨e, he, by simp [hec]⟩)
      · intro e he
        rcases List.mem_append.mp he with he | he
        · exact h.short e he
        · obtain rfl : e = { code := c, sym := sym } := by simpa using he
          exact hc

theorem descInsert_keeps {s : State} (h : s.Fit) (hp : s.Parsing) {next : State → Run}
    (hn : ∀ t : State, t.Fit → t.Parsing → (next t).Keeps) (sym : Byte) {code : Bits}
    (hc : code.length ≤ Config.maxCodeLen) : (descInsert next sym code s).Keeps := by
  have hr := resetAlignInt_keeps h
  simp only [descInsert]
  cases ht : dtabInsert code sym (resetAlignInt s).2.dec.dtab with
  | none => exact hr.1.readFail (by decide) _
  | some table =>
    refine hn { (resetAlignInt s).2 with dec := { (resetAlignInt s).2.dec with dtab := table } }
      ⟨{ hr.1 with decoder := dtabInsert_keeps hr.1.decoder hc ht }, hr.2⟩ hp

theorem descBits_keeps {s : State} (h : s.Fit) (hp : s.Parsing) {next : State → Run}
    (hn : ∀ t : State, t.Fit → t.Parsing → (next t).Keeps) (left : Nat) (sym : Byte) (more : Nat) (code : Bits)
    (hc : code.length + more ≤ Config.maxCodeLen) : (descBits next left sym more code s).Keeps := by
  induction more generalizing code s with
  | zero => exact descInsert_keeps h hp hn sym (by omega)
  | succ more ih =>
    have hk := readBitInt_keeps h
    simp only [descBits]
    cases hr : readBitInt s with
    | got v t =>
      rw [hr] at hk
      exact ih hk.1 (hp.of_dec hk.2.1) (code ++ [v]) (by simp; omega)
    | exhausted t => rw [hr] at hk; exact hk.1.1.readFail (by decide) _
    | err t => rw [hr] at hk; exact hk.1.1.readFail (by decide) _
    | wait t =>
      rw [hr] at hk
      exact ⟨hk.1.1, hk.1.2, hc, (hp.of_dec hk.2.1).1, (hp.of_dec hk.2.1).2⟩

theorem descLength_keeps {s : State} (h : s.Fit) (hp : s.Parsing) (cmd : Word) {next : State → Run}
    (hn : ∀ t : State, t.Fit → t.Parsing → (next t).Keeps) (left : Nat) (sym : Byte) :
    (descLength cmd next left sym s).Keeps :=
  headerByte_keeps (w := .descLength left sym) h hp cmd (fun _ ht => ht)
    (fun len t ht htp => descBits_keeps ht htp hn left sym len.toNat []
      (by have := len.isLt; simp only [List.length_nil, Config.maxCodeLen]; omega))

theorem descLoop_keeps {s : State} (h : s.Fit) (hp : s.Parsing) (cmd : Word) (left : Nat) :
    (descLoop cmd left s).Keeps := by
  induction left generalizing s with
  | zero =>
    refine State.Calm.complete ?_ (by decide) _
    exact { h.1 with
      decoder := { h.1.decoder with }
      drained := fun hd => nomatch hd }
  | succ left ih =>
    exact headerByte_keeps (w := .descSymbol (left + 1)) h hp cmd (fun _ ht => ht)
      (fun sym t ht htp => descLength_keeps ht htp cmd (fun u hu hup => ih hu hup) left sym)

theorem alphaKnown_keeps {s : State} (h : s.Fit) (hp : s.Parsing) (cmd v : Word) : (alphaKnown cmd v s).Keeps :=
  descLoop_keeps (s := { s with dec := { s.dec with alpha := v } })
    ⟨{ h.1 with decoder := { h.1.decoder with } }, h.2⟩ hp cmd _

theorem countKnown_keeps {s : State} (h : s.Fit) (hp : s.Parsing) (cmd v : Word) : (countKnown cmd v s).Keeps := by
  refine headerWord_keeps (w := .headerAlpha) (s := { s with dec := { s.dec with declared := v } })
    ⟨{ h.1 with
        decoder := { h.1.decoder with emitted := by simp [hp.2] }
        drained := fun hd => by simp [hp.1] at hd }, h.2⟩
    hp cmd (fun _ _ hg ht => ⟨hg, ht⟩) (fun v _ ht htp => alphaKnown_keeps ht htp cmd v) 4 [] rfl

theorem freshSession_keeps {s : State} (h : s.Fit) : (freshSession s).Fit ∧ (freshSession s).Parsing := by
  refine ⟨⟨?_, h.2⟩, rfl, rfl⟩
  exact { h.1 with
    control := { h.1.control with rfail := (fun hn => nomatch hn), noRfail := fun _ => rfl }
    decoder := {
      size := Nat.zero_le _, distinct := List.nodup_nil, short := fun e he => nomatch he
      cand := h.1.decoder.cand, emitted := Nat.le_refl _ }
    drained := fun hd => nomatch hd }

theorem decOpenBody_keeps {s : State} (h : s.Fit) (cmd : Word) : (decOpenBody cmd s).Keeps :=
  headerWord_keeps (w := .headerCount) (freshSession_keeps h).1 (freshSession_keeps h).2 cmd (fun _ _ hg ht => ⟨hg, ht⟩)
    (fun v _ ht htp => countKnown_keeps ht htp cmd v) 4 [] rfl

/-- A session with symbols still to emit. -/
def State.Emitting (s : State) : Prop := s.dec.state = .ready ∧ s.dec.emitted ≠ s.dec.declared

theorem candAppend_keeps {c : Candidate} (h : ∀ b, c = .bits b → b.length ≤ Config.maxCodeLen) (v : Bool) :
    ∀ b, candAppend c v = .bits b → b.length ≤ Config.maxCodeLen := by
  intro b hb
  cases c with
  | saturated => simp [candAppend] at hb
  | bits c =>
    simp only [candAppend] at hb
    split at hb
    · cases hb; simp only [List.length_append, List.length_singleton]; omega
    · cases hb

theorem matchSymbol_keeps {s : State} (h : s.Fit) (hp : s.Emitting) : (matchSymbol s).Keeps State.Emitting := by
  induction hk : unreadCount s using Nat.strongRecOn generalizing s with
  | _ k ih =>
    have hb := readBitInt_keeps h
    rw [matchSymbol_eq]
    cases hl : dtabLookup s.dec.cand s.dec.dtab with
    | some sym => exact ⟨h, hp⟩
    | none =>
      cases hr : readBitInt s with
      | got v t =>
        have hlt := readBitInt_got_lt hr
        rw [hr] at hb
        refine ih (unreadCount t) (by omega) (s := { t with dec := { t.dec with cand := candAppend t.dec.cand v } })
          ⟨{ hb.1.1 with decoder := { hb.1.1.decoder with cand := ?_ } }, hb.1.2⟩ ?_ rfl
        · exact candAppend_keeps hb.1.1.decoder.cand v
        · simpa only [State.Emitting, hb.2.1] using hp
      | exhausted t => rw [hr] at hb; exact ⟨hb.1, by simpa only [State.Emitting, hb.2.1] using hp⟩
      | err t => rw [hr] at hb; exact ⟨hb.1, by simpa only [State.Emitting, hb.2.1] using hp⟩
      | wait t => rw [hr] at hb; exact ⟨hb.1, by simpa only [State.Emitting, hb.2.1] using hp⟩

theorem drainAll_keeps {s : State} (h : s.Fit) :
    (drainAll s).Keeps (fun t => t.dec = s.dec) ∧
    (∀ t, drainAll s = .exhausted t → t.br.nbits = 0#3 ∧ t.br.ended = true) := by
  induction hk : unreadCount s using Nat.strongRecOn generalizing s with
  | _ k ih =>
    have hb := readBitInt_keeps h
    rw [drainAll_eq]
    cases hr : readBitInt s with
    | got v t =>
      have hlt := readBitInt_got_lt hr
      rw [hr] at hb
      obtain ⟨h1, h2⟩ := ih (unreadCount t) (by omega) hb.1 rfl
      refine ⟨?_, h2⟩
      simpa only [hb.2.1] using h1
    | exhausted t =>
      rw [hr] at hb
      refine ⟨⟨hb.1, hb.2.1⟩, ?_⟩
      rintro u ⟨⟩
      obtain ⟨_, hq⟩ | ⟨hn, he, hq⟩ | ⟨_, _, _, hq⟩ | ⟨_, _, _, _, _, hq⟩ | ⟨hn, _, _, _, hq⟩ | ⟨_, _, _, _, _, hq⟩ :=
        readBitInt_cases s <;> rw [hq] at hr <;> cases hr
      · exact ⟨hn, he⟩
      · exact ⟨hn, rfl⟩
    | err t => rw [hr] at hb; exact ⟨⟨hb.1, hb.2.1⟩, fun u hu => nomatch hu⟩
    | wait t => rw [hr] at hb; exact ⟨⟨hb.1, hb.2.1⟩, fun u hu => nomatch hu⟩

theorem drainBody_keeps {s : State} (h : s.Fit) (hs : s.dec.state ≠ .unopened) (he : s.dec.emitted = s.dec.declared)
    (k : Nat) : (drainBody k s).Keeps := by
  obtain ⟨hk, hx⟩ := drainAll_keeps h
  simp only [drainAll] at hk hx
  simp only [drainBody]
  cases hr : drainLoop (readFuel s) s with
  | got v t => exact v.elim
  | exhausted t =>
    rw [hr] at hk
    refine State.Calm.complete ?_ (by decide) _
    exact { hk.1.1 with
      decoder := { hk.1.1.decoder with }
      drained := fun _ => ⟨by simpa only [hk.2] using he, hx t hr⟩ }
  | err t => rw [hr] at hk; exact hk.1.1.readFail (by decide) _
  | wait t => rw [hr] at hk; exact ⟨hk.1.1, hk.1.2, by simpa only [hk.2] using hs, by simpa only [hk.2] using he⟩

theorem emitSymbol_keeps {next : State → Run}
    (hn : ∀ t : State, t.Fit → t.dec.state ≠ .unopened → (next t).Keeps) (sym : Byte) (k left : Nat) {s : State}
    (h : s.Fit) (hp : s.Emitting) : (emitSymbol next sym k left s).Keeps := by
  simp only [emitSymbol]
  cases hd : doutWrite sym s with
  | none => exact ⟨h.1, h.2, hp⟩
  | some t =>
    obtain ⟨ht, hdec⟩ := doutWrite_keeps h hd
    have hle := ht.1.decoder.emitted
    have hne : t.dec.emitted.toNat ≠ t.dec.declared.toNat := by
      rw [hdec]; exact fun hh => hp.2 (BitVec.eq_of_toNat_eq hh)
    have hlt := t.dec.declared.isLt
    refine hn { t with dec := { t.dec with emitted := t.dec.emitted + 1#32 } }
      ⟨{ ht.1 with
          decoder := { ht.1.decoder with emitted := ?_ }
          drained := fun hh => ?_ }, ht.2⟩ ?_
    · simp only [BitVec.toNat_add, BitVec.toNat_ofNat]; omega
    · simp only [hdec, hp.1] at hh; cases hh
    · simp [hdec, hp.1]

theorem matchAfter_keeps {next : State → Run}
    (hn : ∀ t : State, t.Fit → t.dec.state ≠ .unopened → (next t).Keeps) (k left : Nat) {r : SrcResult Byte}
    (h : r.Keeps State.Emitting) : (matchAfter next k left r).Keeps := by
  cases r with
  | got sym t => exact emitSymbol_keeps hn sym k left h.1 h.2
  | exhausted t => exact h.1.1.readFail (by decide) _
  | err t => exact h.1.1.readFail (by decide) _
  | wait t => exact ⟨h.1.1, h.1.2, h.2⟩

theorem decReadLoop_keeps {s : State} (h : s.Fit) (hs : s.dec.state ≠ .unopened) (left k : Nat) :
    (decReadLoop left k s).Keeps := by
  induction left generalizing k s with
  | zero => exact h.1.complete (by decide) _
  | succ left ih =>
    rw [decReadLoop]
    by_cases he : s.dec.emitted = s.dec.declared
    · rw [if_pos he]; exact drainBody_keeps h hs he k
    · rw [if_neg he]
      have hready : s.dec.state = .ready := by
        cases hd : s.dec.state with
        | unopened => exact absurd hd hs
        | ready => rfl
        | drained => exact absurd (h.1.drained hd).1 he
      refine matchAfter_keeps (fun t ht hts => ih ht hts (k + 1)) k left (matchSymbol_keeps ?_ ⟨hready, he⟩)
      exact ⟨{ h.1 with
        decoder := { h.1.decoder with cand := fun c hc => by cases hc; exact Nat.zero_le _ } }, h.2⟩

end Sys2Proof.Machine
end

