-- ==== Sys2Proof/Laws/Bits.lean ====
section
/-! SUPPORT. Packing digits into bytes and taking them out again (`20_memory.md` R61). -/

namespace Sys2Proof.Machine

@[simp] theorem length_byteBits (b : Byte) : (byteBits b).length = 8 := by simp [byteBits]

@[simp] theorem packBits_nil : packBits [] = [] := rfl

@[simp] theorem length_packBits (c : Bits) : (packBits c).length = (c.length + 7) / 8 := by simp [packBits]

theorem packByte_byteBits (b : Byte) : packByte (byteBits b) = b := by
  revert b; decide

/-- Eight digits come back out of their byte, first digit first. -/
theorem byteBits_packByte_eight (a b c d e f g h : Bool) :
    byteBits (packByte [a, b, c, d, e, f, g, h]) = [a, b, c, d, e, f, g, h] := by
  revert a b c d e f g h; decide

/-- A byte is made of the first eight digits, those missing counted as zeros. -/
theorem packByte_congr {c d : Bits} (h : ∀ k < 8, c.getD k false = d.getD k false) : packByte c = packByte d := by
  simp only [packByte]
  congr 1
  exact List.foldl_ext _ _ _ fun v k hk => by rw [h k (List.mem_range.mp hk)]

/-- A byte of fewer digits is the byte of those digits with zeros on the right. -/
theorem packByte_pad (c : Bits) (n : Nat) : packByte (c ++ List.replicate n false) = packByte c := by
  refine packByte_congr fun k _ => ?_
  simp only [List.getD_eq_getElem?_getD, List.getElem?_append, List.getElem?_replicate]
  split
  · rfl
  · rename_i h
    rw [List.getElem?_eq_none (Nat.le_of_not_lt h)]
    split <;> rfl

/-- Up to eight digits come back out of their byte, followed by the padding. -/
theorem byteBits_packByte {c : Bits} (h : c.length ≤ 8) :
    byteBits (packByte c) = c ++ List.replicate (8 - c.length) false := by
  rw [← packByte_pad c (8 - c.length)]
  obtain ⟨x, hx⟩ : ∃ x, x = c ++ List.replicate (8 - c.length) false := ⟨_, rfl⟩
  have hl : x.length = 8 := by simp [hx]; omega
  rw [← hx]
  match x, hl with
  | [a, b, c, d, e, f, g, h], _ => exact byteBits_packByte_eight a b c d e f g h

/-- R37: a padded writer is the writer holding its pending digits. -/
theorem holding_pending {w : BitWriter} (h : w.padded) : BitWriter.holding w.pending = w := by
  have hn := w.nbits.isLt
  have hb : w.pending ++ List.replicate (8 - w.nbits.toNat) false = byteBits w.acc := by
    refine List.ext_getElem (by simp [BitWriter.pending]; omega) fun k hk hk' => ?_
    simp only [length_byteBits] at hk'
    simp only [List.getElem_append, BitWriter.pending, List.length_take, length_byteBits]
    split
    · simp
    · rename_i hge
      simp only [List.getElem_replicate, byteBits, List.getElem_map, List.getElem_range]
      exact (h (7 - k) (by omega)).symm
  have ha : packByte w.pending = w.acc := by rw [← packByte_pad, hb, packByte_byteBits]
  have hl : w.pending.length = w.nbits.toNat := by simp [BitWriter.pending]; omega
  simp [BitWriter.holding, ha, hl]

theorem length_pending (w : BitWriter) : w.pending.length = w.nbits.toNat := by
  have := w.nbits.isLt
  simp [BitWriter.pending]; omega

theorem length_unread (r : BitReader) : r.unread.length = r.nbits.toNat := by
  have := r.nbits.isLt
  simp [BitReader.unread]; omega

/-- Whole bytes of digits are packed on their own. -/
theorem packBits_append {c d : Bits} {k : Nat} (h : c.length = 8 * k) :
    packBits (c ++ d) = packBits c ++ packBits d := by
  have e : (c ++ d).length + 7 = 8 * k + (d.length + 7) := by simp [h]; omega
  have hc : (c.length + 7) / 8 = k := by omega
  simp only [packBits, e, hc, Nat.mul_add_div (by decide : 8 > 0), List.range_add, List.map_append, List.map_map]
  congr 1
  · refine List.map_congr_left fun j hj => packByte_congr fun i hi => ?_
    have hj : j < k := List.mem_range.mp hj
    simp only [List.getD_eq_getElem?_getD, List.getElem?_drop]
    rw [List.getElem?_append_left (by omega)]
  · refine List.map_congr_left fun j _ => ?_
    simp only [Function.comp_apply]
    rw [show 8 * (k + j) = c.length + 8 * j by omega, List.drop_append, List.drop_eq_nil_of_le (by omega)]
    simp

/-- Packing the digits of bytes gives the bytes back. -/
theorem packBits_flatMap_byteBits (bs : List Byte) : packBits (bs.flatMap byteBits) = bs := by
  induction bs with
  | nil => rfl
  | cons b bs ih =>
    rw [List.flatMap_cons, packBits_append (k := 1) (length_byteBits b), ih]
    rw [show packBits (byteBits b) = [packByte (byteBits b)] by simp [packBits], packByte_byteBits]
    rfl

end Sys2Proof.Machine
end

