-- ==== Sys2Proof/Laws/Decode.lean ====
section
/-! SUPPORT. The fields of a word made by `wordOf` (`30_encoding.md` R80). -/

namespace Sys2Proof

section
variable {unit op arg : Nat} (hu : unit < 16) (ho : op < 16) (ha : arg < 16777216)
include hu ho ha

theorem wordOf_toNat : (wordOf unit op arg).toNat = unit * 268435456 + op * 16777216 + arg := by
  rw [wordOf, BitVec.toNat_ofNat]; omega

theorem unitField_wordOf : unitField (wordOf unit op arg) = unit := by
  have := wordOf_toNat hu ho ha
  rw [unitField, BitVec.extractLsb'_toNat, this, Nat.shiftRight_eq_div_pow]
  norm_num
  omega

theorem opField_wordOf : opField (wordOf unit op arg) = op := by
  have := wordOf_toNat hu ho ha
  rw [opField, BitVec.extractLsb'_toNat, this, Nat.shiftRight_eq_div_pow]
  norm_num
  omega

theorem argField_wordOf : argField (wordOf unit op arg) = arg := by
  have := wordOf_toNat hu ho ha
  rw [argField, BitVec.extractLsb'_toNat, this, Nat.shiftRight_eq_div_pow]
  norm_num
  omega

/-- Masking off ARG leaves UNIT and OP. -/
theorem wordOf_mask : wordOf unit op arg &&& 0xFF000000#32 = wordOf unit op 0 := by
  have h1 := wordOf_toNat hu ho ha
  have h0 := wordOf_toNat hu ho (arg := 0) (by omega)
  generalize wordOf unit op arg = w at *
  have hm : ∀ k < 32, (0xFF000000#32).getLsbD k = decide (24 ≤ k) := by decide
  have hs : w &&& 0xFF000000#32 = (w >>> 24) <<< 24 := by
    refine BitVec.eq_of_getLsbD_eq fun k hk => ?_
    rw [BitVec.getLsbD_and, hm k hk]
    by_cases h : 24 ≤ k
    · simp [h, hk, show ¬ k < 24 by omega, show 24 + (k - 24) = k by omega]
    · simp [h, show k < 24 by omega]
  refine BitVec.eq_of_toNat_eq ?_
  rw [hs, h0, BitVec.toNat_shiftLeft, BitVec.toNat_ushiftRight, h1, Nat.shiftRight_eq_div_pow, Nat.shiftLeft_eq]
  norm_num
  omega

end

end Sys2Proof
end

