-- ==== Sys2Proof/Laws/PerInstr.lean ====
section
/-! SUPPORT. One statement for every instruction: its encoding meets the mask and match of its row of the opcode map
(`30_encoding.md` R84, R85). -/

namespace Sys2Proof.Laws.RowMatch

open Sys2Proof.Machine

/-- R85: a well-formed instruction's word is selected by its row, which the map lists. -/
def Statement (i : Instr) : Prop :=
  i.wellFormed = true → rowOf i ∈ opcodeRows ∧ (rowOf i).selects (encode i)

/-- A word of format L keeps its UNIT and OP bits whatever its length operand. -/
theorem selects_length {unit op n : Nat} (hu : unit < 16) (ho : op < 16) (hn : lengthFits n = true) :
    (Row.ofL (wordOf unit op 0)).selects (wordOf unit op n) :=
  wordOf_mask hu ho (by simpa [lengthFits] using hn)

theorem sysNop : Statement .sysNop := fun _ => ⟨by decide, by decide⟩

/-- Every byte C keeps format B's fixed bits. -/
theorem bwWriteBit (c : Byte) : Statement (.bwWriteBit c) := fun _ => by
  show rowOf (.bwWriteBit c) ∈ opcodeRows ∧ (rowOf (.bwWriteBit c)).selects (encode (.bwWriteBit c))
  revert c; decide

theorem bwWriteBits (n : Nat) : Statement (.bwWriteBits n) := fun h =>
  ⟨by show Row.ofL _ ∈ _; decide, selects_length (by decide) (by decide) h⟩

theorem bwWriteRaw (n : Nat) : Statement (.bwWriteRaw n) := fun h =>
  ⟨by show Row.ofL _ ∈ _; decide, selects_length (by decide) (by decide) h⟩

theorem bwFlush : Statement .bwFlush := fun _ => ⟨by decide, by decide⟩

theorem bwClose : Statement .bwClose := fun _ => ⟨by decide, by decide⟩

theorem brReadBit : Statement .brReadBit := fun _ => ⟨by decide, by decide⟩

theorem brReadRaw (n : Nat) : Statement (.brReadRaw n) := fun h =>
  ⟨by show Row.ofL _ ∈ _; decide, selects_length (by decide) (by decide) h⟩

theorem brResetAlign : Statement .brResetAlign := fun _ => ⟨by decide, by decide⟩

theorem encOpen : Statement .encOpen := fun _ => ⟨by decide, by decide⟩

theorem encWrite (n : Nat) : Statement (.encWrite n) := fun h =>
  ⟨by show Row.ofL _ ∈ _; decide, selects_length (by decide) (by decide) h⟩

theorem encFinalize : Statement .encFinalize := fun _ => ⟨by decide, by decide⟩

theorem decOpen : Statement .decOpen := fun _ => ⟨by decide, by decide⟩

theorem decRead (n : Nat) : Statement (.decRead n) := fun h =>
  ⟨by show Row.ofL _ ∈ _; decide, selects_length (by decide) (by decide) h⟩

end Sys2Proof.Laws.RowMatch
end

