-- ==== Sys2Proof/Laws/Table.lean ====
section
/-! SUPPORT. The decode table of a header with distinct codes, and the code of an encoder's descriptor
(`43_code_table.md` R159, R161, `45_decoder.md` R193). -/

namespace Sys2Proof.Machine

/-- An entry for a descriptor. -/
def Descriptor.entry (d : Descriptor) : DtabEntry := { code := d.code, sym := d.sym }

/-- A code that is not in a table with room is appended. -/
theorem dtabInsert_new {c : Bits} {sym : Byte} {table : List DtabEntry} (hc : c ∉ table.map DtabEntry.code)
    (hl : table.length < Config.decTableCap) : dtabInsert c sym table = some (table ++ [{ code := c, sym := sym }]) := by
  have h : table.any (fun e => e.code == c) = false := by
    simp only [List.any_eq_false, beq_iff_eq]
    exact fun e he hce => hc (hce ▸ List.mem_map_of_mem he)
  simp [dtabInsert, h, Nat.not_le.mpr hl]

/-- A full table has no place for a new code. -/
theorem dtabInsert_full {c : Bits} {sym : Byte} {table : List DtabEntry} (hc : c ∉ table.map DtabEntry.code)
    (hl : Config.decTableCap ≤ table.length) : dtabInsert c sym table = none := by
  have h : table.any (fun e => e.code == c) = false := by
    simp only [List.any_eq_false, beq_iff_eq]
    exact fun e he hce => hc (hce ▸ List.mem_map_of_mem he)
  simp [dtabInsert, h, hl]

theorem foldlM_dtabInsert (descs : List Descriptor) (table : List DtabEntry)
    (hn : (table.map DtabEntry.code ++ descs.map Descriptor.code).Nodup)
    (hl : table.length + descs.length ≤ Config.decTableCap) :
    descs.foldlM (fun table d => dtabInsert d.code d.sym table) table = some (table ++ descs.map Descriptor.entry) := by
  induction descs generalizing table with
  | nil => simp
  | cons d descs ih =>
    simp only [List.length_cons] at hl
    have hd : d.code ∉ table.map DtabEntry.code := by
      intro hm
      rw [List.nodup_append] at hn
      exact hn.2.2 _ hm _ (List.mem_map_of_mem List.mem_cons_self) rfl
    rw [List.foldlM_cons, dtabInsert_new hd (by omega)]
    show List.foldlM _ _ descs = _
    rw [ih]
    · simp [Descriptor.entry]
    · simpa [List.append_assoc] using hn
    · simp only [List.length_append, List.length_singleton]; omega

/-- Descriptors with distinct codes, 256 at most, each get an entry, in order. -/
theorem tableOf_distinct {descs : List Descriptor} (hn : (descs.map Descriptor.code).Nodup)
    (hl : descs.length ≤ Config.decTableCap) : tableOf descs = some (descs.map Descriptor.entry) := by
  simpa [tableOf] using foldlM_dtabInsert descs [] (by simpa using hn) (by simpa using hl)

/-- Unpacking packed digits gives them back, with the padding after them. -/
theorem flatMap_byteBits_packBits (c : Bits) :
    ((packBits c).flatMap byteBits).take c.length = c := by
  induction h : c.length using Nat.strongRecOn generalizing c with
  | _ n ih =>
    subst h
    by_cases hs : c.length ≤ 8
    · rcases Nat.eq_zero_or_pos c.length with h0 | h0
      · simp [List.eq_nil_of_length_eq_zero h0]
      · have : (c.length + 7) / 8 = 1 := by omega
        simp [packBits, this, byteBits_packByte hs]
    · have ht : (c.take 8).length = 8 * 1 := by simp; omega
      conv_lhs => rw [← List.take_append_drop 8 c, packBits_append ht, List.flatMap_append]
      have h1 : (packBits (c.take 8)).flatMap byteBits = c.take 8 := by
        have e : (c.take 8).length = 8 := by omega
        simp [packBits, e, byteBits_packByte (Nat.le_of_eq e)]
      have hd : (c.drop 8).length < c.length := by simp; omega
      have ih' := ih _ hd (c.drop 8) rfl
      rw [h1, List.take_append]
      have e8 : (c.take 8).length = 8 := by omega
      simp only [List.take_append_drop, e8]
      rw [List.take_of_length_le (by omega), show c.length - 8 = (c.drop 8).length by simp, ih', List.take_append_drop]

/-- R161: a descriptor the encoder writes holds exactly its code. -/
theorem code_descriptorOf (sym : Byte) {code : Bits} (h : code.length ≤ 255) :
    (descriptorOf sym code).code = code := by
  have : (BitVec.ofNat 8 code.length).toNat = code.length := by simp; omega
  simp only [Descriptor.code, descriptorOf, this, flatMap_byteBits_packBits]

/-- R174: it takes ⌈L/8⌉ code bytes. -/
theorem fits_descriptorOf (sym : Byte) {code : Bits} (h : code.length ≤ 255) : (descriptorOf sym code).fits := by
  have : (BitVec.ofNat 8 code.length).toNat = code.length := by simp; omega
  simp only [Descriptor.fits, descriptorOf, this, length_packBits]

end Sys2Proof.Machine
end

