-- ==== Sys2Proof/Tests/Slice0.lean ====
section
/-! SUPPORT. Tests on fixed values taken from the spec, and a witness for the hypotheses of every statement. -/

namespace Sys2Proof.Tests

open Sys2Proof.Machine

/-! ### Small states -/

/-- The machine after reset, ENC_BUF_BYTES = 4, FATAL's neighbours as given. -/
def idle : State := { State.reset with encBufBytes := 4#32 }

/-- The state an outcome leaves, `idle` if there is none. -/
def after (o : Host.Outcome State Fault Refusal) : State :=
  match o with
  | .next t => t
  | .fault _ => idle
  | .refused _ => idle

def answered (o : Host.Outcome State Fault Refusal) : Bool :=
  match o with
  | .next _ => true
  | .fault _ => false
  | .refused _ => false

/-- The ASCII bytes of a text (R83). -/
def text (t : String) : List Byte := t.toList.map (fun c => BitVec.ofNat 8 c.toNat)

/-- A sink that ACKs `n` bytes. -/
def acks (n : Nat) : List SinkAnswer := List.replicate n .ack

/-- A source of the given bytes, then END. -/
def source (bs : List Byte) : List SrcAnswer := bs.map .data ++ [.exhausted]

/-- `idle` with a write side: pending digits, bytes on DIN, answers of the sink. -/
def writer (pending : Bits) (din : List Byte) (ans : List SinkAnswer) : State :=
  sinkAnswer ans (hostOffer din { idle with bw := BitWriter.holding pending })

/-- `idle` with a read side: the reader, answers of the source, places on DOUT. -/
def reader (br : BitReader) (src : List SrcAnswer) (room : Nat) : State :=
  hostAccept room (sourceAnswer src { idle with br := br })

/-- `idle` with bytes buffered, and a sink that ACKs `n` bytes. -/
def session (buf : List Byte) (n : Nat) : State :=
  sinkAnswer (acks n) { idle with encBufBytes := 16#32, enc := buf.foldl Encoder.push Encoder.reset }

/-- Buffering within ENC_BUF_BYTES keeps the frequencies counting the buffer. -/
theorem counts_foldl (buf : List Byte) (s : State) (h : s.countsBuffer)
    (hl : s.enc.buf.length + buf.length ≤ s.encBufBytes.toNat) :
    State.countsBuffer { s with enc := buf.foldl Encoder.push s.enc } := by
  induction buf generalizing s with
  | nil => exact h
  | cons b buf ih =>
    simp only [List.length_cons] at hl
    refine ih { s with enc := s.enc.push b } (countsBuffer_push h (by omega) b) ?_
    simp only [Encoder.push, List.length_append, List.length_singleton]; omega

theorem counts_session {buf : List Byte} (n : Nat) (h : buf.length ≤ 16) : (session buf n).countsBuffer :=
  counts_foldl buf { idle with encBufBytes := 16#32 } ⟨fun b => freqOf_reset b, Nat.zero_le _⟩
    (by show 0 + _ ≤ 16; omega)

/-- A decode session in Ready with a table, `declared` bytes to emit. -/
def decoding (table : List DtabEntry) (declared : Word) (s : State) : State :=
  { s with dec := { Decoder.reset with state := .ready, declared := declared, dtab := table } }

def tableAB : List DtabEntry := [{ code := [false], sym := 0x61#8 }, { code := [true], sym := 0x62#8 }]

/-- A table that is not prefix-free: "0" is a prefix of "01". -/
def tableNested : List DtabEntry :=
  [{ code := [false], sym := 0x61#8 }, { code := [false, true], sym := 0x62#8 }, { code := [true, true], sym := 0x63#8 }]

def failed (s : State) : State :=
  { s with ctl := { s.ctl with wfail := true, wcode := 0x20#8, rfail := true, rcode := 0x10#8 } }

def fatal (s : State) : State := { s with ctl := { s.ctl with fatal := true, faultCode := 0x83#8 } }

def closed (s : State) : State := { s with enc := { s.enc with closed := true } }

/-! ### Well-formedness: each check refuses an operand one above ARG's range (R82) -/

theorem test_wf_writebits : (Instr.bwWriteBits 16777216).wellFormed = false := by decide
theorem test_wf_writeraw : (Instr.bwWriteRaw 16777216).wellFormed = false := by decide
theorem test_wf_readraw : (Instr.brReadRaw 16777216).wellFormed = false := by decide
theorem test_wf_encwrite : (Instr.encWrite 16777216).wellFormed = false := by decide
theorem test_wf_decread : (Instr.decRead 16777216).wellFormed = false := by decide
theorem test_wf_largest : (Instr.decRead 16777215).wellFormed = true := by decide

/-! ### Decoding: words written out from the formats and the opcode map (R80, R81, R84) -/

theorem test_decode_nop : decode 0b00000001000000000000000000000000#32 = .ok .sysNop := by rfl
theorem test_decode_writebit : decode 0b00010001000000000000000000110001#32 = .ok (.bwWriteBit 0x31#8) := by rfl
theorem test_decode_writebits : decode 0b00010010000000000000000000001011#32 = .ok (.bwWriteBits 11) := by rfl
theorem test_decode_writeraw : decode 0b00010011000000000000000000000010#32 = .ok (.bwWriteRaw 2) := by rfl
theorem test_decode_flush : decode 0b00010100000000000000000000000000#32 = .ok .bwFlush := by rfl
theorem test_decode_close : decode 0b00010101000000000000000000000000#32 = .ok .bwClose := by rfl
theorem test_decode_readbit : decode 0b00100001000000000000000000000000#32 = .ok .brReadBit := by rfl
theorem test_decode_readraw : decode 0b00100010100000000000000000000001#32 = .ok (.brReadRaw 8388609) := by rfl
theorem test_decode_resetalign : decode 0b00100011000000000000000000000000#32 = .ok .brResetAlign := by rfl
theorem test_decode_encopen : decode 0b00110001000000000000000000000000#32 = .ok .encOpen := by rfl
theorem test_decode_encwrite : decode 0b00110010111111111111111111111111#32 = .ok (.encWrite 16777215) := by rfl
theorem test_decode_finalize : decode 0b00110011000000000000000000000000#32 = .ok .encFinalize := by rfl
theorem test_decode_decopen : decode 0b01000001000000000000000000000000#32 = .ok .decOpen := by rfl
theorem test_decode_decread : decode 0b01000010000000000000000000010000#32 = .ok (.decRead 16) := by rfl

/-- R86: the all-zero word, a UNIT above 4, an unlisted OP, a non-zero ARG of format N and of format B. -/
theorem test_decode_illegal :
    decode 0x00000000#32 = .error .op ∧ decode 0x51000000#32 = .error .unit ∧ decode 0x16000000#32 = .error .op ∧
    decode 0x14000001#32 = .error .reserved ∧ decode 0x11000131#32 = .error .reserved := by decide

/-! ### One step: the spec's examples -/

/-- R220's example. -/
theorem test_nop_clears_code :
    let s := { idle with ctl := { idle.ctl with statusCode := 0x02#8 }, br := { idle.br with ended := true } }
    (after (exec .sysNop s)).ctl.statusCode = 0x00#8 ∧ (after (exec .sysNop s)).br.ended = true := by decide

/-- R103's example. -/
theorem test_writebit_one :
    let t := after (exec (.bwWriteBit 0x31#8) idle)
    t.bw = { acc := 0x80#8, nbits := 1#3 } ∧ t.env.sink = [] ∧ statusWord t = 0x00004000#32 := by decide

/-- R83: the byte 0x01 is no bit character. -/
theorem test_writebit_invalid :
    let t := after (exec (.bwWriteBit 0x01#8) idle)
    t.ctl.faultCode = 0x80#8 ∧ t.ctl.faultCmd = 0x11000001#32 ∧ t.ctl.faultInfo = 0x01000000#32 := by decide

/-- R104's example. -/
theorem test_writebits_known :
    let t := after (exec (.bwWriteBits 11) (writer [] (text "01100101010") (acks 1)))
    t.env.sink = [0x65#8] ∧ t.bw = { acc := 0x40#8, nbits := 3#3 } ∧ t.ctl.result = 11#32 := by decide

/-- R105's examples. -/
theorem test_writeraw_aligned :
    (after (exec (.bwWriteRaw 2) (writer [] [0x0B#8, 0x00#8] (acks 2)))).env.sink = [0x0B#8, 0x00#8] := by decide

theorem test_writeraw_misaligned :
    let t := after (exec (.bwWriteRaw 1) (writer [true] [0x7E#8] (acks 1)))
    t.ctl.faultCode = 0x81#8 ∧ t.ctl.faultInfo = 0x01000000#32 ∧ t.env.dinTaken = 0 := by decide

/-- R106's example. -/
theorem test_flush_pads :
    let t := after (exec .bwFlush (writer [true, false, true] [] (acks 1)))
    t.env.sink = [0xA0#8] ∧ t.ctl.result = 1#32 ∧ (after (exec .bwFlush t)).ctl.result = 0#32 := by decide

/-- R107's example. -/
theorem test_close_pads :
    let t := after (exec .bwClose (writer [true] [] (acks 1)))
    t.env.sink = [0x80#8] ∧ t.ctl.result = 1#32 ∧ (after (exec .bwClose t)).ctl.result = 0#32 := by decide

/-- R123's example. -/
theorem test_readbit_first :
    let t := after (exec .brReadBit (reader BitReader.reset (source [0xA0#8]) 0))
    t.ctl.result = 1#32 ∧ t.br.nbits = 7#3 ∧ (after (exec .brReadBit t)).ctl.result = 0#32 := by decide

/-- R124's example. -/
theorem test_readraw_short :
    let t := after (exec (.brReadRaw 4) (reader BitReader.reset (source [0x0B#8, 0x00#8]) 4))
    t.env.dout = [0x0B#8, 0x00#8] ∧ t.ctl.statusCode = 0x02#8 ∧ t.ctl.result = 2#32 := by decide

/-- R125's example. -/
theorem test_resetalign_seven :
    let t := after (exec .brReadBit (reader BitReader.reset (source [0xA0#8, 0xFF#8]) 1))
    (after (exec .brResetAlign t)).ctl.result = 7#32 := by decide

/-- R170's example. -/
theorem test_encopen_discards :
    let t := after (exec .encOpen (session (text "ab") 0))
    t.enc.buf = [] ∧ t.enc.present = [] ∧ t.enc.closed = false := by decide +kernel

/-- R171's example. -/
theorem test_encwrite_counts :
    let t := after (exec (.encWrite 3) (writer [] (text "aab") []))
    t.enc.buf = text "aab" ∧ t.enc.freqOf 0x61#8 = 2#32 ∧ t.enc.freqOf 0x62#8 = 1#32 := by decide +kernel

/-- P6: the fifth byte of four does not fit; the operand is dropped. -/
theorem test_encwrite_overflow :
    let t := after (exec (.encWrite 2) { writer [] (text "bc") [] with enc := (session (text "aab") 0).enc })
    t.ctl.wcode = 0x12#8 ∧ t.enc.buf.length = 3 ∧ t.env.din = [] := by decide +kernel

/-- R172's example. -/
theorem test_finalize_single :
    let t := after (exec .encFinalize (session (text "XXXXXXXXXX") 10))
    t.env.sink = [0x0A#8, 0x00#8, 0x00#8, 0x00#8, 0x01#8, 0x00#8, 0x00#8, 0x00#8, 0x58#8, 0x00#8] ∧
    t.ctl.result = 10#32 := by decide +kernel

/-- R162: the codes of "Hello World". -/
theorem test_codes_hello :
    let e := (session (text "Hello World") 0).enc.derive
    e.codeOf 0x20#8 = some [true, true, true, false] ∧ e.codeOf 0x48#8 = some [true, true, true, true] ∧
    e.codeOf 0x57#8 = some [false, false, false] ∧ e.codeOf 0x64#8 = some [false, false, true] ∧
    e.codeOf 0x65#8 = some [false, true, false] ∧ e.codeOf 0x6C#8 = some [true, false] ∧
    e.codeOf 0x6F#8 = some [true, true, false] ∧ e.codeOf 0x72#8 = some [false, true, true] := by decide +kernel

/-- V-ENC-4: the 36 bytes of "Hello World". -/
theorem test_stream_hello :
    (session (text "Hello World") 0).enc.stream =
      [0x0B#8, 0x00#8, 0x00#8, 0x00#8, 0x08#8, 0x00#8, 0x00#8, 0x00#8, 0x20#8, 0x04#8, 0xE0#8, 0x48#8, 0x04#8,
       0xF0#8, 0x57#8, 0x03#8, 0x00#8, 0x64#8, 0x03#8, 0x20#8, 0x65#8, 0x03#8, 0x40#8, 0x6C#8, 0x02#8, 0x80#8,
       0x6F#8, 0x03#8, 0xC0#8, 0x72#8, 0x03#8, 0x60#8, 0xF5#8, 0x5B#8, 0x86#8, 0x71#8] := by decide +kernel

/-- The ten header bytes of R191's example. -/
def headerX : List Byte :=
  [0x0A#8, 0x00#8, 0x00#8, 0x00#8, 0x01#8, 0x00#8, 0x00#8, 0x00#8, 0x58#8, 0x00#8]

/-- R191's example. -/
theorem test_decopen_single :
    let t := after (exec .decOpen (reader BitReader.reset (source headerX) 16))
    t.dec.state = .ready ∧ t.dec.declared = 10#32 ∧ t.dec.alpha = 1#32 ∧
    t.dec.dtab = [{ code := [], sym := 0x58#8 }] ∧ t.env.srcTaken = 10 ∧ t.env.src = [.exhausted] := by
  decide +kernel

/-- R194's example. -/
theorem test_decread_single :
    let t := after (exec (.decRead 16) (after (exec .decOpen (reader BitReader.reset (source headerX) 16))))
    t.env.dout = List.replicate 10 0x58#8 ∧ t.ctl.statusCode = 0x01#8 ∧ t.ctl.result = 10#32 := by decide +kernel

/-- R199: "ab" with its count raised to 3 decodes to "aba". -/
theorem test_decread_padding_decodes :
    let s := decoding tableAB 3#32 (reader BitReader.reset (source [0x40#8]) 4)
    (after (exec (.decRead 4) s)).env.dout = text "aba" ∧ (after (exec (.decRead 4) s)).ctl.statusCode = 0x01#8 := by
  decide +kernel

/-- R159, R160, R195, R199: with the codes "0" and "01" in the table "01" never matches, since "0" does first. -/
theorem test_decread_first_match :
    let s := decoding tableNested 3#32 (reader BitReader.reset (source [0x60#8]) 4)
    (after (exec (.decRead 3) s)).env.dout = text "aca" := by decide +kernel

/-- V-DEC-14's kind: five bytes of a header leave the count read, the alphabet size not, and `br_ended`. -/
theorem test_decopen_cut :
    let t := after (exec .decOpen (reader BitReader.reset (source (headerX.take 5)) 0))
    t.dec.declared = 10#32 ∧ t.dec.alpha = 0#32 ∧ statusWord t = 0x00100410#32 := by decide +kernel

/-- V-BW-13: with WFAIL latched BW.WRITERAW 2 consumes its two DIN bytes; so do BW.WRITEBITS and ENC.WRITE (R232). -/
theorem test_wfail_consumes_operand :
    [Instr.bwWriteRaw 2, .bwWriteBits 2, .encWrite 2].all (fun i =>
      let t := after (exec i (failed (writer [] [0x11#8, 0x22#8, 0x33#8] [])))
      t.env.din == [0x33#8] && t.env.dinTaken == 2 && t.ctl.statusCode == 0x20#8 && t.ctl.result == 0#32) = true := by
  decide +kernel

/-- R232: the write side is BW.* and ENC.*, the read side BR.* and DEC.*. -/
theorem test_sides (c : Byte) (n : Nat) :
    [Instr.bwWriteBit c, .bwWriteBits n, .bwWriteRaw n, .bwFlush, .bwClose, .encOpen, .encWrite n, .encFinalize].map
      sideOf = List.replicate 8 .write ∧
    [Instr.brReadBit, .brReadRaw n, .brResetAlign, .decOpen, .decRead n].map sideOf = List.replicate 5 .read ∧
    sideOf .sysNop = .system := ⟨rfl, rfl, rfl⟩

/-- R232 step 4: which commands have N bytes on DIN. -/
theorem test_din_operands (c : Byte) (n : Nat) :
    [Instr.bwWriteBits n, .bwWriteRaw n, .encWrite n].map dinOperand = [n, n, n] ∧
    [Instr.sysNop, .bwWriteBit c, .bwFlush, .bwClose, .brReadBit, .brReadRaw n, .brResetAlign, .encOpen, .encFinalize,
      .decOpen, .decRead n].map dinOperand = List.replicate 11 0 := ⟨rfl, rfl⟩

/-- The word placed by `withFetchWord` is the one the next step executes. -/
theorem test_fetch_word :
    (after (step (State.reset.withFetchWord 32 0x11000031))).bw = { acc := 0x80#8, nbits := 1#3 } := by
  decide +kernel

/-- R20, R86: the zero word is fatal. -/
theorem test_zero_word :
    (after (step (hostCommand 0#32 idle))).ctl.faultCode = 0x83#8 := by decide +kernel

/-! ### Witnesses: the hypotheses of each statement, met together

One theorem for each clause that has hypotheses of its own, named after the statement. -/

theorem witness_DecodeOfEncode : (Instr.encWrite 16777215).wellFormed = true := by decide

theorem witness_EncodeOfDecode : decode 0x42FFFFFF#32 = .ok (.decRead 16777215) := by rfl

theorem witness_IllegalWords_step :
    let s := hostCommand 0x14000001#32 idle
    s.env.resetIn = false ∧ s.running = none ∧ s.ctl.fatal = false ∧ s.env.cmd = 0x14000001#32 :: [] ∧
      decode 0x14000001#32 = .error .reserved := by decide

theorem witness_StepRunsDecodedCommand_word :
    let s := hostCommand 0x01000000#32 idle
    s.env.resetIn = false ∧ s.running = none ∧ s.env.cmd = 0x01000000#32 :: [] ∧
      decode 0x01000000#32 = .ok .sysNop := by decide

theorem witness_StepRunsDecodedCommand_none :
    idle.env.resetIn = false ∧ idle.running = none ∧ idle.env.cmd = [] := by decide

theorem witness_FatalRefusesEverything :
    let s := hostCommand 0#32 (fatal idle)
    s.ctl.fatal = true ∧ s.env.resetIn = false ∧ s.running = none ∧ s.env.cmd = 0#32 :: [] := by decide

/-- A write side that has failed, two operand bytes on DIN. -/
def failedWriter : State := failed (writer [] [0x30#8, 0x31#8] [])

/-- The three commands with an operand on DIN, of which all bytes are there. -/
theorem witness_WriteFailureGate_all :
    failedWriter.ctl.fatal = false ∧ failedWriter.ctl.wfail = true ∧ 2 ≤ failedWriter.env.din.length := by decide

/-- One byte is missing. -/
theorem witness_WriteFailureGate_short :
    failedWriter.ctl.fatal = false ∧ failedWriter.ctl.wfail = true ∧ failedWriter.env.din.length < 3 := by decide

theorem witness_WriteFailureGate_others :
    failedWriter.ctl.fatal = false ∧ failedWriter.ctl.wfail = true ∧
      ((∃ c, Instr.encFinalize = .bwWriteBit c) ∨ Instr.encFinalize = .bwFlush ∨ Instr.encFinalize = .bwClose ∨
        Instr.encFinalize = .encFinalize) :=
  ⟨by decide, by decide, .inr (.inr (.inr rfl))⟩

theorem witness_writeGateEnds :
    failedWriter.ctl.fatal = false ∧ failedWriter.ctl.wfail = true ∧ 2 ≤ failedWriter.env.din.length := by decide

theorem witness_readGateEnds : (failed idle).ctl.fatal = false ∧ (failed idle).ctl.rfail = true := by decide

theorem witness_refusedWhileFatal : (fatal idle).ctl.fatal = true := by decide

theorem witness_ReadFailureGate :
    (Instr.decRead 0 = .brReadBit ∨ (∃ n, Instr.decRead 0 = .brReadRaw n) ∨ Instr.decRead 0 = .brResetAlign ∨
      (∃ n, Instr.decRead 0 = .decRead n)) ∧ (failed idle).ctl.fatal = false ∧ (failed idle).ctl.rfail = true :=
  ⟨.inr (.inr (.inr ⟨0, rfl⟩)), by decide, by decide⟩

theorem witness_StateChecks_closed :
    (closed idle).running = none ∧ (closed idle).ctl.fatal = false ∧ (closed idle).ctl.wfail = false ∧
      (closed idle).enc.closed = true := by decide

theorem witness_StateChecks_unopened :
    idle.running = none ∧ idle.ctl.fatal = false ∧ idle.ctl.rfail = false ∧ idle.dec.state = .unopened := by decide

theorem witness_NopOnlyCompletes_word :
    (0x01000001#32 : Word).extractLsb' 24 8 = 0x01#8 ∧ argField 0x01000001#32 ≠ 0 := by decide

/-- Seven digits, one short of a byte. -/
def seven : Bits := [true, false, true, false, true, false, true]

theorem witness_WriteBitPlacesDigit_room :
    let s := writer [true, true, true, true, true, true] [] []
    WriteReady s ∧ s.bw.padded ∧ s.bw.nbits ≠ 7#3 := by decide

theorem witness_WriteBitPlacesDigit_ack :
    let s := writer seven [] (acks 1)
    WriteReady s ∧ s.bw.padded ∧ s.bw.nbits = 7#3 ∧ s.env.sinkAns = .ack :: [] := by decide

theorem witness_WriteBitPlacesDigit_err :
    let s := writer seven [] [.err 0x05#8]
    WriteReady s ∧ s.bw.padded ∧ s.bw.nbits = 7#3 ∧ s.env.sinkAns = .err 0x05#8 :: [] := by decide

theorem witness_WriteBitPlacesDigit_invalid :
    WriteReady idle ∧ idle.bw.padded ∧ (0x32#8 : Byte) ≠ 0x30#8 ∧ (0x32#8 : Byte) ≠ 0x31#8 := by decide

theorem witness_WriteBitsPacksDigits_all :
    let s := writer seven [0x31#8, 0xAA#8] (acks 1)
    WriteReady s ∧ s.bw.padded ∧ s.env.din = [true].map charOfBit ++ [0xAA#8] ∧
      s.env.sinkAns = List.replicate ((s.bw.pending ++ [true]).length / 8) .ack ++ [] := by decide

theorem witness_WriteBitsPacksDigits_invalid :
    let s := writer seven [0x31#8, 0x2F#8] (acks 1)
    WriteReady s ∧ s.bw.padded ∧ (0x2F#8 : Byte) ≠ 0x30#8 ∧ (0x2F#8 : Byte) ≠ 0x31#8 ∧ [true].length < 2 ∧
      s.env.din = [true].map charOfBit ++ 0x2F#8 :: [] ∧
      s.env.sinkAns = List.replicate ((s.bw.pending ++ [true]).length / 8) .ack ++ [] := by decide

theorem witness_WriteBitsPacksDigits_err :
    let s := writer seven [0x31#8, 0xAA#8, 0xBB#8] [.err 0x05#8]
    WriteReady s ∧ s.bw.padded ∧ (s.bw.pending ++ [] ++ [true]).length = 8 * (0 + 1) ∧
      s.env.din = ([] ++ [true]).map charOfBit ++ ([0xAA#8] ++ [0xBB#8]) ∧
      s.env.sinkAns = List.replicate 0 .ack ++ .err 0x05#8 :: [] := by decide

theorem witness_WriteRawPassesBytes_all :
    let s := writer [] [0x0B#8, 0x00#8] (acks 1)
    WriteReady s ∧ s.bw.nbits = 0#3 ∧ s.env.din = [0x0B#8] ++ [0x00#8] ∧
      s.env.sinkAns = List.replicate [0x0B#8].length .ack ++ [] := by decide

theorem witness_WriteRawPassesBytes_err :
    let s := writer [] [0x0B#8, 0x0C#8] [.err 0x05#8]
    WriteReady s ∧ s.bw.nbits = 0#3 ∧ s.env.din = [] ++ 0x0B#8 :: ([0x0C#8] ++ []) ∧
      s.env.sinkAns = List.replicate 0 .ack ++ .err 0x05#8 :: [] := by decide

theorem witness_WriteRawPassesBytes_misaligned :
    WriteReady (writer [true] [] []) ∧ (writer [true] [] []).bw.nbits ≠ 0#3 := by decide

theorem witness_FlushAndClosePad_aligned : WriteReady idle ∧ idle.bw.padded ∧ idle.bw.nbits = 0#3 := by decide

theorem witness_FlushAndClosePad_ack :
    let s := writer [true] [] (acks 1)
    WriteReady s ∧ s.bw.padded ∧ s.bw.nbits ≠ 0#3 ∧ s.env.sinkAns = .ack :: [] := by decide

theorem witness_FlushAndClosePad_err :
    let s := writer seven [] [.err 0x05#8]
    WriteReady s ∧ s.bw.padded ∧ s.bw.nbits ≠ 0#3 ∧ s.env.sinkAns = .err 0x05#8 :: [] := by decide

/-- A reader with one unread bit, one with seven, an aligned one whose source has ended. -/
def oneLeft : BitReader := { byte := 0xA1#8, nbits := 1#3, ended := false }
def sevenLeft : BitReader := { byte := 0xA0#8, nbits := 7#3, ended := false }
def endedReader : BitReader := { byte := 0xA0#8, nbits := 0#3, ended := true }

theorem witness_ReadBitCases_unread :
    ReadReady (reader oneLeft [] 0) ∧ (reader oneLeft [] 0).br.nbits ≠ 0#3 := by decide

theorem witness_ReadBitCases_data :
    let s := reader BitReader.reset [.data 0x80#8] 0
    ReadReady s ∧ s.br.nbits = 0#3 ∧ s.br.ended = false ∧ s.env.src = .data 0x80#8 :: [] := by decide

theorem witness_ReadBitCases_ended :
    let s := reader endedReader [] 0
    ReadReady s ∧ s.br.nbits = 0#3 ∧ s.br.ended = true := by decide

theorem witness_ReadBitCases_end :
    let s := reader BitReader.reset [.exhausted] 0
    ReadReady s ∧ s.br.nbits = 0#3 ∧ s.br.ended = false ∧ s.env.src = .exhausted :: [] := by decide

theorem witness_ReadBitCases_err :
    let s := reader BitReader.reset [.err 0x33#8] 0
    ReadReady s ∧ s.br.nbits = 0#3 ∧ s.br.ended = false ∧ s.env.src = .err 0x33#8 :: [] := by decide

theorem witness_ReadBitTakesNextDigit_unread :
    ReadReady (reader oneLeft [] 0) ∧ (reader oneLeft [] 0).br.unread = true :: [] := by decide

theorem witness_ReadBitTakesNextDigit_fresh :
    let s := reader BitReader.reset [.data 0x80#8] 0
    ReadReady s ∧ s.br.unread = [] ∧ s.br.ended = false ∧ s.env.src = .data 0x80#8 :: [] ∧
      byteBits 0x80#8 = true :: [false, false, false, false, false, false, false] := by decide

theorem witness_ReadRawMovesBytes_all :
    let s := reader BitReader.reset (source [0x0B#8]) 1
    ReadReady s ∧ s.br.nbits = 0#3 ∧ (s.br.ended = false ∨ [0x0B#8] = ([] : List Byte)) ∧
      s.env.src = [0x0B#8].map .data ++ [.exhausted] ∧ s.env.doutRoom = [0x0B#8].length + 0 := by decide

theorem witness_ReadRawMovesBytes_end :
    let s := reader BitReader.reset (source [0x0B#8]) 1
    ReadReady s ∧ s.br.nbits = 0#3 ∧ s.br.ended = false ∧ [0x0B#8].length < 2 ∧
      s.env.src = [0x0B#8].map .data ++ .exhausted :: [] ∧ s.env.doutRoom = [0x0B#8].length + 0 := by decide

theorem witness_ReadRawMovesBytes_ended :
    let s := reader endedReader [] 0
    ReadReady s ∧ s.br.nbits = 0#3 ∧ s.br.ended = true ∧ 0 < 1 := by decide

theorem witness_ReadRawMovesBytes_err :
    let s := reader BitReader.reset [.err 0x44#8] 0
    ReadReady s ∧ s.br.nbits = 0#3 ∧ s.br.ended = false ∧ ([] : List Byte).length < 1 ∧
      s.env.src = ([] : List Byte).map .data ++ .err 0x44#8 :: [] ∧ s.env.doutRoom = ([] : List Byte).length + 0 := by
  decide

theorem witness_ReadRawMovesBytes_misaligned :
    ReadReady (reader sevenLeft [] 0) ∧ (reader sevenLeft [] 0).br.nbits ≠ 0#3 := by decide

theorem witness_ResetAlignDropsBits : ReadReady (reader sevenLeft [] 0) := by decide

theorem witness_EncOpenStartsSession : (failed (closed idle)).ctl.fatal = false := by decide

/-- Four bytes fill ENC_BUF_BYTES = 4 exactly. -/
theorem witness_EncWriteAccumulates_all :
    let s := writer [] (text "aabc") []
    WriteReady s ∧ s.enc.closed = false ∧ s.enc.buf.length + (text "aabc").length ≤ s.encBufBytes.toNat ∧
      s.env.din = text "aabc" ++ [] := by decide +kernel

theorem witness_EncWriteAccumulates_overflow :
    let s := writer [] (text "aabcd") []
    WriteReady s ∧ s.enc.closed = false ∧ s.encBufBytes.toNat < s.enc.buf.length + (text "aabcd").length ∧
      s.env.din = text "aabcd" ++ [] := by decide +kernel

theorem witness_EncWriteAccumulates_closed : WriteReady (closed idle) ∧ (closed idle).enc.closed = true := by decide

/-- A first and a second command of each kind, both succeeding. -/
def splitS : State := writer [] [0x30#8, 0x31#8, 0x31#8] (acks 3)

theorem witness_OperandsSplit (op : Nat → Instr) (h : op = .bwWriteBits ∨ op = .bwWriteRaw ∨ op = .encWrite) :
    let t := after (exec (op 1) splitS)
    let u := after (exec (op 2) t)
    WriteReady splitS ∧ answered (exec (op 1) splitS) = true ∧ t.running = none ∧ t.ctl.statusCode = 0x00#8 ∧
      answered (exec (op 2) t) = true ∧ u.running = none ∧ u.ctl.statusCode = 0x00#8 := by
  obtain rfl | rfl | rfl := h <;> decide +kernel

theorem witness_FinalizeWritesStream :
    let s := session (text "ab") 15
    WriteReady s ∧ s.enc.closed = false ∧ s.bw = BitWriter.reset ∧ s.countsBuffer ∧
      s.env.sinkAns = List.replicate s.enc.stream.length .ack ++ [] :=
  ⟨by decide, rfl, by decide, counts_session _ (by decide), by decide +kernel⟩

theorem witness_FinalizeOtherEnds_misaligned :
    let s := { session (text "ab") 15 with bw := BitWriter.holding [true] }
    WriteReady s ∧ s.countsBuffer ∧ s.enc.closed = false ∧ s.bw.nbits ≠ 0#3 :=
  ⟨by decide, counts_session (buf := text "ab") 15 (by decide), rfl, by decide⟩

theorem witness_FinalizeOtherEnds_err :
    let s := sinkAnswer [.err 0x05#8] (session (text "ab") 14)
    WriteReady s ∧ s.countsBuffer ∧ s.enc.closed = false ∧ s.bw = BitWriter.reset ∧ 14 < s.enc.stream.length ∧
      s.env.sinkAns = List.replicate 14 .ack ++ .err 0x05#8 :: [] :=
  ⟨by decide, counts_session (buf := text "ab") 14 (by decide), rfl, by decide, by decide +kernel, by decide⟩

theorem witness_FinalizeOtherEnds_closed :
    let s := { session [] 0 with enc := { (session [] 0).enc with closed := true } }
    WriteReady s ∧ s.countsBuffer ∧ s.enc.closed = true :=
  ⟨by decide, ⟨fun b => freqOf_reset b, Nat.zero_le _⟩, rfl⟩

theorem witness_StreamLength :
    let s := session (text "ab") 15
    WriteReady s ∧ s.enc.closed = false ∧ s.bw = BitWriter.reset ∧ s.countsBuffer ∧
      15 = 8 + (s.enc.present.map (fun b => 2 + ((s.enc.derive.writtenCode b).length + 7) / 8)).sum +
        ((s.enc.buf.map (fun b => (s.enc.derive.writtenCode b).length)).sum + 7) / 8 ∧
      s.env.sinkAns = List.replicate 15 .ack ++ [] :=
  ⟨by decide, rfl, by decide, counts_session _ (by decide), by decide +kernel, by decide⟩

theorem witness_DegenerateStreams_empty :
    let s := session [] 8
    WriteReady s ∧ s.enc.closed = false ∧ s.bw = BitWriter.reset ∧ s.countsBuffer ∧ s.enc.buf = [] ∧
      s.env.sinkAns = List.replicate 8 .ack ++ [] :=
  ⟨by decide, rfl, by decide, counts_session _ (by decide), rfl, by decide⟩

theorem witness_DegenerateStreams_single :
    let s := session (text "X") 10
    WriteReady s ∧ s.enc.closed = false ∧ s.bw = BitWriter.reset ∧ s.countsBuffer ∧ 0 < 1 ∧
      s.enc.buf = List.replicate 1 0x58#8 ∧ s.env.sinkAns = List.replicate 10 .ack ++ [] :=
  ⟨by decide, rfl, by decide, counts_session _ (by decide), by decide, by decide, by decide⟩

/-- The encoder after "abc" has been buffered: three symbols of frequency 1. -/
def encABC : Encoder := (session (text "abc") 0).enc

theorem witness_TreeShape_empty : Encoder.reset.present = [] := by decide +kernel

theorem witness_TreeShape_some : encABC.present ≠ [] ∧ 3 ≤ 3 ∧ 3 < 2 * encABC.present.length - 1 ∧
    0 < 2 * encABC.present.length - 2 := by decide +kernel

theorem witness_TreeShape_root :
    let s := session (text "abc") 0
    s.countsBuffer ∧ s.enc.buf ≠ [] :=
  ⟨counts_session _ (by decide), by decide⟩

/-- Node 3 merges nodes 0 and 1 while node 2 waits. -/
theorem witness_MergeTakesLeast :
    let nodes := (treeBuild encABC).2
    nodes[3]? = some (Node.internal 2#32 0#9 1#9) ∧ nodes[2]? = some (Node.leaf 0x63#8 1#32) ∧
      nodes[0]? = some (Node.leaf 0x61#8 1#32) ∧ nodes[1]? = some (Node.leaf 0x62#8 1#32) ∧
      2 ≠ (0#9).toNat ∧ 2 ≠ (1#9).toNat := by decide +kernel

theorem witness_CodesOfPresentSymbols :
    (session (text "X") 0).enc.present = [0x58#8] ∧ (session (text "X") 0).countsBuffer :=
  ⟨by decide +kernel, counts_session _ (by decide)⟩

theorem witness_CodeLengthBound : encABC.derive.codeOf 0x61#8 = some [true, false] := by decide +kernel

theorem witness_CodesPrefixFreeAndComplete :
    let e := (session (text "ab") 0).enc
    2 ≤ e.present.length ∧ e.derive.codeOf 0x61#8 = some [false] ∧ e.derive.codeOf 0x62#8 = some [true] := by
  decide +kernel

theorem witness_DtabInsertMaps_repeated :
    (tableAB.map DtabEntry.code).Nodup ∧ [true] ∈ tableAB.map DtabEntry.code ∧
      dtabInsert [true] 0x63#8 tableAB =
        some [{ code := [false], sym := 0x61#8 }, { code := [true], sym := 0x63#8 }] := by decide

theorem witness_DtabInsertMaps_new :
    (tableAB.map DtabEntry.code).Nodup ∧ [] ∉ tableAB.map DtabEntry.code ∧
      dtabInsert [] 0x63#8 tableAB = some (tableAB ++ [{ code := [], sym := 0x63#8 }]) := by decide

theorem witness_LookupIsExact : (tableAB.map DtabEntry.code).Nodup := by decide

/-- The descriptors of "ab": one digit each, the first with a non-zero padding bit. -/
def descsAB : List Descriptor :=
  [{ sym := 0x61#8, len := 1#8, field := [0x01#8] }, { sym := 0x62#8, len := 1#8, field := [0x80#8] }]

theorem witness_DecOpenParsesHeader :
    let s := failed (reader sevenLeft ((headerBytes 2#32 descsAB).map .data ++ [.exhausted]) 0)
    s.ctl.fatal = false ∧ (∀ d ∈ descsAB, d.fits) ∧ descsAB.length < 2 ^ 32 ∧ tableOf descsAB = some tableAB ∧
      s.env.src = (headerBytes 2#32 descsAB).map .data ++ [.exhausted] := by decide +kernel

/-- One byte short of the header. -/
theorem witness_DecOpenPrematureEnd_prefix :
    let taken := (headerBytes 2#32 descsAB).take 13
    (∀ d ∈ descsAB, d.fits) ∧ descsAB.length < 2 ^ 32 ∧ tableOf descsAB = some tableAB ∧
      taken <+: headerBytes 2#32 descsAB ∧ taken ≠ headerBytes 2#32 descsAB := by decide +kernel

/-- No byte, and the most bytes that leave the count incomplete. -/
theorem witness_HeaderCut_inCount :
    HeaderCut [] 0#32 0#32 [] 0#8 ∧ HeaderCut [0x02#8, 0x00#8, 0x00#8] 0#32 0#32 [] 0#8 :=
  ⟨.inCount [] (by decide), .inCount [0x02#8, 0x00#8, 0x00#8] (by decide)⟩

/-- The count alone, and with all but the last byte of the alphabet size. -/
theorem witness_HeaderCut_inAlpha :
    HeaderCut [0x02#8, 0x00#8, 0x00#8, 0x00#8] 2#32 0#32 [] 0#8 ∧
    HeaderCut [0x02#8, 0x00#8, 0x00#8, 0x00#8, 0x02#8, 0x00#8, 0x00#8] 2#32 0#32 [] 0#8 :=
  ⟨.inAlpha 2#32 [] (by decide), .inAlpha 2#32 [0x02#8, 0x00#8, 0x00#8] (by decide)⟩

/-- A descriptor's code byte missing, after a whole descriptor; and no byte of the first descriptor. -/
theorem witness_HeaderCut_inDescriptor :
    HeaderCut ((headerBytes 2#32 descsAB).take 13) 2#32 2#32 (tableAB.take 1) 0x01#8 ∧
    HeaderCut ((headerBytes 2#32 descsAB).take 8) 2#32 2#32 [] 0#8 :=
  ⟨.inDescriptor 2#32 2#32 (descsAB.take 1) { sym := 0x62#8, len := 1#8, field := [0x80#8] } [0x62#8, 0x01#8]
      (tableAB.take 1) (by decide) (by decide) (by decide) (by decide) (by decide) (by decide),
    .inDescriptor 2#32 2#32 [] { sym := 0x61#8, len := 1#8, field := [0x01#8] } [] [] (by decide) (by decide)
      (by decide) (by decide) (by decide) (by decide)⟩

/-- The source ends there. -/
theorem witness_DecOpenPrematureEnd_end :
    let taken := (headerBytes 2#32 descsAB).take 13
    let s := reader sevenLeft (taken.map .data ++ [.exhausted]) 0
    s.ctl.fatal = false ∧ HeaderCut taken 2#32 2#32 (tableAB.take 1) 0x01#8 ∧
      s.env.src = taken.map .data ++ .exhausted :: [] :=
  ⟨by decide, witness_HeaderCut_inDescriptor.1, by decide +kernel⟩

/-- It fails there. -/
theorem witness_DecOpenPrematureEnd_err :
    let taken := (headerBytes 2#32 descsAB).take 13
    let s := reader sevenLeft (taken.map .data ++ [.err 0x09#8]) 0
    s.ctl.fatal = false ∧ HeaderCut taken 2#32 2#32 (tableAB.take 1) 0x01#8 ∧
      s.env.src = taken.map .data ++ .err 0x09#8 :: [] :=
  ⟨by decide, witness_HeaderCut_inDescriptor.1, by decide +kernel⟩

/-- 256 descriptors of eight digits fill the table. -/
def descsFull : List Descriptor :=
  (List.range 256).map (fun v => { sym := symbolOf v, len := 8#8, field := [symbolOf v] })

theorem distinct_descsFull : (descsFull.map Descriptor.code).Nodup := by
  have h : descsFull.map Descriptor.code = (List.range 256).map (fun v => byteBits (symbolOf v)) := by
    simp only [descsFull, List.map_map]
    refine List.map_congr_left fun v _ => ?_
    simp [Descriptor.code, List.take_of_length_le]
  rw [h]
  refine List.Nodup.map_on (fun a ha b hb hab => ?_) List.nodup_range
  have h2 : symbolOf a = symbolOf b := by rw [← packByte_byteBits (symbolOf a), hab, packByte_byteBits]
  have h3 := congrArg BitVec.toNat h2
  simpa [symbolOf, Nat.mod_eq_of_lt (List.mem_range.mp ha), Nat.mod_eq_of_lt (List.mem_range.mp hb)] using h3

theorem witness_DecOpenTableOverflow :
    tableOf descsFull = some (descsFull.map Descriptor.entry) ∧ (∀ x ∈ descsFull, x.fits) ∧
      Descriptor.fits { sym := 0#8, len := 0#8, field := [] } ∧ descsFull.length < (257#32).toNat ∧
      dtabInsert (Descriptor.code { sym := 0#8, len := 0#8, field := [] }) 0#8
        (descsFull.map Descriptor.entry) = none := by
  refine ⟨tableOf_distinct distinct_descsFull (by simp [descsFull, Config.decTableCap]), ?_, by decide,
    by simp [descsFull], dtabInsert_full ?_ (by simp [descsFull, Config.decTableCap])⟩
  · intro x hx
    obtain ⟨v, _, rfl⟩ := List.mem_map.mp hx
    simp [Descriptor.fits]
  · intro hm
    simp only [List.mem_map, descsFull] at hm
    obtain ⟨e, ⟨d, ⟨v, _, rfl⟩, rfl⟩, he⟩ := hm
    have := congrArg List.length he
    simp [Descriptor.entry, Descriptor.code] at this

/-- Two symbols to come, their digits in the unread bit and one fresh byte, one place on DOUT for each. -/
def decodeAB : State := decoding tableAB 3#32 (reader oneLeft (source [0x7F#8]) 2)

theorem sound_decodeAB : decodeAB.dec.Sound :=
  { size := by decide, distinct := by decide, short := by decide, cand := by rintro c ⟨⟩; decide, emitted := by decide }

theorem witness_DecReadDecodes :
    let out : List DtabEntry := [{ code := [true], sym := 0x62#8 }, { code := [false], sym := 0x61#8 }]
    ReadReady decodeAB ∧ decodeAB.dec.state ≠ .unopened ∧
      (∀ e ∈ out, e ∈ decodeAB.dec.dtab ∧ matchedFirst decodeAB.dec.dtab e) ∧
      decodeAB.dec.emitted.toNat + out.length ≤ decodeAB.dec.declared.toNat ∧
      (decodeAB.br.ended = false ∨ [0x7F#8] = ([] : List Byte)) ∧
      [true, true, true, true, true, true, true].length < 8 ∧
      decodeAB.br.unread ++ [0x7F#8].flatMap byteBits =
        out.flatMap DtabEntry.code ++ [true, true, true, true, true, true, true] ∧
      decodeAB.env.src = [0x7F#8].map .data ++ [.exhausted] ∧ decodeAB.env.doutRoom = out.length + 0 := by
  decide +kernel

/-- Two symbols spelled in a table that is not prefix-free. -/
def decodeNested : State := decoding tableNested 3#32 (reader BitReader.reset (source [0x60#8]) 2)

theorem sound_decodeNested : decodeNested.dec.Sound :=
  { size := by decide, distinct := by decide, short := by decide, cand := by rintro c ⟨⟩; decide, emitted := by decide }

theorem witness_DecReadDecodes_notPrefixFree :
    let out : List DtabEntry := [{ code := [false], sym := 0x61#8 }, { code := [true, true], sym := 0x63#8 }]
    ReadReady decodeNested ∧ decodeNested.dec.state ≠ .unopened ∧
      (∀ e ∈ out, e ∈ decodeNested.dec.dtab ∧ matchedFirst decodeNested.dec.dtab e) ∧
      ¬ (∀ e ∈ decodeNested.dec.dtab, matchedFirst decodeNested.dec.dtab e) ∧
      decodeNested.dec.emitted.toNat + out.length ≤ decodeNested.dec.declared.toNat ∧
      (decodeNested.br.ended = false ∨ [0x60#8] = ([] : List Byte)) ∧
      [false, false, false, false, false].length < 8 ∧
      decodeNested.br.unread ++ [0x60#8].flatMap byteBits =
        out.flatMap DtabEntry.code ++ [false, false, false, false, false] ∧
      decodeNested.env.src = [0x60#8].map .data ++ [.exhausted] ∧ decodeNested.env.doutRoom = out.length + 0 := by
  decide +kernel

theorem witness_DecReadEndOfStream_none :
    ReadReady (decoding tableAB 3#32 idle) ∧ (decoding tableAB 3#32 idle).dec.state ≠ .unopened := by decide

theorem witness_DecReadEndOfStream_end :
    let s := decoding tableAB 0#32 (reader oneLeft (source [0x7F#8]) 0)
    ReadReady s ∧ s.dec.state ≠ .unopened ∧ 0 < 1 ∧ s.dec.emitted = s.dec.declared ∧ s.br.ended = false ∧
      s.env.src = [0x7F#8].map .data ++ .exhausted :: [] := by decide

theorem witness_DecReadEndOfStream_ended :
    let s := decoding tableAB 0#32 (reader endedReader [] 0)
    ReadReady s ∧ s.dec.state ≠ .unopened ∧ 0 < 1 ∧ s.dec.emitted = s.dec.declared ∧ s.br.ended = true := by decide

theorem witness_DecReadEndOfStream_err :
    let s := decoding tableAB 0#32 (reader oneLeft [.err 0x09#8] 0)
    ReadReady s ∧ s.dec.state ≠ .unopened ∧ 0 < 1 ∧ s.dec.emitted = s.dec.declared ∧ s.br.ended = false ∧
      s.env.src = ([] : List Byte).map .data ++ .err 0x09#8 :: [] := by decide

/-- A table with one code of two digits: one digit is left of it. -/
def tableC : List DtabEntry := [{ code := [true, false], sym := 0x63#8 }]

def decodeC (br : BitReader) (src : List SrcAnswer) : State := decoding tableC 1#32 (reader br src 0)

theorem sound_decodeC (br : BitReader) (src : List SrcAnswer) : (decodeC br src).dec.Sound :=
  { size := Nat.le_of_ble_eq_true rfl, distinct := List.nodup_singleton _, short := by show ∀ e ∈ tableC, _; decide
    cand := by rintro c ⟨⟩; exact Nat.zero_le _, emitted := Nat.zero_le _ }

theorem witness_DecReadEndsInsideCode_end :
    let s := decodeC oneLeft [.exhausted]
    ReadReady s ∧ s.dec.state ≠ .unopened ∧
      (∀ e ∈ ([] : List DtabEntry), e ∈ s.dec.dtab ∧ matchedFirst s.dec.dtab e) ∧ (∀ e ∈ s.dec.dtab, ¬ e.code <+: [true]) ∧
      s.dec.emitted.toNat + ([] : List DtabEntry).length < s.dec.declared.toNat ∧
      ([] : List DtabEntry).length < 1 ∧
      s.br.unread ++ ([] : List Byte).flatMap byteBits = ([] : List DtabEntry).flatMap DtabEntry.code ++ [true] ∧
      s.env.doutRoom = ([] : List DtabEntry).length + 0 ∧ s.br.ended = false ∧
      s.env.src = ([] : List Byte).map .data ++ .exhausted :: [] := by decide

theorem witness_DecReadEndsInsideCode_ended :
    let s := decodeC { oneLeft with ended := true } []
    ReadReady s ∧ s.dec.state ≠ .unopened ∧
      (∀ e ∈ ([] : List DtabEntry), e ∈ s.dec.dtab ∧ matchedFirst s.dec.dtab e) ∧ (∀ e ∈ s.dec.dtab, ¬ e.code <+: [true]) ∧
      s.dec.emitted.toNat + ([] : List DtabEntry).length < s.dec.declared.toNat ∧
      ([] : List DtabEntry).length < 1 ∧
      s.br.unread ++ ([] : List Byte).flatMap byteBits = ([] : List DtabEntry).flatMap DtabEntry.code ++ [true] ∧
      s.env.doutRoom = ([] : List DtabEntry).length + 0 ∧ s.br.ended = true := by decide

theorem witness_DecReadEndsInsideCode_err :
    let s := decodeC oneLeft [.err 0x09#8]
    ReadReady s ∧ s.dec.state ≠ .unopened ∧
      (∀ e ∈ ([] : List DtabEntry), e ∈ s.dec.dtab ∧ matchedFirst s.dec.dtab e) ∧ (∀ e ∈ s.dec.dtab, ¬ e.code <+: [true]) ∧
      s.dec.emitted.toNat + ([] : List DtabEntry).length < s.dec.declared.toNat ∧
      ([] : List DtabEntry).length < 1 ∧
      s.br.unread ++ ([] : List Byte).flatMap byteBits = ([] : List DtabEntry).flatMap DtabEntry.code ++ [true] ∧
      s.env.doutRoom = ([] : List DtabEntry).length + 0 ∧ s.br.ended = false ∧
      s.env.src = ([] : List Byte).map .data ++ .err 0x09#8 :: [] := by decide

/-- A table that is not prefix-free: one symbol, then a digit that no code is a prefix of. -/
def endsNested : State :=
  decoding tableNested 3#32 (reader { byte := 0x01#8, nbits := 2#3, ended := false } [.exhausted] 1)

theorem sound_endsNested : endsNested.dec.Sound :=
  { size := by decide, distinct := by decide, short := by decide, cand := by rintro c ⟨⟩; decide, emitted := by decide }

theorem witness_DecReadEndsInsideCode_notPrefixFree :
    let out : List DtabEntry := [{ code := [false], sym := 0x61#8 }]
    ReadReady endsNested ∧ endsNested.dec.state ≠ .unopened ∧
      (∀ e ∈ out, e ∈ endsNested.dec.dtab ∧ matchedFirst endsNested.dec.dtab e) ∧
      (∀ e ∈ endsNested.dec.dtab, ¬ e.code <+: [true]) ∧
      endsNested.dec.emitted.toNat + out.length < endsNested.dec.declared.toNat ∧ out.length < 2 ∧
      endsNested.br.unread ++ ([] : List Byte).flatMap byteBits = out.flatMap DtabEntry.code ++ [true] ∧
      endsNested.env.doutRoom = out.length + 0 ∧ endsNested.br.ended = false ∧
      endsNested.env.src = ([] : List Byte).map .data ++ .exhausted :: [] := by decide +kernel

theorem witness_DecReadSplits :
    let t := after (exec (.decRead 1) decodeAB)
    let u := after (exec (.decRead 1) t)
    ReadReady decodeAB ∧ decodeAB.dec.state ≠ .unopened ∧ answered (exec (.decRead 1) decodeAB) = true ∧
      t.running = none ∧ t.ctl.statusCode = 0x00#8 ∧ answered (exec (.decRead 1) t) = true ∧ u.running = none := by
  decide +kernel

/-- "ab" finalized, and a reader given the stream or all of it but its last byte. -/
def writtenAB : State := after (exec .encFinalize (session (text "ab") 15))

theorem witness_RoundTrip :
    let s := session (text "ab") 15
    let r := reader sevenLeft (source writtenAB.env.sink) 2
    WriteReady s ∧ s.enc.closed = false ∧ s.bw.padded ∧ s.countsBuffer ∧ answered (exec .encFinalize s) = true ∧
      writtenAB.running = none ∧ writtenAB.ctl.statusCode = 0x00#8 ∧
      writtenAB.env.sink = s.env.sink ++ writtenAB.env.sink ∧ r.ctl.fatal = false ∧
      r.env.src = writtenAB.env.sink.map .data ++ .exhausted :: [] ∧ s.enc.buf.length < 3 ∧
      s.enc.buf.length ≤ r.env.doutRoom := by
  refine ⟨by decide, rfl, by decide, counts_session _ (by decide), ?_⟩
  decide +kernel

theorem witness_TruncationDetected :
    let s := session (text "ab") 15
    let r := reader sevenLeft (source (writtenAB.env.sink.take 14)) 2
    WriteReady s ∧ s.enc.closed = false ∧ s.bw.padded ∧ s.countsBuffer ∧ answered (exec .encFinalize s) = true ∧
      writtenAB.running = none ∧ writtenAB.ctl.statusCode = 0x00#8 ∧
      writtenAB.env.sink = s.env.sink ++ writtenAB.env.sink ∧ r.ctl.fatal = false ∧
      14 < writtenAB.env.sink.length ∧
      r.env.src = (writtenAB.env.sink.take 14).map .data ++ .exhausted :: [] ∧ s.enc.buf.length ≤ 2 ∧
      s.enc.buf.length ≤ r.env.doutRoom := by
  refine ⟨by decide, rfl, by decide, counts_session _ (by decide), ?_⟩
  decide +kernel

/-- `idle` meets the invariant whatever its streams are, with any sound control registers. -/
theorem inv_idle (c : Control) (e : Streams) (hc : c.Sound) : State.Inv { idle with ctl := c, env := e } :=
  { control := hc
    writer := by show idle.bw.padded; decide
    counts := by show idle.countsBuffer; decide +kernel
    decoder := {
      size := Nat.zero_le _, distinct := List.nodup_nil, short := fun _ he => nomatch he
      cand := by rintro b ⟨⟩; exact Nat.zero_le _
      emitted := Nat.le_refl _ }
    drained := fun h => nomatch h
    notFatal := fun h => absurd rfl h
    waiting := fun _ h => nomatch h }

theorem sound_reset : Control.reset.Sound :=
  ⟨by decide, by decide, by decide, by decide, by decide, by decide, by decide⟩

theorem witness_InvariantKept :
    (hostCommand 0x11000031#32 idle).Inv ∧ answered (step (hostCommand 0x11000031#32 idle)) = true :=
  ⟨inv_idle Control.reset _ sound_reset, by decide⟩

theorem witness_ResetInputReleased : (assertReset idle).env.resetIn = true := by decide

theorem witness_ResetClearsBlock :
    (assertReset (fatal idle)).env.resetIn = true ∧ answered (step (assertReset (fatal idle))) = true := by decide

theorem witness_FailureFlagsLatch_fatal :
    let s := hostCommand 0#32 (fatal idle)
    s.Inv ∧ s.env.resetIn = false ∧ answered (step s) = true ∧ s.ctl.fatal = true :=
  ⟨inv_idle (fatal idle).ctl _ ⟨by decide, by decide, by decide, by decide, by decide, by decide, by decide⟩,
    by decide, by decide, by decide⟩

theorem witness_FailureFlagsLatch_wfail :
    let s := hostCommand 0x31000000#32 (failed idle)
    s.Inv ∧ s.env.resetIn = false ∧ answered (step s) = true ∧ s.ctl.wfail = true ∧
      (after (step s)).ctl.wfail = false :=
  ⟨inv_idle (failed idle).ctl _ ⟨by decide, by decide, by decide, by decide, by decide, by decide, by decide⟩,
    by decide, by decide, by decide, by decide⟩

theorem witness_FailureFlagsLatch_rfail :
    let s := hostCommand 0x41000000#32 (failed idle)
    s.Inv ∧ s.env.resetIn = false ∧ answered (step s) = true ∧ s.ctl.rfail = true ∧
      (after (step s)).ctl.rfail = false :=
  ⟨inv_idle (failed idle).ctl _ ⟨by decide, by decide, by decide, by decide, by decide, by decide, by decide⟩,
    by decide, by decide, by decide, by decide⟩

theorem witness_SidesIndependent :
    sideOf .brReadBit = .read ∧ answered (exec .brReadBit (reader oneLeft [] 0)) = true ∧
    sideOf .bwFlush = .write ∧ answered (exec .bwFlush (writer [true] [] (acks 1))) = true := by decide

/-- A command of each kind waiting for its stream. -/
def stalledDin : State := after (exec (.encWrite 1) idle)
def stalledDout : State := after (exec (.brReadRaw 1) (reader BitReader.reset (source [0x0B#8]) 0))
def stalledSink : State := after (exec .bwFlush (writer [true] [] []))
def stalledSource : State := after (exec .brReadBit idle)

theorem witness_StallHasNoStep_din :
    stalledDin.running = some { cmd := 0x32000001#32, wait := .encWrite 1 1 } ∧ stalledDin.env.resetIn = false ∧
      (Wait.encWrite 1 1).port = .din ∧ stalledDin.env.din = [] := by decide

theorem witness_StallHasNoStep_dout :
    stalledDout.running = some { cmd := 0x22000001#32, wait := .readRawDout 0x0B#8 0 0 } ∧
      stalledDout.env.resetIn = false ∧ (Wait.readRawDout 0x0B#8 0 0).port = .dout ∧ stalledDout.env.doutRoom = 0 := by
  decide

theorem witness_StallHasNoStep_sink :
    stalledSink.running = some { cmd := 0x14000000#32, wait := .flush 0x80#8 } ∧ stalledSink.env.resetIn = false ∧
      (Wait.flush 0x80#8).port = .sink ∧ stalledSink.env.sinkAns = [] := by decide

theorem witness_StallHasNoStep_source :
    stalledSource.running = some { cmd := 0x21000000#32, wait := .readBit } ∧ stalledSource.env.resetIn = false ∧
      Wait.readBit.port = .source ∧ stalledSource.env.src = [] := by decide

theorem witness_StallHasNoStep_answered :
    let s := sinkAnswer (acks 1) stalledSink
    s.running = some { cmd := 0x14000000#32, wait := .flush 0x80#8 } ∧ s.env.resetIn = false ∧
      (Wait.flush 0x80#8).port = .sink ∧ s.env.sinkAns ≠ [] := by decide

theorem witness_StallsAreReal_din :
    let s := hostCommand 0x32000001#32 idle
    answered (step s) = true ∧ (after (step s)).running = some { cmd := 0x32000001#32, wait := .encWrite 1 1 } := by
  decide

theorem witness_StallsAreReal_dout :
    let s := hostCommand 0x22000001#32 (reader BitReader.reset (source [0x0B#8]) 0)
    answered (step s) = true ∧
      (after (step s)).running = some { cmd := 0x22000001#32, wait := .readRawDout 0x0B#8 0 0 } ∧
      (Wait.readRawDout 0x0B#8 0 0).port = .dout := by decide

theorem witness_StallsAreReal_sink :
    let s := hostCommand 0x14000000#32 (writer [true] [] [])
    answered (step s) = true ∧ (after (step s)).running = some { cmd := 0x14000000#32, wait := .flush 0x80#8 } ∧
      (Wait.flush 0x80#8).port = .sink := by decide

theorem witness_StallsAreReal_source :
    let s := hostCommand 0x21000000#32 idle
    answered (step s) = true ∧ (after (step s)).running = some { cmd := 0x21000000#32, wait := .readBit } ∧
      Wait.readBit.port = .source := by decide

theorem witness_AnswersMayComeLate_ended :
    let s := hostCommand 0x01000000#32 idle
    s.env.resetIn = false ∧ answered (step s) = true ∧ (after (step s)).running = none := by decide

theorem witness_AnswersMayComeLate_stalled :
    let s := hostCommand 0x32000001#32 idle
    let x : Supply := { din := [0x61#8], doutRoom := 0, sinkAns := [], src := [] }
    s.env.resetIn = false ∧ answered (step s) = true ∧
      (after (step s)).running = some { cmd := 0x32000001#32, wait := .encWrite 1 1 } ∧
      (Wait.encWrite 1 1).port.ready ((after (step s)).supplied x) = true := by decide

/-- A command word taken, a running command resumed, a reset with a word waiting. -/
theorem witness_StreamsOnlyAdvance :
    answered (step (hostCommand 0x32000001#32 idle)) = true ∧
    answered (step (hostOffer [0x61#8] (hostCommand 0x01000000#32 stalledDin))) = true ∧
    answered (step (assertReset (hostCommand 0x01000000#32 idle))) = true := by decide

theorem witness_StatusFields_idle : idle.running = none := by decide

theorem witness_StatusFields_busy :
    stalledSource.running = some { cmd := 0x21000000#32, wait := .readBit } := by decide

theorem witness_RegisterSlots : idle.running = none ∧ 13#6 ≤ (13#6 : BitVec 6) := by decide

theorem witness_BusyReads : stalledSource.running = some { cmd := 0x21000000#32, wait := .readBit } := by decide

end Sys2Proof.Tests
end

section
/-! SUPPORT. What one step can do, said once (`10_state.md` R20, `70_reset_and_hazards.md` R260). -/

namespace Sys2Proof.Machine

/-- The state once the word at the front of CMD has been taken, `rest` waiting behind it (R20). -/
def State.withCmd (s : State) (rest : List Word) : State := { s with env := { s.env with cmd := rest } }

@[simp] theorem State.withCmd_running (s : State) (rest : List Word) : (s.withCmd rest).running = s.running := rfl

theorem step_reset {s : State} (h : s.env.resetIn = true) : step s = .next (resetBlock s) := by
  simp [step, h]

theorem step_running {s : State} {r : Running} (h : s.env.resetIn = false) (hr : s.running = some r) :
    step s = resumeStep r s := by
  simp [step, h, hr]

theorem step_idle {s : State} (h : s.env.resetIn = false) (hr : s.running = none) : step s = commandStep s := by
  simp [step, h, hr]

theorem commandStep_nil {s : State} (h : s.env.cmd = []) : commandStep s = .fault .noCommand := by
  simp [commandStep, takeCommand, h]

theorem commandStep_legal {s : State} {w : Word} {rest : List Word} {i : Instr} (h : s.env.cmd = w :: rest)
    (hd : decode w = .ok i) : commandStep s = exec i (s.withCmd rest) := by
  simp [commandStep, takeCommand, State.withCmd, h, hd]

theorem commandStep_illegal {s : State} {w : Word} {rest : List Word} {e : Illegal} (h : s.env.cmd = w :: rest)
    (hd : decode w = .error e) : commandStep s = .next (illegalCommand w (s.withCmd rest)) := by
  simp [commandStep, takeCommand, State.withCmd, h, hd]

theorem resumeStep_next {r : Running} {s t : State} : resumeStep r s = .next t ↔
    r.wait.port.ready s = true ∧ t = settle r.cmd (resume r.cmd r.wait { s with running := none }) := by
  unfold resumeStep
  split
  · next hp => rw [Host.Outcome.next.injEq, and_iff_right hp]; exact eq_comm
  · next hp => simp [hp]

/-- A step resets the block, goes on with the running command, ends an illegal word, or executes a legal one. -/
theorem step_cases {s t : State} (h : step s = .next t) :
    (s.env.resetIn = true ∧ t = resetBlock s) ∨
    (s.env.resetIn = false ∧ ∃ r, s.running = some r ∧ r.wait.port.ready s = true ∧
      t = settle r.cmd (resume r.cmd r.wait { s with running := none })) ∨
    (s.env.resetIn = false ∧ s.running = none ∧ ∃ w rest e, s.env.cmd = w :: rest ∧ decode w = .error e ∧
      t = illegalCommand w (s.withCmd rest)) ∨
    (s.env.resetIn = false ∧ s.running = none ∧ ∃ w rest i, s.env.cmd = w :: rest ∧ decode w = .ok i ∧
      exec i (s.withCmd rest) = .next t) := by
  cases hi : s.env.resetIn with
  | true =>
    rw [step_reset hi] at h
    cases h
    exact .inl ⟨rfl, rfl⟩
  | false =>
    refine .inr ?_
    cases hr : s.running with
    | some r =>
      rw [step_running hi hr, resumeStep_next] at h
      exact .inl ⟨rfl, r, rfl, h⟩
    | none =>
      rw [step_idle hi hr] at h
      refine .inr ?_
      cases hc : s.env.cmd with
      | nil => rw [commandStep_nil hc] at h; cases h
      | cons w rest =>
        cases hd : decode w with
        | error e =>
          rw [commandStep_illegal hc hd] at h
          cases h
          exact .inl ⟨rfl, rfl, w, rest, e, rfl, hd, rfl⟩
        | ok i =>
          rw [commandStep_legal hc hd] at h
          exact .inr ⟨rfl, rfl, w, rest, i, rfl, hd, h⟩

end Sys2Proof.Machine
end

section
/-! SUPPORT. The invariant through the gate, an execution, a resumption and a step, from what the loops keep
(`60_exceptions.md` R232). -/

namespace Sys2Proof.Machine

/-! ### Between the loops' invariant and the machine's -/

theorem State.Inv.calm {s : State} (h : s.Inv) : s.Calm := { h with }

/-- No promise of a stall point speaks of the running command itself. -/
theorem Wait.sound_running (w : Wait) (s : State) (o : Option Running) :
    w.Sound { s with running := o } ↔ w.Sound s := by
  cases w <;> exact Iff.rfl

theorem State.Calm.inv_idle {s : State} (h : s.Calm) (hr : s.running = none) : s.Inv :=
  { h with
    notFatal := fun hn => absurd hr hn
    waiting := fun r hs => by rw [hr] at hs; cases hs }

/-- A run that keeps the loops' invariant leaves the machine's, whether the command ends or stalls. -/
theorem settle_inv {r : Run} (h : r.Keeps) (cmd : Word) : (settle cmd r).Inv := by
  cases r with
  | done t => exact State.Calm.inv_idle (s := { t with running := none }) { h with } rfl
  | stall w t =>
    obtain ⟨hc, hf, hw⟩ := h
    refine { hc with notFatal := fun _ => hf, waiting := ?_ }
    rintro _ ⟨⟩
    exact (w.sound_running t _).mpr hw

theorem resetBlock_inv (s : State) : (resetBlock s).Inv :=
  { control := by show Control.reset.Sound; constructor <;> decide
    writer := BitWriter.padded_reset
    counts := ⟨fun b => freqOf_reset b, Nat.zero_le _⟩
    decoder := {
      size := Nat.zero_le _, distinct := List.nodup_nil, short := fun _ he => nomatch he
      cand := by rintro _ ⟨⟩; exact Nat.zero_le _
      emitted := Nat.le_refl _ }
    drained := fun hd => nomatch hd
    notFatal := fun hn => absurd rfl hn
    waiting := fun _ hr => nomatch hr }

/-! ### Taking and executing a command -/

/-- The gate's own ends keep the invariant, so a command does if its body does where it proceeds (R232). -/
theorem gated_keeps {i : Instr} {s : State} (h : s.Calm) {body : State → Run}
    (hb : s.Fit → gate i s = .proceed → (body s).Keeps) : (gated i body s).Keeps := by
  unfold gated
  cases hg : gate i s with
  | refuse => exact h.refuseFatal
  | writeFailed =>
    obtain ⟨hf, hw, _⟩ := gate_writeFailed hg
    exact discardDin_keeps ⟨h, hf⟩ (e := .complete _) (write_mem_status (h.control.wfail hw)) _
  | readFailed =>
    obtain ⟨_, hr, _⟩ := gate_readFailed hg
    exact h.complete (read_mem_status (h.control.rfail hr)) _
  | violation f =>
    refine h.raise ?_ _ _ _
    obtain rfl | rfl := (gate_violation hg).2 <;> decide
  | noOp => exact h.complete (by decide) _
  | proceed => exact hb ⟨h, gate_proceed_fatal hg⟩ hg

theorem runCommand_inv {i : Instr} {s : State} (h : s.Calm) {body : State → Run}
    (hb : s.Fit → gate i s = .proceed → (body s).Keeps) : (runCommand i body s).Inv :=
  settle_inv (gated_keeps h hb) _

/-- DEC.READ proceeds only with a session open (R232 step 5). -/
theorem gate_decRead_proceed {n : Nat} {s : State} (h : gate (.decRead n) s = .proceed) : s.dec.state ≠ .unopened := by
  intro hd
  cases hf : s.ctl.fatal <;> cases hr : s.ctl.rfail <;>
    simp [gate, isOpen, sideOf, stateCheck, hf, hr, hd] at h

theorem execEncFinalize_next {s t : State} (h : execEncFinalize s = .next t) :
    t = runCommand .encFinalize (encFinalizeBody (encode .encFinalize)) s := by
  unfold execEncFinalize at h
  split at h
  · cases h
  · cases h; rfl

theorem exec_inv {i : Instr} {s t : State} (h : s.Calm) (he : exec i s = .next t) : t.Inv := by
  cases i with
  | encFinalize =>
    rw [execEncFinalize_next he]
    exact runCommand_inv h fun hs _ => encFinalizeBody_keeps hs _
  | sysNop => cases he; exact runCommand_inv h fun hs _ => hs.1.complete (by decide) _
  | bwWriteBit c => cases he; exact runCommand_inv h fun hs _ => writeBitBody_keeps hs _ c
  | bwWriteBits n => cases he; exact runCommand_inv h fun hs _ => writeBitsLoop_keeps hs _ n 0
  | bwWriteRaw n => cases he; exact runCommand_inv h fun hs _ => writeRawBody_keeps hs _ n
  | bwFlush => cases he; exact runCommand_inv h fun hs _ => flushAfter_keeps (flushInt_keeps hs)
  | bwClose => cases he; exact runCommand_inv h fun hs _ => flushAfter_keeps (flushInt_keeps hs)
  | brReadBit => cases he; exact runCommand_inv h fun hs _ => readBitBody_keeps hs
  | brReadRaw n => cases he; exact runCommand_inv h fun hs _ => readRawBody_keeps hs _ n
  | brResetAlign => cases he; exact runCommand_inv h fun hs _ => resetAlignBody_keeps hs
  | encOpen => cases he; exact runCommand_inv h fun hs _ => encOpenBody_keeps hs
  | encWrite n => cases he; exact runCommand_inv h fun hs _ => encWriteBody_keeps hs n
  | decOpen => cases he; exact runCommand_inv h fun hs _ => decOpenBody_keeps hs _
  | decRead n =>
    cases he
    exact runCommand_inv h fun hs hg => decReadLoop_keeps hs (gate_decRead_proceed hg) n 0

theorem illegalCommand_calm {s : State} (h : s.Calm) (w : Word) : (illegalCommand w s).Calm := by
  unfold illegalCommand
  split
  · exact h.refuseFatal
  · exact h.raise (by decide) _ _ _

@[simp] theorem illegalCommand_running (w : Word) (s : State) : (illegalCommand w s).running = s.running := by
  unfold illegalCommand
  split <;> rfl

/-! ### Going on with a stalled command -/

/-- A stalled command goes on from its point as its loop does: what the point promises is what the loop needs (R72). -/
theorem resume_keeps {s : State} (h : s.Fit) (cmd : Word) {w : Wait} (hw : w.Sound s) : (resume cmd w s).Keeps := by
  cases w with
  | discard left e => exact discardDin_keeps h (by cases e <;> exact hw) left
  | writeBit b => exact writeBitAfter_keeps (sinkWrite_keeps h b)
  | writeBitsDin i left => exact writeBitsLoop_keeps h cmd left i
  | writeBitsSink b i left =>
    exact writeBitsAfter_keeps (fun _ ht => writeBitsLoop_keeps ht cmd left (i + 1)) i left (sinkWrite_keeps h b)
  | writeRawDin i left => exact writeRawLoop_keeps h left i
  | writeRawSink b i left =>
    exact writeRawAfter_keeps (fun _ ht => writeRawLoop_keeps ht left (i + 1)) i left (sinkWrite_keeps h b)
  | flush b => exact flushAfter_keeps (sinkWrite_keeps h b)
  | readBit => exact readBitBody_keeps h
  | readRawSrc i left => exact readRawLoop_keeps h cmd left i
  | readRawDout b i left =>
    exact readRawDeliver_keeps (fun _ ht => readRawLoop_keeps ht cmd left (i + 1)) b i left h
  | encWrite n left => exact encWriteLoop_keeps h n left hw
  | encEmit b out todo =>
    exact emitAfter_keeps (fun k _ ht => emitLoop_keeps ht cmd todo k) out todo (sinkWrite_keeps h b)
  | headerCount got =>
    obtain ⟨hl, hp⟩ := hw
    exact headerWord_keeps (w := .headerCount) h hp cmd (fun _ _ hg ht => ⟨hg, ht⟩)
      (fun v _ ht htp => countKnown_keeps ht htp cmd v) _ got (Nat.sub_add_cancel hl.le)
  | headerAlpha got =>
    obtain ⟨hl, hp⟩ := hw
    exact headerWord_keeps (w := .headerAlpha) h hp cmd (fun _ _ hg ht => ⟨hg, ht⟩)
      (fun v _ ht htp => alphaKnown_keeps ht htp cmd v) _ got (Nat.sub_add_cancel hl.le)
  | descSymbol left => exact descLoop_keeps h hw cmd left
  | descLength left sym =>
    exact descLength_keeps h hw cmd (fun _ ht htp => descLoop_keeps ht htp cmd left) left sym
  | descBits left sym more code =>
    obtain ⟨hl, hp⟩ := hw
    exact descBits_keeps h hp (fun _ ht htp => descLoop_keeps ht htp cmd left) left sym more code hl
  | matchBit k left =>
    exact matchAfter_keeps (fun _ ht hts => decReadLoop_keeps ht hts left (k + 1)) k left (matchSymbol_keeps h hw)
  | emitSymbol sym k left =>
    exact emitSymbol_keeps (fun _ ht hts => decReadLoop_keeps ht hts left (k + 1)) sym k left h hw
  | drain k =>
    obtain ⟨hs, he⟩ := hw
    exact drainBody_keeps h hs he k

theorem step_inv {s t : State} (h : s.Inv) (hs : step s = .next t) : t.Inv := by
  obtain ⟨_, rfl⟩ | ⟨_, r, hr, _, rfl⟩ | ⟨_, hn, w, rest, e, _, _, rfl⟩ | ⟨_, _, w, rest, i, _, _, he⟩ := step_cases hs
  · exact resetBlock_inv s
  · have hf : s.ctl.fatal = false := h.notFatal (by simp [hr])
    refine settle_inv (resume_keeps (s := { s with running := none }) ⟨{ h with }, hf⟩ _ ?_) _
    exact (r.wait.sound_running s none).mpr (h.waiting r hr)
  · exact (illegalCommand_calm (s := s.withCmd rest) { h with } w).inv_idle (by simpa using hn)
  · exact exec_inv (s := s.withCmd rest) { h with } he

end Sys2Proof.Machine
end

section
/-! SUPPORT. What the register port shows (`10_state.md` R21 to R36). -/

namespace Sys2Proof.Machine

/-! ### Reading a slot -/

theorem readRegister_idle {s : State} (h : s.running = none) (idx : BitVec 6) :
    readRegister idx s = (slotWord s idx, s) := by
  simp [readRegister, State.busy, h]

section
variable {s : State} {r : Running} (h : s.running = some r)
include h

theorem readRegister_busy_id : readRegister 12#6 s = (0x485A0001#32, s) := by
  simp [readRegister, State.busy, h, Config.idWord]

theorem readRegister_busy_status :
    (readRegister 0#6 s).1 = Config.freeWord s.draws ||| BitVec.twoPow 32 21 := by
  simp [readRegister, State.busy, h]

theorem readRegister_busy_effect (idx : BitVec 6) : ∃ d, (readRegister idx s).2 = { s with draws := d } := by
  by_cases hid : idx = 12#6
  · exact ⟨s.draws, by rw [hid, readRegister_busy_id h]⟩
  · refine ⟨s.draws + 1, ?_⟩
    simp only [readRegister, State.busy, h, hid, Option.isSome_some, if_true, if_false]
    split <;> rfl

end

/-! ### Fields of a word -/

/-- A field placed above everything in a word adds to it: the word's bits and the field's do not overlap. -/
theorem toNat_or_fieldAt {w : Word} {x pos v : Nat} (hw : w.toNat = x) (hx : x < 2 ^ pos)
    (hv : x + 2 ^ pos * v < 2 ^ 32) : (w ||| fieldAt pos v).toNat = x + 2 ^ pos * v := by
  have hpos : 0 < 2 ^ pos := Nat.two_pow_pos pos
  have hle : v ≤ 2 ^ pos * v := Nat.le_mul_of_pos_left v hpos
  have hfield : (fieldAt pos v).toNat = 2 ^ pos * v := by
    rw [fieldAt, BitVec.toNat_shiftLeft, BitVec.toNat_ofNat, Nat.mod_eq_of_lt (by omega : v < 2 ^ 32),
      Nat.shiftLeft_eq, Nat.mul_comm, Nat.mod_eq_of_lt (by omega)]
  rw [BitVec.toNat_or, hw, hfield, Nat.or_comm, ← Nat.two_pow_add_eq_or_of_lt hx, Nat.add_comm]

theorem toNat_fieldAt_zero {v : Nat} (hv : v < 2 ^ 32) : (fieldAt 0 v).toNat = v := by
  simpa [fieldAt] using hv

theorem extractLsb'_eq_of_div_mod {w : Word} {pos len : Nat} {v : BitVec len}
    (h : w.toNat / 2 ^ pos % 2 ^ len = v.toNat) : w.extractLsb' pos len = v := by
  apply BitVec.eq_of_toNat_eq
  rw [BitVec.extractLsb'_toNat, Nat.shiftRight_eq_div_pow, h]

/-- A field of one bit that shows a flag. -/
theorem extractLsb'_eq_ofBool {w : Word} {pos : Nat} {b : Bool} (h : w.toNat / 2 ^ pos % 2 = b.toNat) :
    w.extractLsb' pos 1 = BitVec.ofBool b :=
  extractLsb'_eq_of_div_mod (by rw [BitVec.toNat_ofBool, pow_one, h])

theorem fieldAt_byte (a : Byte) : fieldAt 0 a.toNat = a.setWidth 32 := by
  simp [fieldAt]

/-- Two bytes side by side in a slot (R27, R28). -/
theorem fieldAt_bytes (a b : Byte) :
    fieldAt 0 a.toNat ||| fieldAt 8 b.toNat = a.setWidth 32 + 256#32 * b.setWidth 32 := by
  have ha := a.isLt
  have hb := b.isLt
  apply BitVec.eq_of_toNat_eq
  rw [toNat_or_fieldAt (toNat_fieldAt_zero (by omega)) ha (by omega)]
  simp only [BitVec.toNat_add, BitVec.toNat_mul, BitVec.toNat_setWidth, BitVec.toNat_ofNat]
  omega

/-! ### STATUS -/

/-- The values of STATUS's fields fit their bits (R22). -/
theorem status_fields_lt (s : State) :
    s.ctl.statusCode.toNat < 2 ^ 8 ∧ s.ctl.fatal.toNat < 2 ∧ s.ctl.wfail.toNat < 2 ∧ s.ctl.rfail.toNat < 2 ∧
    s.enc.closed.toNat < 2 ∧ s.dec.state.code < 2 ^ 2 ∧ s.bw.nbits.toNat < 2 ^ 3 ∧ s.br.nbits.toNat < 2 ^ 3 ∧
    s.br.ended.toNat < 2 ∧ s.busy.toNat < 2 :=
  ⟨s.ctl.statusCode.isLt, s.ctl.fatal.toNat_lt, s.ctl.wfail.toNat_lt, s.ctl.rfail.toNat_lt, s.enc.closed.toNat_lt,
    by cases s.dec.state <;> decide, s.bw.nbits.isLt, s.br.nbits.isLt, s.br.ended.toNat_lt, s.busy.toNat_lt⟩

/-- STATUS is the sum of its fields, each times the weight of its lowest bit (R22). -/
theorem statusWord_toNat (s : State) : (statusWord s).toNat =
    s.ctl.statusCode.toNat + 2 ^ 8 * s.ctl.fatal.toNat + 2 ^ 9 * s.ctl.wfail.toNat + 2 ^ 10 * s.ctl.rfail.toNat +
    2 ^ 11 * s.enc.closed.toNat + 2 ^ 12 * s.dec.state.code + 2 ^ 14 * s.bw.nbits.toNat + 2 ^ 17 * s.br.nbits.toNat +
    2 ^ 20 * s.br.ended.toNat + 2 ^ 21 * s.busy.toNat := by
  obtain ⟨hcode, hfatal, hwfail, hrfail, hclosed, hdec, hbw, hbr, hended, hbusy⟩ := status_fields_lt s
  have h0 := toNat_fieldAt_zero (v := s.ctl.statusCode.toNat) (by omega)
  have h8 := toNat_or_fieldAt (pos := 8) (v := s.ctl.fatal.toNat) h0 (by omega) (by omega)
  have h9 := toNat_or_fieldAt (pos := 9) (v := s.ctl.wfail.toNat) h8 (by omega) (by omega)
  have h10 := toNat_or_fieldAt (pos := 10) (v := s.ctl.rfail.toNat) h9 (by omega) (by omega)
  have h11 := toNat_or_fieldAt (pos := 11) (v := s.enc.closed.toNat) h10 (by omega) (by omega)
  have h12 := toNat_or_fieldAt (pos := 12) (v := s.dec.state.code) h11 (by omega) (by omega)
  have h14 := toNat_or_fieldAt (pos := 14) (v := s.bw.nbits.toNat) h12 (by omega) (by omega)
  have h17 := toNat_or_fieldAt (pos := 17) (v := s.br.nbits.toNat) h14 (by omega) (by omega)
  have h20 := toNat_or_fieldAt (pos := 20) (v := s.br.ended.toNat) h17 (by omega) (by omega)
  exact toNat_or_fieldAt h20 (by omega) (by omega)

theorem slotWord_status (s : State) : slotWord s 0#6 = statusWord s := rfl

/-- Whatever the free bits are, BUSY is set in a STATUS read while a command runs (R36). -/
theorem freeStatus_busy (w : Word) : (w ||| BitVec.twoPow 32 21).getLsbD 21 = true := by
  simp

/-! ### Slots -/

/-- The symbols present are those of the 256 with a frequency above 0 (R140). -/
theorem length_present (e : Encoder) :
    e.present.length = ((List.range 256).filter (fun v => e.freqOf (symbolOf v) != 0#32)).length := by
  have hzip : e.freq.toList.zipIdx = (List.range 256).map (fun v => (e.freqOf (symbolOf v), v)) := by
    refine List.ext_getElem (by simp) fun v hv _ => ?_
    have hlt : v < 256 := by simpa using hv
    simp [Encoder.freqOf, symbolOf, Nat.mod_eq_of_lt hlt]
  rw [Encoder.present, hzip, List.length_map, List.filter_map, List.length_map]
  rfl

theorem slotWord_reserved (s : State) {idx : BitVec 6} (h : 13 ≤ idx.toNat) : slotWord s idx = 0#32 := by
  obtain ⟨k, hk⟩ := Nat.exists_eq_add_of_le' h
  simp only [slotWord, hk]

/-- After reset every slot but ID holds 0 (R47, R262). -/
theorem slotWord_reset (idx : BitVec 6) :
    slotWord State.reset idx = if idx = 12#6 then 0x485A0001#32 else 0#32 := by
  revert idx
  decide +kernel

/-- No slot shows what a reset leaves alone (R47, R261). -/
theorem slotWord_resetBlock (s : State) (idx : BitVec 6) : slotWord (resetBlock s) idx = slotWord State.reset idx :=
  rfl

end Sys2Proof.Machine
end

section
/-! SUPPORT. The statements of `10_state.md`, settled. -/

namespace Sys2Proof.Machine

/-- Settles O46: the invariant goes through each of the four ways a step can go (`step_inv`). -/
theorem invariantKept : Obligations.InvariantKept :=
  fun _ _ => step_inv

/-- Settles O47: the state after power-on is one that the reset input leaves. -/
theorem invariantAtReset : Obligations.InvariantAtReset :=
  resetBlock_inv State.reset

/-- Settles O6: an idle step is `commandStep`, whose outcome the front of CMD decides. -/
theorem stepRunsDecodedCommand : Obligations.StepRunsDecodedCommand := by
  intro s hreset hidle
  rw [step_idle hreset hidle]
  exact ⟨fun w rest i hcmd hd => commandStep_legal hcmd hd, commandStep_nil⟩

/-- Settles O48: the step is `resetBlock`, which is the record the statement writes out. -/
theorem resetClearsBlock : Obligations.ResetClearsBlock :=
  fun s h => ⟨resetBlock s, step_reset h, rfl⟩

/-- Settles O49: the register port cannot tell a state after the reset input from the one after power-on. -/
theorem resetRegisters : Obligations.ResetRegisters := by
  intro s t idx h hs
  rw [step_reset h] at hs
  cases hs
  rw [readRegister_idle (resetBlock_running s), readRegister_idle rfl, slotWord_resetBlock]
  exact ⟨slotWord_reset idx, slotWord_reset idx⟩

/-- Settles O56: each field's bits are what is left of the sum of all fields (`statusWord_toNat`) once the fields below
and above it are divided off. -/
theorem statusFields : Obligations.StatusFields := by
  refine ⟨fun s hidle => ?_, fun s r hr => ?_, ?_⟩
  · have hsum := statusWord_toNat s
    obtain ⟨hcode, hfatal, hwfail, hrfail, hclosed, hdec, hbw, hbr, hended, _⟩ := status_fields_lt s
    have hbusy : s.busy.toNat = 0 := by simp [State.busy, hidle]
    simp only [readRegister_idle hidle, slotWord_status, true_and]
    refine ⟨extractLsb'_eq_of_div_mod ?_, extractLsb'_eq_ofBool ?_, extractLsb'_eq_ofBool ?_,
      extractLsb'_eq_ofBool ?_, extractLsb'_eq_ofBool ?_, extractLsb'_eq_of_div_mod ?decState,
      extractLsb'_eq_of_div_mod ?_, extractLsb'_eq_of_div_mod ?_, extractLsb'_eq_ofBool ?_,
      extractLsb'_eq_ofBool (b := false) ?busy, extractLsb'_eq_of_div_mod ?reserved⟩
    case decState =>
      calc (statusWord s).toNat / 2 ^ 12 % 2 ^ 2 = s.dec.state.code := by omega
        _ = _ := by cases s.dec.state <;> rfl
    case busy => rw [Bool.toNat_false]; omega
    case reserved => rw [BitVec.toNat_zero]; omega
    all_goals omega
  · rw [readRegister_busy_status hr]
    exact extractLsb'_eq_ofBool (b := true) 
      ((Nat.toNat_testBit ..).symm.trans (congrArg Bool.toNat (freeStatus_busy _)))
  · rw [readRegister_idle rfl]
    exact slotWord_reset 0#6

/-- Settles O57: an idle read shows `slotWord` and has no effect; only the slots made of two bytes, ENC_ALPHA's count
and the reserved slots need more than the slot's own line. -/
theorem registerSlots : Obligations.RegisterSlots := by
  intro s hidle
  simp only [readRegister_idle hidle]
  refine ⟨fun _ => trivial, rfl, fieldAt_byte _, rfl, rfl, fieldAt_bytes _ _, fieldAt_bytes _ _, rfl,
    congrArg (BitVec.ofNat 32) (length_present s.enc), rfl, rfl, rfl, rfl,
    fun idx h => slotWord_reserved s h, fun idx h => ?_⟩
  rw [readRegister_idle rfl]
  exact (slotWord_reset idx).trans (if_neg h)

/-- Settles O58: whatever free value is read, BUSY is set in STATUS, ID is constant and only `draws` moves. -/
theorem busyReads : Obligations.BusyReads := by
  intro s r hr
  refine ⟨?_, readRegister_busy_id hr, readRegister_busy_effect hr⟩
  rw [readRegister_busy_status hr]
  exact freeStatus_busy _

end Sys2Proof.Machine
end

section
/-! SUPPORT. Each side's operations beside any other side (`20_memory.md` R74): a read-side operation with another write
side in place answers the same with that write side, and the same the other way round. One lemma for each operation and
loop; that a command leaves the other side unchanged is the case of the state's own other side. -/

namespace Sys2Proof.Machine

/-! ### Results with their state changed -/

/-- A run with its state changed by `f`. -/
def Run.map (f : State → State) : Run → Run
  | .done s => .done (f s)
  | .stall w s => .stall w (f s)

/-- A sink result with its state changed by `f`. -/
def SinkResult.map (f : State → State) : SinkResult → SinkResult
  | .ok k s => .ok k (f s)
  | .err s => .err (f s)
  | .wait b s => .wait b (f s)

/-- A source result with its state changed by `f`. -/
def SrcResult.map {α : Type} (f : State → State) : SrcResult α → SrcResult α
  | .got a s => .got a (f s)
  | .exhausted s => .exhausted (f s)
  | .err s => .err (f s)
  | .wait s => .wait (f s)

/-! ### The read side beside another write side -/

section
variable (x : State)

@[simp] theorem withWrite_self (s : State) : s.withWrite s = s := rfl
@[simp] theorem withWrite_br (s : State) : (s.withWrite x).br = s.br := rfl
@[simp] theorem withWrite_dec (s : State) : (s.withWrite x).dec = s.dec := rfl
@[simp] theorem withWrite_env_src (s : State) : (s.withWrite x).env.src = s.env.src := rfl
@[simp] theorem withWrite_env_doutRoom (s : State) : (s.withWrite x).env.doutRoom = s.env.doutRoom := rfl
@[simp] theorem withWrite_ctl_fatal (s : State) : (s.withWrite x).ctl.fatal = s.ctl.fatal := rfl
@[simp] theorem withWrite_ctl_rfail (s : State) : (s.withWrite x).ctl.rfail = s.ctl.rfail := rfl

theorem doutWrite_withWrite (b : Byte) (s : State) :
    doutWrite b (s.withWrite x) = (doutWrite b s).map (·.withWrite x) := by
  simp only [doutWrite, withWrite_env_doutRoom]
  cases s.env.doutRoom <;> rfl

theorem srcRead_withWrite (s : State) : srcRead (s.withWrite x) = (srcRead s).map (·.withWrite x) := by
  simp only [srcRead, withWrite_env_src]
  rcases s.env.src with _ | ⟨_ | _ | _, rest⟩ <;> rfl

theorem readBitInt_withWrite (s : State) : readBitInt (s.withWrite x) = (readBitInt s).map (·.withWrite x) := by
  simp only [readBitInt, withWrite_br, srcRead_withWrite]
  split
  · split
    · rfl
    · cases srcRead s <;> rfl
  · rfl

theorem readRawInt_withWrite (s : State) :
    readRawInt (s.withWrite x) = (readRawInt s).map (SrcResult.map (·.withWrite x)) := by
  simp only [readRawInt, withWrite_br, srcRead_withWrite]
  split
  · split
    · rfl
    · cases srcRead s <;> rfl
  · rfl

theorem readBitBody_withWrite (s : State) : readBitBody (s.withWrite x) = (readBitBody s).map (·.withWrite x) := by
  simp only [readBitBody, readBitInt_withWrite]
  cases readBitInt s <;> rfl

theorem readRawLoop_withWrite (cmd : Word) (left i : Nat) (s : State) :
    readRawLoop cmd left i (s.withWrite x) = (readRawLoop cmd left i s).map (·.withWrite x) := by
  induction left generalizing i s with
  | zero => rfl
  | succ left ih =>
    rw [readRawLoop, readRawLoop, readRawInt_withWrite]
    match readRawInt s with
    | .ok (.got b t) =>
      simp only [Except.map, SrcResult.map, readRawDeliver, doutWrite_withWrite]
      cases doutWrite b t with
      | none => rfl
      | some u => exact ih _ _
    | .error _ | .ok (.exhausted _) | .ok (.err _) | .ok (.wait _) => rfl

theorem readRawBody_withWrite (cmd : Word) (n : Nat) (s : State) :
    readRawBody cmd n (s.withWrite x) = (readRawBody cmd n s).map (·.withWrite x) := by
  by_cases h : s.br.nbits = 0#3 <;> simp only [readRawBody, withWrite_br, h, if_true, if_false]
  · exact readRawLoop_withWrite x cmd n 0 s
  · rfl

theorem headerByte_withWrite (cmd : Word) (w : Wait) {next : Byte → State → Run}
    (hn : ∀ b t, next b (t.withWrite x) = (next b t).map (·.withWrite x)) (s : State) :
    headerByte cmd w next (s.withWrite x) = (headerByte cmd w next s).map (·.withWrite x) := by
  rw [headerByte, headerByte, readRawInt_withWrite]
  match readRawInt s with
  | .ok (.got b t) => exact hn b t
  | .error _ | .ok (.exhausted _) | .ok (.err _) | .ok (.wait _) => rfl

theorem headerWord_withWrite (cmd : Word) (w : List Byte → Wait) {next : Word → State → Run}
    (hn : ∀ v t, next v (t.withWrite x) = (next v t).map (·.withWrite x)) (need : Nat) (got : List Byte) (s : State) :
    headerWord cmd w next need got (s.withWrite x) = (headerWord cmd w next need got s).map (·.withWrite x) := by
  induction need generalizing got s with
  | zero => exact hn _ s
  | succ need ih => exact headerByte_withWrite x cmd (w got) (fun b t => ih (got ++ [b]) t) s

theorem descInsert_withWrite {next : State → Run} (hn : ∀ t, next (t.withWrite x) = (next t).map (·.withWrite x))
    (sym : Byte) (code : Bits) (s : State) :
    descInsert next sym code (s.withWrite x) = (descInsert next sym code s).map (·.withWrite x) := by
  simp only [descInsert, resetAlignInt, withWrite_dec]
  cases dtabInsert code sym s.dec.dtab with
  | none => rfl
  | some table => exact hn { s with br := { s.br with nbits := 0#3 }, dec := { s.dec with dtab := table } }

theorem descBits_withWrite {next : State → Run} (hn : ∀ t, next (t.withWrite x) = (next t).map (·.withWrite x))
    (left : Nat) (sym : Byte) (more : Nat) (code : Bits) (s : State) :
    descBits next left sym more code (s.withWrite x) = (descBits next left sym more code s).map (·.withWrite x) := by
  induction more generalizing code s with
  | zero => exact descInsert_withWrite x hn sym code s
  | succ more ih =>
    simp only [descBits, readBitInt_withWrite]
    cases readBitInt s with
    | got v t => exact ih _ t
    | exhausted t => rfl
    | err t => rfl
    | wait t => rfl

theorem descLoop_withWrite (cmd : Word) (left : Nat) (s : State) :
    descLoop cmd left (s.withWrite x) = (descLoop cmd left s).map (·.withWrite x) := by
  induction left generalizing s with
  | zero => rfl
  | succ left ih =>
    exact headerByte_withWrite x cmd _ (fun sym t =>
      headerByte_withWrite x cmd _ (fun len u => descBits_withWrite x ih left sym len.toNat [] u) t) s

theorem alphaKnown_withWrite (cmd v : Word) (s : State) :
    alphaKnown cmd v (s.withWrite x) = (alphaKnown cmd v s).map (·.withWrite x) :=
  descLoop_withWrite x cmd v.toNat { s with dec := { s.dec with alpha := v } }

theorem countKnown_withWrite (cmd v : Word) (s : State) :
    countKnown cmd v (s.withWrite x) = (countKnown cmd v s).map (·.withWrite x) :=
  headerWord_withWrite x cmd .headerAlpha (alphaKnown_withWrite x cmd) 4 []
    { s with dec := { s.dec with declared := v } }

theorem decOpenBody_withWrite (cmd : Word) (s : State) :
    decOpenBody cmd (s.withWrite x) = (decOpenBody cmd s).map (·.withWrite x) :=
  headerWord_withWrite x cmd .headerCount (countKnown_withWrite x cmd) 4 [] (freshSession s)

theorem matchLoop_withWrite (fuel : Nat) (s : State) :
    matchLoop fuel (s.withWrite x) = (matchLoop fuel s).map (·.withWrite x) := by
  induction fuel generalizing s with
  | zero => rfl
  | succ fuel ih =>
    simp only [matchLoop, withWrite_dec, readBitInt_withWrite]
    cases dtabLookup s.dec.cand s.dec.dtab with
    | some sym => rfl
    | none =>
      cases readBitInt s with
      | got v t => exact ih { t with dec := { t.dec with cand := candAppend t.dec.cand v } }
      | exhausted t => rfl
      | err t => rfl
      | wait t => rfl

theorem matchSymbol_withWrite (s : State) : matchSymbol (s.withWrite x) = (matchSymbol s).map (·.withWrite x) :=
  matchLoop_withWrite x (readFuel s) s

theorem drainLoop_withWrite (fuel : Nat) (s : State) :
    drainLoop fuel (s.withWrite x) = (drainLoop fuel s).map (·.withWrite x) := by
  induction fuel generalizing s with
  | zero => rfl
  | succ fuel ih =>
    simp only [drainLoop, readBitInt_withWrite]
    cases readBitInt s with
    | got v t => exact ih t
    | exhausted t => rfl
    | err t => rfl
    | wait t => rfl

theorem drainBody_withWrite (k : Nat) (s : State) :
    drainBody k (s.withWrite x) = (drainBody k s).map (·.withWrite x) := by
  have h := drainLoop_withWrite x (readFuel s) s
  have hf : readFuel (s.withWrite x) = readFuel s := rfl
  simp only [drainBody, hf, h]
  cases drainLoop (readFuel s) s with
  | got v t => exact v.elim
  | exhausted t => rfl
  | err t => rfl
  | wait t => rfl

theorem decReadLoop_withWrite (left k : Nat) (s : State) :
    decReadLoop left k (s.withWrite x) = (decReadLoop left k s).map (·.withWrite x) := by
  induction left generalizing k s with
  | zero => rfl
  | succ left ih =>
    have hm := matchSymbol_withWrite x (clearCandidate s)
    have hc : clearCandidate (s.withWrite x) = (clearCandidate s).withWrite x := rfl
    rw [decReadLoop, decReadLoop, withWrite_dec, hc, hm]
    split
    · exact drainBody_withWrite x k s
    · cases matchSymbol (clearCandidate s) with
      | got sym t =>
        simp only [SrcResult.map, matchAfter, emitSymbol, doutWrite_withWrite]
        cases doutWrite sym t with
        | none => rfl
        | some u => exact ih (k + 1) { u with dec := { u.dec with emitted := u.dec.emitted + 1#32 } }
      | exhausted t => rfl
      | err t => rfl
      | wait t => rfl

/-- The gate of a read-side command looks at no part of the write side (R232). -/
theorem gate_withWrite {i : Instr} (hi : sideOf i = .read) (s : State) : gate i (s.withWrite x) = gate i s := by
  have hc : stateCheck i (s.withWrite x) = stateCheck i s := by cases i <;> cases hi <;> rfl
  simp [gate, hi, hc]

theorem runCommand_withWrite {i : Instr} (hi : sideOf i = .read) {body : State → Run}
    (hb : ∀ s, body (s.withWrite x) = (body s).map (·.withWrite x)) (s : State) :
    runCommand i body (s.withWrite x) = (runCommand i body s).withWrite x := by
  have hg : gated i body (s.withWrite x) = (gated i body s).map (·.withWrite x) := by
    rw [gated, gated, gate_withWrite x hi]
    cases h : gate i s with
    | writeFailed =>
      obtain ⟨_, _, hw⟩ := gate_writeFailed h
      rw [hi] at hw; cases hw
    | proceed => exact hb s
    | refuse => rfl
    | readFailed => rfl
    | violation f => rfl
    | noOp => rfl
  rw [runCommand, runCommand, hg]
  cases gated i body s <;> rfl

theorem exec_withWrite {i : Instr} (hi : sideOf i = .read) {s t : State} (h : exec i s = .next t) :
    exec i (s.withWrite x) = .next (t.withWrite x) := by
  cases i <;> cases hi <;> cases h
  case brReadBit => exact congrArg _ (runCommand_withWrite x rfl (readBitBody_withWrite x) s)
  case brReadRaw n => exact congrArg _ (runCommand_withWrite x rfl (readRawBody_withWrite x _ n) s)
  case brResetAlign => exact congrArg _ (runCommand_withWrite x rfl (fun _ => rfl) s)
  case decOpen => exact congrArg _ (runCommand_withWrite x rfl (decOpenBody_withWrite x _) s)
  case decRead n => exact congrArg _ (runCommand_withWrite x rfl (decReadLoop_withWrite x n 0) s)

end

/-- A read-side command leaves the write side as it was: beside its own write side it answers with that one. -/
theorem exec_read_keeps_write {i : Instr} (hi : sideOf i = .read) {s t : State} (h : exec i s = .next t) :
    t.withWrite s = t := by
  have hs := exec_withWrite s hi h
  rw [withWrite_self, h] at hs
  exact (Host.Outcome.next.inj hs).symm

/-! ### The write side beside another read side -/

section
variable (x : State)

@[simp] theorem withRead_self (s : State) : s.withRead s = s := rfl
@[simp] theorem withRead_bw (s : State) : (s.withRead x).bw = s.bw := rfl
@[simp] theorem withRead_enc (s : State) : (s.withRead x).enc = s.enc := rfl
@[simp] theorem withRead_encBufBytes (s : State) : (s.withRead x).encBufBytes = s.encBufBytes := rfl
@[simp] theorem withRead_env_din (s : State) : (s.withRead x).env.din = s.env.din := rfl
@[simp] theorem withRead_env_sinkAns (s : State) : (s.withRead x).env.sinkAns = s.env.sinkAns := rfl
@[simp] theorem withRead_ctl_fatal (s : State) : (s.withRead x).ctl.fatal = s.ctl.fatal := rfl
@[simp] theorem withRead_ctl_wfail (s : State) : (s.withRead x).ctl.wfail = s.ctl.wfail := rfl

theorem dinRead_withRead (s : State) :
    dinRead (s.withRead x) = (dinRead s).map (Prod.map id (·.withRead x)) := by
  simp only [dinRead, withRead_env_din]
  cases s.env.din <;> rfl

theorem sinkWrite_withRead (b : Byte) (s : State) :
    sinkWrite b (s.withRead x) = (sinkWrite b s).map (·.withRead x) := by
  simp only [sinkWrite, withRead_env_sinkAns]
  rcases s.env.sinkAns with _ | ⟨_ | _, rest⟩ <;> rfl

theorem writeBitInt_withRead (v : Bool) (s : State) :
    writeBitInt v (s.withRead x) = (writeBitInt v s).map (·.withRead x) := by
  by_cases h : s.bw.nbits = 7#3 <;> simp only [writeBitInt, withRead_bw, h, if_true, if_false]
  · exact sinkWrite_withRead x _ { s with bw := BitWriter.reset }
  · rfl

theorem flushInt_withRead (s : State) : flushInt (s.withRead x) = (flushInt s).map (·.withRead x) := by
  by_cases h : s.bw.nbits = 0#3 <;> simp only [flushInt, withRead_bw, h, if_true, if_false]
  · rfl
  · exact sinkWrite_withRead x _ { s with bw := BitWriter.reset }

theorem discardDin_withRead (e : Ending) (left : Nat) (s : State) :
    discardDin e left (s.withRead x) = (discardDin e left s).map (·.withRead x) := by
  induction left generalizing s with
  | zero => cases e <;> rfl
  | succ left ih =>
    simp only [discardDin, dinRead_withRead]
    cases dinRead s with
    | none => rfl
    | some p => exact ih p.2

theorem writeBitBody_withRead (cmd : Word) (c : Byte) (s : State) :
    writeBitBody cmd c (s.withRead x) = (writeBitBody cmd c s).map (·.withRead x) := by
  simp only [writeBitBody, writeBitInt_withRead]
  cases bitOfChar c with
  | none => rfl
  | some v =>
    simp only
    cases writeBitInt v s <;> rfl

theorem flushBody_withRead (s : State) :
    flushAfter (flushInt (s.withRead x)) = (flushAfter (flushInt s)).map (·.withRead x) := by
  rw [flushInt_withRead]
  cases flushInt s <;> rfl

theorem writeBitsLoop_withRead (cmd : Word) (left i : Nat) (s : State) :
    writeBitsLoop cmd left i (s.withRead x) = (writeBitsLoop cmd left i s).map (·.withRead x) := by
  induction left generalizing i s with
  | zero => rfl
  | succ left ih =>
    simp only [writeBitsLoop, dinRead_withRead]
    cases dinRead s with
    | none => rfl
    | some p =>
      simp only [Option.map_some, Prod.map_fst, Prod.map_snd, id_eq, writeBitInt_withRead]
      cases bitOfChar p.1 with
      | none => rfl
      | some v =>
        simp only
        cases writeBitInt v p.2 with
        | ok k t => exact ih _ t
        | err t => exact discardDin_withRead x _ _ t
        | wait b t => rfl

theorem writeRawLoop_withRead (left i : Nat) (s : State) :
    writeRawLoop left i (s.withRead x) = (writeRawLoop left i s).map (·.withRead x) := by
  induction left generalizing i s with
  | zero => rfl
  | succ left ih =>
    simp only [writeRawLoop, dinRead_withRead]
    cases dinRead s with
    | none => rfl
    | some p =>
      simp only [Option.map_some, Prod.map_fst, Prod.map_snd, id_eq, sinkWrite_withRead]
      cases sinkWrite p.1 p.2 with
      | ok k t => exact ih _ t
      | err t => exact discardDin_withRead x _ _ t
      | wait b t => rfl

theorem writeRawBody_withRead (cmd : Word) (n : Nat) (s : State) :
    writeRawBody cmd n (s.withRead x) = (writeRawBody cmd n s).map (·.withRead x) := by
  by_cases h : s.bw.nbits = 0#3 <;> simp only [writeRawBody, withRead_bw, h, if_true, if_false]
  · exact writeRawLoop_withRead x n 0 s
  · rfl

theorem encWriteLoop_withRead (n left : Nat) (s : State) :
    encWriteLoop n left (s.withRead x) = (encWriteLoop n left s).map (·.withRead x) := by
  induction left generalizing s with
  | zero => rfl
  | succ left ih =>
    simp only [encWriteLoop, dinRead_withRead]
    cases dinRead s with
    | none => rfl
    | some p => exact ih { p.2 with enc := p.2.enc.push p.1 }

theorem encWriteBody_withRead (n : Nat) (s : State) :
    encWriteBody n (s.withRead x) = (encWriteBody n s).map (·.withRead x) := by
  by_cases h : s.encBufBytes.toNat < s.enc.buf.length + n <;>
    simp only [encWriteBody, withRead_enc, withRead_encBufBytes, h, if_true, if_false]
  · exact discardDin_withRead x _ n s
  · exact encWriteLoop_withRead x n n s

theorem emitFail_withRead (out : Nat) (s : State) :
    emitFail out (s.withRead x) = (emitFail out s).map (·.withRead x) := by
  simp only [emitFail, countResult]
  split <;> rfl

theorem emitDone_withRead (out : Nat) (s : State) :
    emitDone out (s.withRead x) = (emitDone out s).map (·.withRead x) := by
  simp only [emitDone, countResult]
  split <;> rfl

theorem emitAfter_withRead {next : Nat → State → Run}
    (hn : ∀ k t, next k (t.withRead x) = (next k t).map (·.withRead x)) (out : Nat) (todo : List Emit)
    (r : SinkResult) :
    emitAfter next out todo (r.map (·.withRead x)) = (emitAfter next out todo r).map (·.withRead x) := by
  cases r with
  | ok k t => exact hn _ t
  | err t => exact emitFail_withRead x out t
  | wait b t => rfl

theorem emitLoop_withRead (cmd : Word) (todo : List Emit) (out : Nat) (s : State) :
    emitLoop cmd todo out (s.withRead x) = (emitLoop cmd todo out s).map (·.withRead x) := by
  induction todo generalizing out s with
  | nil => exact emitDone_withRead x out s
  | cons op todo ih =>
    cases op with
    | raw b =>
      by_cases h : s.bw.nbits = 0#3 <;>
        simp only [emitLoop, writeRawInt, withRead_bw, h, sinkWrite_withRead, if_true, if_false]
      · exact emitAfter_withRead x ih out todo _
      · rfl
    | bit v => rw [emitLoop, writeBitInt_withRead]; exact emitAfter_withRead x ih out todo _
    | flush => rw [emitLoop, flushInt_withRead]; exact emitAfter_withRead x ih out todo _

theorem encFinalizeBody_withRead (cmd : Word) (s : State) :
    encFinalizeBody cmd (s.withRead x) = (encFinalizeBody cmd s).map (·.withRead x) :=
  emitLoop_withRead x cmd _ 0 { s with enc := s.enc.derive }

/-- The gate of a write-side command looks at no part of the read side (R232). -/
theorem gate_withRead {i : Instr} (hi : sideOf i = .write) (s : State) : gate i (s.withRead x) = gate i s := by
  have hc : stateCheck i (s.withRead x) = stateCheck i s := by cases i <;> cases hi <;> rfl
  simp [gate, hi, hc]

theorem runCommand_withRead {i : Instr} (hi : sideOf i = .write) {body : State → Run}
    (hb : ∀ s, body (s.withRead x) = (body s).map (·.withRead x)) (s : State) :
    runCommand i body (s.withRead x) = (runCommand i body s).withRead x := by
  have hg : gated i body (s.withRead x) = (gated i body s).map (·.withRead x) := by
    rw [gated, gated, gate_withRead x hi]
    cases h : gate i s with
    | writeFailed => exact discardDin_withRead x _ _ s
    | readFailed =>
      obtain ⟨_, _, hr⟩ := gate_readFailed h
      rw [hi] at hr; cases hr
    | proceed => exact hb s
    | refuse => rfl
    | violation f => rfl
    | noOp => rfl
  rw [runCommand, runCommand, hg]
  cases gated i body s <;> rfl

theorem exec_withRead {i : Instr} (hi : sideOf i = .write) {s t : State} (h : exec i s = .next t) :
    exec i (s.withRead x) = .next (t.withRead x) := by
  cases i <;> cases hi
  case encFinalize =>
    have hr := runCommand_withRead x (i := .encFinalize) rfl (encFinalizeBody_withRead x (encode .encFinalize)) s
    have hg := gate_withRead x (i := .encFinalize) rfl s
    simp only [exec, execEncFinalize] at h
    split at h
    · cases h
    · next hv =>
      cases h
      simp only [exec, execEncFinalize, hg, withRead_enc, hr, if_neg hv]
  all_goals cases h
  case bwWriteBit c => exact congrArg _ (runCommand_withRead x rfl (writeBitBody_withRead x _ c) s)
  case bwWriteBits n => exact congrArg _ (runCommand_withRead x rfl (writeBitsLoop_withRead x _ n 0) s)
  case bwWriteRaw n => exact congrArg _ (runCommand_withRead x rfl (writeRawBody_withRead x _ n) s)
  case bwFlush => exact congrArg _ (runCommand_withRead x rfl (flushBody_withRead x) s)
  case bwClose => exact congrArg _ (runCommand_withRead x rfl (flushBody_withRead x) s)
  case encOpen => exact congrArg _ (runCommand_withRead x rfl (fun _ => rfl) s)
  case encWrite n => exact congrArg _ (runCommand_withRead x rfl (encWriteBody_withRead x n) s)

end

/-- A write-side command leaves the read side as it was: beside its own read side it answers with that one. -/
theorem exec_write_keeps_read {i : Instr} (hi : sideOf i = .write) {s t : State} (h : exec i s = .next t) :
    t.withRead s = t := by
  have hs := exec_withRead s hi h
  rw [withRead_self, h] at hs
  exact (Host.Outcome.next.inj hs).symm

end Sys2Proof.Machine
end

section
/-! SUPPORT. What every command's body is made of: the moves of the micro-operations, one lemma for each loop, so that
what each move keeps a body keeps (`20_memory.md` R64 to R67, R72). -/

namespace Sys2Proof.Machine

/-- The state a run has come to. -/
def Run.state : Run → State
  | .done s => s
  | .stall _ s => s

/-- The state a sink result leaves. -/
def SinkResult.state : SinkResult → State
  | .ok _ s => s
  | .err s => s
  | .wait _ s => s

/-- The state a source result leaves. -/
def SrcResult.state {α : Type} : SrcResult α → State
  | .got _ s => s
  | .exhausted s => s
  | .err s => s
  | .wait s => s

/-- One move of a running command: a transaction of a stream, a write to one unit's registers, or a command's end.
What an OPEN command does to a latched failure (R170, R191) is no move. -/
inductive Move : State → State → Prop
  | din {s t : State} {b : Byte} (h : dinRead s = some (b, t)) : Move s t
  | dout {s t : State} {b : Byte} (h : doutWrite b s = some t) : Move s t
  | sink (b : Byte) (s : State) : Move s (sinkWrite b s).state
  | source (s : State) : Move s (srcRead s).state
  | writer (w : BitWriter) (s : State) : Move s { s with bw := w }
  | reader (r : BitReader) (s : State) : Move s { s with br := r }
  | encoder (e : Encoder) (s : State) : Move s { s with enc := e }
  | decoder (d : Decoder) (s : State) : Move s { s with dec := d }
  | draw (n : Nat) (s : State) : Move s { s with draws := n }
  | complete (c : Byte) (r : Word) (s : State) : Move s (complete c r s)
  | raise (f : Status) (w : Word) (n : Nat) (x : Byte) (s : State) : Move s (raise f w n x s)
  | writeFail (f : Status) (r : Word) (s : State) : Move s (writeFail f r s)
  | readFail (f : Status) (r : Word) (s : State) : Move s (readFail f r s)

/-- Any number of moves. -/
abbrev Moves : State → State → Prop := Relation.ReflTransGen Move

theorem Move.then {s t u : State} (h : Move s t) (ht : Moves t u) : Moves s u := ht.head h

theorem Move.moves {s t : State} (h : Move s t) : Moves s t := .single h

/-! ### Micro-operations -/

theorem writeBitInt_moves (v : Bool) (s : State) : Moves s (writeBitInt v s).state := by
  unfold writeBitInt
  split
  · exact (Move.writer BitWriter.reset s).then (Move.sink _ _).moves
  · exact (Move.writer _ s).moves

theorem flushInt_moves (s : State) : Moves s (flushInt s).state := by
  unfold flushInt
  split
  · exact .refl
  · exact (Move.writer BitWriter.reset s).then (Move.sink _ _).moves

theorem readBitInt_moves (s : State) : Moves s (readBitInt s).state := by
  unfold readBitInt
  split
  · split
    · exact .refl
    · refine (Move.source s).then ?_
      cases srcRead s with
      | got b t => exact (Move.reader _ t).moves
      | exhausted t => exact (Move.reader _ t).moves
      | err t => exact .refl
      | wait t => exact .refl
  · exact (Move.reader _ s).moves

theorem readRawInt_moves {s : State} {r : SrcResult Byte} (h : readRawInt s = .ok r) : Moves s r.state := by
  unfold readRawInt at h
  split at h
  · split at h
    · cases h; exact .refl
    · refine (Move.source s).then ?_
      cases hr : srcRead s with
      | exhausted t => rw [hr] at h; cases h; exact (Move.reader _ t).moves
      | got b t => rw [hr] at h; cases h; exact .refl
      | err t => rw [hr] at h; cases h; exact .refl
      | wait t => rw [hr] at h; cases h; exact .refl
  · cases h

/-! ### Write-side loops -/

theorem endWith_moves (e : Ending) (s : State) : Moves s (endWith e s) := by
  cases e with
  | complete c => exact (Move.complete c _ s).moves
  | writeFail f n => exact (Move.writeFail f _ s).moves

theorem discardDin_moves (e : Ending) (left : Nat) (s : State) : Moves s (discardDin e left s).state := by
  induction left generalizing s with
  | zero => exact endWith_moves e s
  | succ left ih =>
    rw [discardDin]
    cases h : dinRead s with
    | none => exact .refl
    | some p => exact (Move.din h).then (ih p.2)

theorem writeBitAfter_moves (r : SinkResult) : Moves r.state (writeBitAfter r).state := by
  cases r with
  | ok k t => exact (Move.complete _ _ t).moves
  | err t => exact (Move.writeFail _ _ t).moves
  | wait b t => exact .refl

theorem flushAfter_moves (r : SinkResult) : Moves r.state (flushAfter r).state := by
  cases r with
  | ok k t => exact (Move.complete _ _ t).moves
  | err t => exact (Move.writeFail _ _ t).moves
  | wait b t => exact .refl

theorem flushBody_moves (s : State) : Moves s (flushAfter (flushInt s)).state :=
  (flushInt_moves s).trans (flushAfter_moves _)

theorem writeBitBody_moves (cmd : Word) (c : Byte) (s : State) : Moves s (writeBitBody cmd c s).state := by
  rw [writeBitBody]
  cases bitOfChar c with
  | none => exact (Move.raise _ _ _ _ s).moves
  | some v => exact (writeBitInt_moves v s).trans (writeBitAfter_moves _)

theorem writeBitsAfter_moves {next : State → Run} (hn : ∀ t, Moves t (next t).state) (i left : Nat) (r : SinkResult) :
    Moves r.state (writeBitsAfter next i left r).state := by
  cases r with
  | ok k t => exact hn t
  | err t => exact discardDin_moves _ left t
  | wait b t => exact .refl

theorem writeBitsLoop_moves (cmd : Word) (left i : Nat) (s : State) : Moves s (writeBitsLoop cmd left i s).state := by
  induction left generalizing i s with
  | zero => exact (Move.complete _ _ s).moves
  | succ left ih =>
    rw [writeBitsLoop]
    cases h : dinRead s with
    | none => exact .refl
    | some p =>
      refine (Move.din h).then ?_
      simp only
      cases bitOfChar p.1 with
      | none => exact (Move.raise _ _ _ _ p.2).moves
      | some v => exact (writeBitInt_moves v p.2).trans (writeBitsAfter_moves (ih (i + 1)) i left _)

theorem writeRawAfter_moves {next : State → Run} (hn : ∀ t, Moves t (next t).state) (i left : Nat) (r : SinkResult) :
    Moves r.state (writeRawAfter next i left r).state := by
  cases r with
  | ok k t => exact hn t
  | err t => exact discardDin_moves _ left t
  | wait b t => exact .refl

theorem writeRawLoop_moves (left i : Nat) (s : State) : Moves s (writeRawLoop left i s).state := by
  induction left generalizing i s with
  | zero => exact (Move.complete _ _ s).moves
  | succ left ih =>
    rw [writeRawLoop]
    cases h : dinRead s with
    | none => exact .refl
    | some p => exact (Move.din h).then ((Move.sink p.1 p.2).then (writeRawAfter_moves (ih (i + 1)) i left _))

theorem writeRawBody_moves (cmd : Word) (n : Nat) (s : State) : Moves s (writeRawBody cmd n s).state := by
  unfold writeRawBody
  split
  · exact writeRawLoop_moves n 0 s
  · exact (Move.raise _ _ _ _ s).moves

theorem encWriteLoop_moves (n left : Nat) (s : State) : Moves s (encWriteLoop n left s).state := by
  induction left generalizing s with
  | zero => exact (Move.complete _ _ s).moves
  | succ left ih =>
    rw [encWriteLoop]
    cases h : dinRead s with
    | none => exact .refl
    | some p => exact (Move.din h).then ((Move.encoder (p.2.enc.push p.1) p.2).then (ih _))

theorem encWriteBody_moves (n : Nat) (s : State) : Moves s (encWriteBody n s).state := by
  unfold encWriteBody
  split
  · exact discardDin_moves _ n s
  · exact encWriteLoop_moves n n s

theorem countResult_moves (out : Nat) (s : State) : Moves s (countResult out s).2 := by
  unfold countResult
  split
  · exact .refl
  · exact (Move.draw _ s).moves

theorem emitAfter_moves {next : Nat → State → Run} (hn : ∀ k t, Moves t (next k t).state) (out : Nat)
    (todo : List Emit) (r : SinkResult) : Moves r.state (emitAfter next out todo r).state := by
  cases r with
  | ok k t => exact hn _ t
  | err t => exact (countResult_moves out t).trans (Move.writeFail _ _ _).moves
  | wait b t => exact .refl

theorem emitLoop_moves (cmd : Word) (todo : List Emit) (out : Nat) (s : State) :
    Moves s (emitLoop cmd todo out s).state := by
  induction todo generalizing out s with
  | nil =>
    exact (countResult_moves out s).trans ((Move.encoder _ _).then (Move.complete _ _ _).moves)
  | cons op todo ih =>
    cases op with
    | raw b =>
      rw [emitLoop]
      by_cases h : s.bw.nbits = 0#3
      · rw [writeRawInt_aligned h]
        exact (Move.sink b s).then (emitAfter_moves ih out todo _)
      · rw [writeRawInt_misaligned h]
        exact (Move.raise _ _ _ _ s).moves
    | bit v => exact (writeBitInt_moves v s).trans (emitAfter_moves ih out todo _)
    | flush => exact (flushInt_moves s).trans (emitAfter_moves ih out todo _)

theorem encFinalizeBody_moves (cmd : Word) (s : State) : Moves s (encFinalizeBody cmd s).state :=
  (Move.encoder s.enc.derive s).then (emitLoop_moves cmd _ 0 _)

/-! ### Read-side loops -/

theorem readBitBody_moves (s : State) : Moves s (readBitBody s).state := by
  refine (readBitInt_moves s).trans ?_
  rw [readBitBody]
  cases readBitInt s with
  | got v t => exact (Move.complete _ _ t).moves
  | exhausted t => exact (Move.complete _ _ t).moves
  | err t => exact (Move.readFail _ _ t).moves
  | wait t => exact .refl

theorem readRawDeliver_moves {next : State → Run} (hn : ∀ t, Moves t (next t).state) (b : Byte) (i left : Nat)
    (s : State) : Moves s (readRawDeliver next b i left s).state := by
  rw [readRawDeliver]
  cases h : doutWrite b s with
  | none => exact .refl
  | some t => exact (Move.dout h).then (hn t)

theorem readRawLoop_moves (cmd : Word) (left i : Nat) (s : State) : Moves s (readRawLoop cmd left i s).state := by
  induction left generalizing i s with
  | zero => exact (Move.complete _ _ s).moves
  | succ left ih =>
    rw [readRawLoop]
    match h : readRawInt s with
    | .error p => exact (Move.raise _ _ _ _ s).moves
    | .ok (.got b t) => exact (readRawInt_moves h).trans (readRawDeliver_moves (ih (i + 1)) b i left t)
    | .ok (.exhausted t) => exact (readRawInt_moves h).trans (Move.complete _ _ t).moves
    | .ok (.err t) => exact (readRawInt_moves h).trans (Move.readFail _ _ t).moves
    | .ok (.wait t) => exact readRawInt_moves h

theorem readRawBody_moves (cmd : Word) (n : Nat) (s : State) : Moves s (readRawBody cmd n s).state := by
  unfold readRawBody
  split
  · exact readRawLoop_moves cmd n 0 s
  · exact (Move.raise _ _ _ _ s).moves

theorem resetAlignBody_moves (s : State) : Moves s (resetAlignBody s).state :=
  (Move.reader _ s).then (Move.complete _ _ _).moves

theorem headerByte_moves (cmd : Word) (w : Wait) {next : Byte → State → Run} (hn : ∀ b t, Moves t (next b t).state)
    (s : State) : Moves s (headerByte cmd w next s).state := by
  rw [headerByte]
  match h : readRawInt s with
  | .error p => exact (Move.raise _ _ _ _ s).moves
  | .ok (.got b t) => exact (readRawInt_moves h).trans (hn b t)
  | .ok (.exhausted t) => exact (readRawInt_moves h).trans (Move.readFail _ _ t).moves
  | .ok (.err t) => exact (readRawInt_moves h).trans (Move.readFail _ _ t).moves
  | .ok (.wait t) => exact readRawInt_moves h

theorem headerWord_moves (cmd : Word) (w : List Byte → Wait) {next : Word → State → Run}
    (hn : ∀ v t, Moves t (next v t).state) (need : Nat) (got : List Byte) (s : State) :
    Moves s (headerWord cmd w next need got s).state := by
  induction need generalizing got s with
  | zero => exact hn _ s
  | succ need ih => exact headerByte_moves cmd (w got) (fun b t => ih (got ++ [b]) t) s

theorem descInsert_moves {next : State → Run} (hn : ∀ t, Moves t (next t).state) (sym : Byte) (code : Bits)
    (s : State) : Moves s (descInsert next sym code s).state := by
  refine (Move.reader { s.br with nbits := 0#3 } s).then ?_
  simp only [descInsert, resetAlignInt]
  cases dtabInsert code sym s.dec.dtab with
  | none => exact (Move.readFail _ _ _).moves
  | some table => exact (Move.decoder _ _).then (hn _)

theorem descBits_moves {next : State → Run} (hn : ∀ t, Moves t (next t).state) (left : Nat) (sym : Byte) (more : Nat)
    (code : Bits) (s : State) : Moves s (descBits next left sym more code s).state := by
  induction more generalizing code s with
  | zero => exact descInsert_moves hn sym code s
  | succ more ih =>
    refine (readBitInt_moves s).trans ?_
    rw [descBits]
    cases readBitInt s with
    | got v t => exact ih _ t
    | exhausted t => exact (Move.readFail _ _ t).moves
    | err t => exact (Move.readFail _ _ t).moves
    | wait t => exact .refl

theorem descLength_moves (cmd : Word) {next : State → Run} (hn : ∀ t, Moves t (next t).state) (left : Nat)
    (sym : Byte) (s : State) : Moves s (descLength cmd next left sym s).state :=
  headerByte_moves cmd _ (fun len t => descBits_moves hn left sym len.toNat [] t) s

theorem descLoop_moves (cmd : Word) (left : Nat) (s : State) : Moves s (descLoop cmd left s).state := by
  induction left generalizing s with
  | zero => exact (Move.decoder _ s).then (Move.complete _ _ _).moves
  | succ left ih => exact headerByte_moves cmd _ (fun sym t => descLength_moves cmd ih left sym t) s

theorem alphaKnown_moves (cmd v : Word) (s : State) : Moves s (alphaKnown cmd v s).state :=
  (Move.decoder _ s).then (descLoop_moves cmd v.toNat _)

theorem countKnown_moves (cmd v : Word) (s : State) : Moves s (countKnown cmd v s).state :=
  (Move.decoder _ s).then (headerWord_moves cmd .headerAlpha (alphaKnown_moves cmd) 4 [] _)

/-- DEC.OPEN moves on from its fresh session, which also clears RFAIL (R191). -/
theorem decOpenBody_moves (cmd : Word) (s : State) : Moves (freshSession s) (decOpenBody cmd s).state :=
  headerWord_moves cmd .headerCount (countKnown_moves cmd) 4 [] (freshSession s)

theorem matchLoop_moves (fuel : Nat) (s : State) : Moves s (matchLoop fuel s).state := by
  induction fuel generalizing s with
  | zero => exact .refl
  | succ fuel ih =>
    rw [matchLoop]
    cases dtabLookup s.dec.cand s.dec.dtab with
    | some sym => exact .refl
    | none =>
      refine (readBitInt_moves s).trans ?_
      cases readBitInt s with
      | got v t => exact (Move.decoder { t.dec with cand := candAppend t.dec.cand v } t).then (ih _)
      | exhausted t => exact .refl
      | err t => exact .refl
      | wait t => exact .refl

theorem matchSymbol_moves (s : State) : Moves s (matchSymbol s).state := matchLoop_moves (readFuel s) s

theorem drainLoop_moves (fuel : Nat) (s : State) : Moves s (drainLoop fuel s).state := by
  induction fuel generalizing s with
  | zero => exact .refl
  | succ fuel ih =>
    refine (readBitInt_moves s).trans ?_
    rw [drainLoop]
    cases readBitInt s with
    | got v t => exact ih t
    | exhausted t => exact .refl
    | err t => exact .refl
    | wait t => exact .refl

theorem drainBody_moves (k : Nat) (s : State) : Moves s (drainBody k s).state := by
  refine (drainLoop_moves (readFuel s) s).trans ?_
  rw [drainBody]
  cases drainLoop (readFuel s) s with
  | got v t => exact v.elim
  | exhausted t => exact (Move.decoder _ t).then (Move.complete _ _ _).moves
  | err t => exact (Move.readFail _ _ t).moves
  | wait t => exact .refl

theorem emitSymbol_moves {next : State → Run} (hn : ∀ t, Moves t (next t).state) (sym : Byte) (k left : Nat)
    (s : State) : Moves s (emitSymbol next sym k left s).state := by
  rw [emitSymbol]
  cases h : doutWrite sym s with
  | none => exact .refl
  | some t => exact (Move.dout h).then ((Move.decoder _ t).then (hn _))

theorem matchAfter_moves {next : State → Run} (hn : ∀ t, Moves t (next t).state) (k left : Nat)
    (r : SrcResult Byte) : Moves r.state (matchAfter next k left r).state := by
  cases r with
  | got sym t => exact emitSymbol_moves hn sym k left t
  | exhausted t => exact (Move.readFail _ _ t).moves
  | err t => exact (Move.readFail _ _ t).moves
  | wait t => exact .refl

theorem decReadLoop_moves (left k : Nat) (s : State) : Moves s (decReadLoop left k s).state := by
  induction left generalizing k s with
  | zero => exact (Move.complete _ _ s).moves
  | succ left ih =>
    rw [decReadLoop]
    split
    · exact drainBody_moves k s
    · exact (Move.decoder { s.dec with cand := .bits [] } s).then
        ((matchSymbol_moves _).trans (matchAfter_moves (ih (k + 1)) k left _))

/-! ### The gate and the stalled command -/

/-- A command does what its body does, or its gate ends it with moves of its own (R232). -/
theorem gated_cases (i : Instr) (body : State → Run) (s : State) :
    (gate i s = .proceed ∧ gated i body s = body s) ∨ Moves s (gated i body s).state := by
  rw [gated]
  cases gate i s with
  | proceed => exact .inl ⟨rfl, rfl⟩
  | refuse => exact .inr (Move.complete _ _ s).moves
  | writeFailed => exact .inr (discardDin_moves _ _ s)
  | readFailed => exact .inr (Move.complete _ _ s).moves
  | violation f => exact .inr (Move.raise _ _ _ _ s).moves
  | noOp => exact .inr (Move.complete _ _ s).moves

/-- A stalled command goes on with the moves of its loop (R72). -/
theorem resume_moves (cmd : Word) (w : Wait) (s : State) : Moves s (resume cmd w s).state := by
  cases w with
  | discard left e => exact discardDin_moves e left s
  | writeBit b => exact (Move.sink b s).then (writeBitAfter_moves _)
  | writeBitsDin i left => exact writeBitsLoop_moves cmd left i s
  | writeBitsSink b i left =>
    exact (Move.sink b s).then (writeBitsAfter_moves (writeBitsLoop_moves cmd left (i + 1)) i left _)
  | writeRawDin i left => exact writeRawLoop_moves left i s
  | writeRawSink b i left => exact (Move.sink b s).then (writeRawAfter_moves (writeRawLoop_moves left (i + 1)) i left _)
  | flush b => exact (Move.sink b s).then (flushAfter_moves _)
  | readBit => exact readBitBody_moves s
  | readRawSrc i left => exact readRawLoop_moves cmd left i s
  | readRawDout b i left => exact readRawDeliver_moves (readRawLoop_moves cmd left (i + 1)) b i left s
  | encWrite n left => exact encWriteLoop_moves n left s
  | encEmit b out todo => exact (Move.sink b s).then (emitAfter_moves (emitLoop_moves cmd todo) out todo _)
  | headerCount got => exact headerWord_moves cmd _ (countKnown_moves cmd) _ got s
  | headerAlpha got => exact headerWord_moves cmd _ (alphaKnown_moves cmd) _ got s
  | descSymbol left => exact descLoop_moves cmd left s
  | descLength left sym => exact descLength_moves cmd (descLoop_moves cmd left) left sym s
  | descBits left sym more code => exact descBits_moves (descLoop_moves cmd left) left sym more code s
  | matchBit k left => exact (matchSymbol_moves s).trans (matchAfter_moves (decReadLoop_moves left (k + 1)) k left _)
  | emitSymbol sym k left => exact emitSymbol_moves (decReadLoop_moves left (k + 1)) sym k left s
  | drain k => exact drainBody_moves k s

end Sys2Proof.Machine
end

section
/-! SUPPORT. Streams only advance (`20_memory.md` R64 to R67, R71). -/

namespace Sys2Proof.Machine

/-- From `a` to `b` each stream but CMD is consumed from its front and counted, or grows at its end by what has been
accepted (R64 to R67, R71). -/
structure Streams.Advances (a b : Streams) : Prop where
  cmd : b.cmd = a.cmd
  din : ∃ n, n ≤ a.din.length ∧ b.din = a.din.drop n ∧ b.dinTaken = a.dinTaken + n
  dout : ∃ bs, b.dout = a.dout ++ bs ∧ a.doutRoom = b.doutRoom + bs.length
  sink : ∃ n bs, b.sinkAns = a.sinkAns.drop n ∧ b.sink = a.sink ++ bs ∧ bs.length = (a.sinkAns.take n).count .ack
  src : ∃ n, b.src = a.src.drop n ∧ b.srcTaken = a.srcTaken + ((a.src.take n).filter SrcAnswer.isData).length

theorem Streams.Advances.refl (a : Streams) : a.Advances a :=
  { cmd := rfl, din := ⟨0, by simp⟩, dout := ⟨[], by simp⟩, sink := ⟨0, [], by simp⟩, src := ⟨0, by simp⟩ }

theorem Streams.Advances.trans {a b c : Streams} (h : a.Advances b) (k : b.Advances c) : a.Advances c where
  cmd := k.cmd.trans h.cmd
  din := by
    obtain ⟨n, hn, hd, ht⟩ := h.din
    obtain ⟨m, hm, kd, kt⟩ := k.din
    rw [hd, List.length_drop] at hm
    exact ⟨n + m, by omega, by rw [kd, hd, List.drop_drop], by rw [kt, ht, Nat.add_assoc]⟩
  dout := by
    obtain ⟨bs, hb, hr⟩ := h.dout
    obtain ⟨cs, kb, kr⟩ := k.dout
    exact ⟨bs ++ cs, by rw [kb, hb, List.append_assoc], by rw [List.length_append]; omega⟩
  sink := by
    obtain ⟨n, bs, ha, hs, hl⟩ := h.sink
    obtain ⟨m, cs, ka, ks, kl⟩ := k.sink
    rw [ha] at kl
    exact ⟨n + m, bs ++ cs, by rw [ka, ha, List.drop_drop], by rw [ks, hs, List.append_assoc],
      by rw [List.length_append, hl, kl, List.take_add, List.count_append]⟩
  src := by
    obtain ⟨n, hs, ht⟩ := h.src
    obtain ⟨m, ks, kt⟩ := k.src
    refine ⟨n + m, by rw [ks, hs, List.drop_drop], ?_⟩
    rw [kt, ht, hs, List.take_add, List.filter_append, List.length_append, Nat.add_assoc]

/-- The streams advance and ENC_BUF_BYTES is unchanged (R7). -/
def State.Advances (s t : State) : Prop := s.env.Advances t.env ∧ t.encBufBytes = s.encBufBytes

theorem State.Advances.refl (s : State) : s.Advances s := ⟨.refl _, rfl⟩

theorem State.Advances.trans {s t u : State} (h : s.Advances t) (k : t.Advances u) : s.Advances u :=
  ⟨h.1.trans k.1, k.2.trans h.2⟩

theorem sinkWrite_advances (b : Byte) (s : State) : s.Advances (sinkWrite b s).state := by
  obtain ⟨_, hr⟩ | ⟨rest, hs, hr⟩ | ⟨e, rest, hs, hr⟩ := sinkWrite_cases b s <;> rw [hr]
  · exact .refl s
  · exact ⟨{ Streams.Advances.refl s.env with sink := ⟨1, [b], by simp [hs, SinkResult.state]⟩ }, rfl⟩
  · exact ⟨{ Streams.Advances.refl s.env with sink := ⟨1, [], by simp [hs, SinkResult.state]⟩ }, rfl⟩

theorem srcRead_advances (s : State) : s.Advances (srcRead s).state := by
  obtain ⟨_, hr⟩ | ⟨b, rest, hs, hr⟩ | ⟨rest, hs, hr⟩ | ⟨e, rest, hs, hr⟩ := srcRead_cases s <;> rw [hr]
  · exact .refl s
  all_goals
    exact ⟨{ Streams.Advances.refl s.env with
      src := ⟨1, by simp [hs, SrcResult.state, List.filter_cons, SrcAnswer.isData]⟩ }, rfl⟩

/-- The four transactions advance their stream, and no other move touches a stream. -/
theorem Move.advances {s t : State} (h : Move s t) : s.Advances t := by
  cases h with
  | din h =>
    obtain ⟨rest, hd, rfl⟩ := dinRead_some.mp h
    exact ⟨{ Streams.Advances.refl s.env with din := ⟨1, by simp [hd]⟩ }, rfl⟩
  | dout h =>
    obtain ⟨room, hd, rfl⟩ := doutWrite_some.mp h
    exact ⟨{ Streams.Advances.refl s.env with dout := ⟨[_], rfl, hd⟩ }, rfl⟩
  | sink b => exact sinkWrite_advances b s
  | source => exact srcRead_advances s
  | _ => exact State.Advances.refl s

theorem Moves.advances {s t : State} (h : Moves s t) : s.Advances t := by
  induction h with
  | refl => exact .refl s
  | tail _ hm ih => exact ih.trans hm.advances

theorem settle_advances {s : State} {r : Run} (h : s.Advances r.state) (cmd : Word) : s.Advances (settle cmd r) := by
  cases r <;> exact h

theorem runCommand_advances {i : Instr} {body : State → Run} {s : State} (hb : s.Advances (body s).state) :
    s.Advances (runCommand i body s) := by
  refine settle_advances ?_ _
  obtain ⟨_, hg⟩ | hg := gated_cases i body s
  · rwa [hg]
  · exact hg.advances

theorem exec_advances {i : Instr} {s t : State} (h : exec i s = .next t) : s.Advances t := by
  cases i with
  | encFinalize => rw [execEncFinalize_next h]; exact runCommand_advances (encFinalizeBody_moves _ s).advances
  | encOpen => cases h; exact runCommand_advances (State.Advances.refl s)
  | decOpen => cases h; exact runCommand_advances (decOpenBody_moves _ s).advances
  | sysNop => cases h; exact runCommand_advances (State.Advances.refl s)
  | bwWriteBit c => cases h; exact runCommand_advances (writeBitBody_moves _ c s).advances
  | bwWriteBits n => cases h; exact runCommand_advances (writeBitsLoop_moves _ n 0 s).advances
  | bwWriteRaw n => cases h; exact runCommand_advances (writeRawBody_moves _ n s).advances
  | bwFlush => cases h; exact runCommand_advances (flushBody_moves s).advances
  | bwClose => cases h; exact runCommand_advances (flushBody_moves s).advances
  | brReadBit => cases h; exact runCommand_advances (readBitBody_moves s).advances
  | brReadRaw n => cases h; exact runCommand_advances (readRawBody_moves _ n s).advances
  | brResetAlign => cases h; exact runCommand_advances (resetAlignBody_moves s).advances
  | encWrite n => cases h; exact runCommand_advances (encWriteBody_moves n s).advances
  | decRead n => cases h; exact runCommand_advances (decReadLoop_moves n 0 s).advances

theorem illegalCommand_advances (w : Word) (s : State) : s.Advances (illegalCommand w s) := by
  unfold illegalCommand
  split <;> exact State.Advances.refl s

end Sys2Proof.Machine
end

section
/-! SUPPORT. A stalled command's step, header integers and the digits of the reader's byte (`20_memory.md` R61, R62,
R78). -/

namespace Sys2Proof.Machine

/-! ### Stalls -/

theorem resumeStep_ready {r : Running} {s : State} (h : r.wait.port.ready s = true) :
    ∃ t, resumeStep r s = .next t :=
  ⟨_, resumeStep_next.mpr ⟨h, rfl⟩⟩

theorem resumeStep_stalled {r : Running} {s : State} (h : r.wait.port.ready s = false) :
    resumeStep r s = .fault (.stalled r.wait.port) := by
  simp [resumeStep, h]

/-! ### Header integers -/

theorem le32_four_toNat (b0 b1 b2 b3 : Byte) :
    (le32 [b0, b1, b2, b3]).toNat = b0.toNat + 256 * b1.toNat + 65536 * b2.toNat + 16777216 * b3.toNat := by
  have h0 := b0.isLt
  have h1 := b1.isLt
  have h2 := b2.isLt
  have h3 := b3.isLt
  simp only [le32, BitVec.toNat_ofNat]
  omega

theorem le32_le32Bytes (v : Word) : le32 (le32Bytes v) = v := by
  have hv := v.isLt
  apply BitVec.eq_of_toNat_eq
  simp only [le32Bytes, le32_four_toNat, BitVec.extractLsb'_toNat, Nat.shiftRight_eq_div_pow]
  omega

/-! ### Digits of the reader's byte -/

/-- A byte's digits from the `k`-th on begin with bit `7 - k` (R61). -/
theorem drop_byteBits (b : Byte) {k : Nat} (h : k < 8) :
    (byteBits b).drop k = b.getLsbD (7 - k) :: (byteBits b).drop (k + 1) := by
  rw [List.drop_eq_getElem_cons (by simpa using h)]
  simp [byteBits]

/-- The next unread digit is the one below the count of unread digits, and one fewer is left (R38). -/
theorem unread_cons {r : BitReader} (h : r.nbits ≠ 0#3) :
    r.unread = r.byte.getLsbD (r.nbits.toNat - 1) :: BitReader.unread { r with nbits := r.nbits - 1#3 } := by
  have hn : (r.nbits - 1#3).toNat + 1 = r.nbits.toNat := by
    generalize r.nbits = n at h
    revert n; decide
  have hl := r.nbits.isLt
  simp only [BitReader.unread]
  rw [drop_byteBits _ (by omega)]
  congr 2 <;> omega

/-- A fresh byte's first digit is its most significant bit, and seven are left unread (R61, R120). -/
theorem byteBits_eq_cons_unread (b : Byte) (e : Bool) :
    byteBits b = b.getLsbD 7 :: BitReader.unread { byte := b, nbits := 7#3, ended := e } :=
  drop_byteBits b (k := 0) (by decide)

theorem unread_eq_nil {r : BitReader} : r.unread = [] ↔ r.nbits = 0#3 := by
  rw [← List.length_eq_zero_iff, length_unread]
  exact BitVec.toNat_eq (y := 0#3).symm

/-! ### BR.READBIT -/

/-- BR.READBIT from a ready state does what its body does (R232 step 6). -/
theorem exec_brReadBit_ready {s : State} (h : ReadReady s) :
    exec .brReadBit s = .next (settle (encode .brReadBit) (readBitBody s)) := by
  obtain ⟨_, hf, hr⟩ := h
  show Host.Outcome.next (settle _ (gated _ _ s)) = _
  rw [gated_proceed (gate_read rfl hf hr rfl)]

/-- BR.READBIT's RESULT is the bit that ReadBitInt takes (R123). -/
theorem exec_brReadBit_got {s t : State} {x : Bool} (h : ReadReady s) (hb : readBitInt s = .got x t) :
    exec .brReadBit s =
      .next { complete Status.ok.code (BitVec.ofNat 32 x.toNat) t with running := none } := by
  rw [exec_brReadBit_ready h, readBitBody, hb, settle_done]

end Sys2Proof.Machine
end

section
/-! SUPPORT. ENC.FINALIZE of an alphabet of at most one symbol: the symbols present, the derived code, and a stream of
whole bytes (`20_memory.md` R68). -/

namespace Sys2Proof.Machine

/-! ### The symbols present -/

theorem present_eq_map (e : Encoder) :
    e.present = ((List.range 256).filter (fun v => e.freqOf (symbolOf v) != 0#32)).map symbolOf := by
  have hzip : e.freq.toList.zipIdx = (List.range 256).map (fun v => (e.freqOf (symbolOf v), v)) := by
    refine List.ext_getElem (by simp) fun v hv _ => ?_
    have hlt : v < 256 := by simpa using hv
    simp [Encoder.freqOf, symbolOf, Nat.mod_eq_of_lt hlt]
  rw [Encoder.present, hzip, List.filter_map, List.map_map]
  rfl

theorem symbolOf_toNat (b : Byte) : symbolOf b.toNat = b := BitVec.ofNat_toNat ..

theorem mem_present {e : Encoder} {b : Byte} : b ∈ e.present ↔ e.freqOf b ≠ 0#32 := by
  simp only [present_eq_map, List.mem_map, List.mem_filter, List.mem_range, bne_iff_ne]
  constructor
  · rintro ⟨v, ⟨_, hv⟩, rfl⟩
    exact hv
  · intro h
    exact ⟨b.toNat, ⟨b.isLt, by rwa [symbolOf_toNat]⟩, symbolOf_toNat b⟩

theorem nodup_present (e : Encoder) : e.present.Nodup := by
  rw [present_eq_map]
  refine List.Nodup.map_on (fun v hv w hw h => ?_) (List.nodup_range.filter _)
  have hv := List.mem_range.mp (List.mem_of_mem_filter hv)
  have hw := List.mem_range.mp (List.mem_of_mem_filter hw)
  simpa [symbolOf, Nat.mod_eq_of_lt hv, Nat.mod_eq_of_lt hw] using congrArg BitVec.toNat h

/-- A symbol is present exactly when it is in the buffer: no count within ENC_BUF_BYTES wraps to 0 (R40, R140). -/
theorem mem_present_iff_mem_buf {s : State} (h : s.countsBuffer) {b : Byte} : b ∈ s.enc.present ↔ b ∈ s.enc.buf := by
  obtain ⟨hf, hl⟩ := h
  have hlt : s.enc.buf.count b < 2 ^ 32 := (List.count_le_length.trans hl).trans_lt s.encBufBytes.isLt
  rw [mem_present, hf, ← List.count_pos_iff, Nat.pos_iff_ne_zero]
  refine not_congr ⟨fun h0 => ?_, fun h0 => by rw [h0]⟩
  rw [← Nat.mod_eq_of_lt hlt, ← BitVec.toNat_ofNat, h0, BitVec.toNat_zero]

theorem present_of_buf_nil {s : State} (h : s.countsBuffer) (hb : s.enc.buf = []) : s.enc.present = [] :=
  List.eq_nil_iff_forall_not_mem.mpr fun b hm => by
    rw [mem_present_iff_mem_buf h, hb] at hm
    exact List.not_mem_nil hm

theorem present_of_buf_replicate {s : State} (h : s.countsBuffer) {c : Nat} {b : Byte} (hc : 0 < c)
    (hb : s.enc.buf = List.replicate c b) : s.enc.present = [b] := by
  refine List.perm_singleton.mp ((List.perm_ext_iff_of_nodup (nodup_present _) (List.nodup_singleton b)).mpr fun a => ?_)
  rw [mem_present_iff_mem_buf h, hb, List.mem_replicate, List.mem_singleton, and_iff_right hc.ne']

/-! ### The derived code -/

@[simp] theorem derive_buf (e : Encoder) : e.derive.buf = e.buf := rfl
@[simp] theorem derive_freq (e : Encoder) : e.derive.freq = e.freq := rfl
@[simp] theorem derive_present (e : Encoder) : e.derive.present = e.present := rfl

/-- A lone symbol is the root and has the empty code (R145, R155). -/
theorem codeOf_derive_singleton {e : Encoder} {b : Byte} (h : e.present = [b]) : e.derive.codeOf b = some [] := by
  simp [Encoder.derive, treeBuild, leafNodes, h, leafKeys, insertKey, mergeLoop, codeDerive, codeWalk, setCode,
    Encoder.codeOf]

/-! ### A stream of whole bytes -/

/-- Bytes written while aligned and ACKed reach the sink in order and are counted (R102, R172). -/
theorem emitLoop_raws (cmd : Word) (bs : List Byte) (todo : List Emit) (more : List SinkAnswer) (out : Nat) {s : State}
    (hn : s.bw.nbits = 0#3) (ha : s.env.sinkAns = List.replicate bs.length .ack ++ more) :
    emitLoop cmd (bs.map .raw ++ todo) out s = emitLoop cmd todo (out + bs.length)
      { s with env := { s.env with sink := s.env.sink ++ bs, sinkAns := more } } := by
  induction bs generalizing out s with
  | nil =>
    obtain rfl : s.env.sinkAns = more := ha
    simp
  | cons b bs ih =>
    rw [List.map_cons, List.cons_append, emitLoop, writeRawInt_aligned hn, sinkWrite_ack ha]
    have hrest := ih (out + 1) (s := { s with env := { s.env with
      sink := s.env.sink ++ [b], sinkAns := List.replicate bs.length .ack ++ more } }) hn rfl
    refine hrest.trans ?_
    simp [Nat.add_assoc, Nat.add_comm 1]

theorem emitLoop_flushes (cmd : Word) (k out : Nat) {s : State} (hn : s.bw.nbits = 0#3) :
    emitLoop cmd (List.replicate k .flush) out s = emitDone out s := by
  induction k with
  | zero => rfl
  | succ k ih =>
    rw [List.replicate_succ, emitLoop, flushInt, if_pos hn]
    exact ih

/-- ENC.FINALIZE of an open, aligned session whose stream is whole bytes, each ACKed (R172). -/
theorem exec_encFinalize_raws {s : State} {bs : List Byte} {more : List SinkAnswer} (k : Nat) (h : WriteReady s)
    (hc : s.enc.closed = false) (hn : s.bw.nbits = 0#3) (hw : s.enc.derive.codesWritten = true)
    (hs : emitStream s.enc.derive.writtenCode s.enc.present s.enc.buf = bs.map .raw ++ List.replicate k .flush)
    (ha : s.env.sinkAns = List.replicate bs.length .ack ++ more) (hl : bs.length < 2 ^ 32) :
    exec .encFinalize s = .next { s with
      enc := { s.enc.derive with buf := s.enc.buf, freq := s.enc.freq, closed := true }
      env := { s.env with sink := s.env.sink ++ bs, sinkAns := more }
      ctl := { s.ctl with statusCode := 0x00#8, result := BitVec.ofNat 32 bs.length } } := by
  obtain ⟨hr, hf, hwf⟩ := h
  have hg : gate .encFinalize s = .proceed := gate_write rfl hf hwf (by simp [stateCheck, hc])
  have hbody : encFinalizeBody (encode .encFinalize) s = emitDone bs.length { s with
      enc := s.enc.derive, env := { s.env with sink := s.env.sink ++ bs, sinkAns := more } } := by
    have hrun := emitLoop_raws (encode .encFinalize) bs (List.replicate k .flush) more 0
      (s := { s with enc := s.enc.derive }) hn ha
    rw [emitLoop_flushes _ _ _ (by exact hn), Nat.zero_add, ← hs] at hrun
    exact hrun
  simp only [exec, execEncFinalize, hw, runCommand, gated_proceed hg, hbody, emitDone, countResult, if_pos hl]
  simp [complete, Status.code, hr]

/-- A buffer of one symbol has no payload: its code is empty (R68). -/
theorem emitStream_singleton {codes : Byte → Bits} {b : Byte} (h : codes b = []) (c : Nat) :
    emitStream codes [b] (List.replicate c b) =
      (le32Bytes (BitVec.ofNat 32 c) ++ [0x01#8, 0x00#8, 0x00#8, 0x00#8, b, 0x00#8]).map .raw ++
        List.replicate 2 .flush := by
  have hpay : (List.replicate c b).flatMap (fun a => emitCode (codes a)) = [] :=
    List.flatMap_eq_nil_iff.mpr fun a ha => by rw [List.eq_of_mem_replicate ha, h]; rfl
  have hone : le32Bytes 1#32 = [0x01#8, 0x00#8, 0x00#8, 0x00#8] := by decide
  rw [emitStream, hpay, List.length_replicate, List.length_singleton, hone]
  simp [emitDescriptor, h, emitCode]

end Sys2Proof.Machine
end

section
/-! SUPPORT. The statements of `20_memory.md`, settled. -/

namespace Sys2Proof.Machine

/-- Settles O51: each side's command commutes with putting another other side in, loop by loop; that it writes nothing
there is the case of the state's own other side. -/
theorem sidesIndependent : Obligations.SidesIndependent := fun _ _ _ x h =>
  ⟨fun hi => ⟨exec_withWrite x hi h, exec_read_keeps_write hi h⟩,
    fun hi => ⟨exec_withRead x hi h, exec_write_keeps_read hi h⟩⟩

/-- Settles O55: every way a step can go is made of moves, and each move lets the streams advance (`Move.advances`). -/
theorem streamsOnlyAdvance : Obligations.StreamsOnlyAdvance := by
  intro s t h
  obtain ⟨hi, rfl⟩ | ⟨_, r, hr, _, rfl⟩ | ⟨hi, hn, w, rest, e, hc, _, rfl⟩ | ⟨hi, hn, w, rest, i, hc, _, he⟩ :=
    step_cases h
  · obtain ⟨_, din, dout, sink, src⟩ := Streams.Advances.refl s.env
    exact ⟨by simp [hi], din, dout, sink, src, rfl⟩
  · obtain ⟨⟨cmd, din, dout, sink, src⟩, buf⟩ :=
      settle_advances (resume_moves r.cmd r.wait { s with running := none }).advances r.cmd
    exact ⟨by simpa [hr] using cmd, din, dout, sink, src, buf⟩
  · obtain ⟨⟨cmd, din, dout, sink, src⟩, buf⟩ := illegalCommand_advances w (s.withCmd rest)
    exact ⟨by rw [if_pos ⟨hi, hn⟩, hc]; exact cmd, din, dout, sink, src, buf⟩
  · obtain ⟨⟨cmd, din, dout, sink, src⟩, buf⟩ := exec_advances he
    exact ⟨by rw [if_pos ⟨hi, hn⟩, hc]; exact cmd, din, dout, sink, src, buf⟩

/-- Settles O17: ReadBitInt takes the head of the unread digits (`unread_cons`), or of a fresh byte's digits. -/
theorem readBitTakesNextDigit : Obligations.ReadBitTakesNextDigit := by
  intro s x left h
  have hidle : s.running = none := h.1
  refine ⟨fun hu => ?_, fun b rest hu he hs hb => ?_⟩
  · have hn : s.br.nbits ≠ 0#3 := fun hn => by simp [unread_eq_nil.mpr hn] at hu
    obtain ⟨rfl, rfl⟩ := List.cons.inj ((unread_cons hn).symm.trans hu)
    refine ⟨_, exec_brReadBit_got h (readBitInt_unread hn), rfl, ?_⟩
    simp [complete, Status.code, hidle]
  · obtain ⟨rfl, rfl⟩ := List.cons.inj ((byteBits_eq_cons_unread b s.br.ended).symm.trans hb)
    refine ⟨_, exec_brReadBit_got h (readBitInt_data (unread_eq_nil.mp hu) he hs), rfl, ?_⟩
    simp [complete, Status.code, hidle]

/-- Settles O26: with at most one symbol present the stream is whole bytes, since a lone symbol's code is empty, so the
ACKs put it on the sink as it is (`exec_encFinalize_raws`). -/
theorem degenerateStreams : Obligations.DegenerateStreams := by
  intro s more h hc hb hcount
  have hn : s.bw.nbits = 0#3 := by rw [hb]; rfl
  refine ⟨fun hbuf ha => ?_, fun c b hpos hbuf ha => ?_⟩
  · have hp := present_of_buf_nil hcount hbuf
    have hw : s.enc.derive.codesWritten = true := by simp [Encoder.codesWritten, hp, hbuf]
    have hs : emitStream s.enc.derive.writtenCode s.enc.present s.enc.buf =
        (List.replicate 8 0x00#8).map .raw ++ List.replicate 1 .flush := by rw [hp, hbuf]; rfl
    exact ⟨_, exec_encFinalize_raws 1 h hc hn hw hs ha (by decide), by rw [hbuf]; rfl⟩
  · have hp := present_of_buf_replicate hcount hpos hbuf
    have hcode := codeOf_derive_singleton hp
    have hw : s.enc.derive.codesWritten = true := by simp [Encoder.codesWritten, hp, hbuf, hcode]
    have hempty : s.enc.derive.writtenCode b = [] := by simp [Encoder.writtenCode, hcode]
    have hs := emitStream_singleton hempty c
    rw [← hp, ← hbuf] at hs
    refine ⟨_, exec_encFinalize_raws 2 h hc hn hw hs ha (by show 10 < _; decide), ?_⟩
    rw [List.append_assoc]; rfl

/-- Settles O52: a step with a command running is `resumeStep`, which asks whether the command's stream is ready. -/
theorem stallHasNoStep : Obligations.StallHasNoStep := by
  intro s r hr hi
  rw [step_running hi hr]
  have stalled {p : Port} (hp : r.wait.port = p) (h : p.ready s = false) : resumeStep r s = .fault (.stalled p) :=
    hp ▸ resumeStep_stalled (hp ▸ h)
  refine ⟨fun hp h => stalled hp ?_, fun hp h => stalled hp ?_, fun hp h => stalled hp ?_, fun hp h => stalled hp ?_,
    fun h => resumeStep_ready ?_⟩
  · simp [Port.ready, h]
  · simp [Port.ready, h]
  · simp [Port.ready, h]
  · simp [Port.ready, h]
  · obtain ⟨hp, h⟩ | ⟨hp, h⟩ | ⟨hp, h⟩ | ⟨hp, h⟩ := h <;> simpa [hp, Port.ready] using h

/-- Settles O27: each direction is a sum of bytes times powers of 256. -/
theorem headerIntegers : Obligations.HeaderIntegers :=
  ⟨le32_le32Bytes, le32_four_toNat, fun _ => rfl⟩

end Sys2Proof.Machine
end

section
/-! SUPPORT. The decoder by its fields: a word decodes to an instruction exactly when UNIT, OP and ARG are the
instruction's (`30_encoding.md` R80 to R86). -/

namespace Sys2Proof

open Sys2Proof.Machine

/-! ### The fields of a word -/

theorem unitField_eq (w : Word) : unitField w = w.toNat / 2 ^ 28 := by
  have := w.isLt
  rw [unitField, BitVec.extractLsb'_toNat, Nat.shiftRight_eq_div_pow]
  omega

theorem opField_eq (w : Word) : opField w = w.toNat / 2 ^ 24 % 16 := by
  rw [opField, BitVec.extractLsb'_toNat, Nat.shiftRight_eq_div_pow]

theorem argField_eq (w : Word) : argField w = w.toNat % 2 ^ 24 := by
  rw [argField, BitVec.extractLsb'_toNat, Nat.shiftRight_zero]

theorem argField_lt (w : Word) : argField w < 2 ^ 24 := BitVec.isLt _

/-- A word is the word of its three fields (R80). -/
theorem wordOf_fields (w : Word) : wordOf (unitField w) (opField w) (argField w) = w := by
  rw [wordOf, unitField_eq, opField_eq, argField_eq]
  convert BitVec.ofNat_toNat 32 w using 2
  · omega
  · simp

/-- UNIT and OP are the two digits of the word's top byte (R80). -/
theorem topByte_of_fields {w : Word} {unit op : Nat} (hu : unitField w = unit) (ho : opField w = op) :
    w.extractLsb' 24 8 = BitVec.ofNat 8 (16 * unit + op) := by
  have := w.isLt
  apply BitVec.eq_of_toNat_eq
  rw [← hu, ← ho, unitField_eq, opField_eq, BitVec.extractLsb'_toNat, Nat.shiftRight_eq_div_pow, BitVec.toNat_ofNat]
  omega

/-- With ARG[23:8] clear, ARG is the bit operand C (R81, R83). -/
theorem argField_eq_bitField {w : Word} (h : w.extractLsb' 8 16 = 0#16) : argField w = (bitField w).toNat := by
  have h := congrArg BitVec.toNat h
  rw [BitVec.extractLsb'_toNat, Nat.shiftRight_eq_div_pow, BitVec.toNat_zero] at h
  rw [argField_eq, bitField, BitVec.extractLsb'_toNat, Nat.shiftRight_zero]
  omega

/-- A word whose ARG is a byte is of format B with that byte as C (R81, R83). -/
theorem bitField_of_argField {w : Word} {c : Byte} (h : argField w = c.toNat) :
    w.extractLsb' 8 16 = 0#16 ∧ bitField w = c := by
  have hc := c.isLt
  rw [argField_eq] at h
  constructor <;> apply BitVec.eq_of_toNat_eq
  · rw [BitVec.extractLsb'_toNat, Nat.shiftRight_eq_div_pow, BitVec.toNat_zero]; omega
  · rw [bitField, BitVec.extractLsb'_toNat, Nat.shiftRight_zero]; omega

/-! ### The formats -/

theorem formatN_eq_ok {w : Word} {i j : Instr} : formatN w i = .ok j ↔ argField w = 0 ∧ i = j := by
  unfold formatN
  split <;> simp [*]

theorem formatB_eq_ok {w : Word} {i : Byte → Instr} {j : Instr} :
    formatB w i = .ok j ↔ w.extractLsb' 8 16 = 0#16 ∧ i (bitField w) = j := by
  unfold formatB
  split <;> simp [*]

theorem formatL_eq_ok {w : Word} {i : Nat → Instr} {j : Instr} : formatL w i = .ok j ↔ i (argField w) = j := by
  simp [formatL]

theorem formatN_error {w : Word} {i : Instr} : (∃ e, formatN w i = .error e) ↔ argField w ≠ 0 := by
  unfold formatN
  split <;> simp [*]

theorem formatB_error {w : Word} {i : Byte → Instr} : (∃ e, formatB w i = .error e) ↔ w.extractLsb' 8 16 ≠ 0#16 := by
  unfold formatB
  split <;> simp [*]

theorem formatL_error {w : Word} {i : Nat → Instr} : ¬ ∃ e, formatL w i = .error e := by
  simp [formatL]

/-! ### The fields of an instruction -/

/-- An instruction's UNIT (R84). -/
def unitOf : Instr → Nat
  | .sysNop => 0
  | .bwWriteBit _ | .bwWriteBits _ | .bwWriteRaw _ | .bwFlush | .bwClose => 1
  | .brReadBit | .brReadRaw _ | .brResetAlign => 2
  | .encOpen | .encWrite _ | .encFinalize => 3
  | .decOpen | .decRead _ => 4

/-- An instruction's OP within its unit (R84). -/
def opOf : Instr → Nat
  | .sysNop | .bwWriteBit _ | .brReadBit | .encOpen | .decOpen => 1
  | .bwWriteBits _ | .brReadRaw _ | .encWrite _ | .decRead _ => 2
  | .bwWriteRaw _ | .brResetAlign | .encFinalize => 3
  | .bwFlush => 4
  | .bwClose => 5

/-- An instruction's ARG: its operand, 0 when it has none (R81). -/
def argOf : Instr → Nat
  | .bwWriteBit c => c.toNat
  | .bwWriteBits n | .bwWriteRaw n | .brReadRaw n | .encWrite n | .decRead n => n
  | .sysNop | .bwFlush | .bwClose | .brReadBit | .brResetAlign | .encOpen | .encFinalize | .decOpen => 0

/-- The word has the fields of the instruction. -/
def HasFields (w : Word) (i : Instr) : Prop := unitField w = unitOf i ∧ opField w = opOf i ∧ argField w = argOf i

theorem encode_eq_wordOf (i : Instr) : encode i = wordOf (unitOf i) (opOf i) (argOf i) := by
  cases i <;> rfl

/-- An instruction is well formed exactly when its operand fits ARG; a byte always does (R82, R83). -/
theorem wellFormed_iff {i : Instr} : i.wellFormed = true ↔ argOf i < 2 ^ 24 := by
  cases i with
  | bwWriteBit c => exact iff_of_true rfl (c.isLt.trans (by decide))
  | bwWriteBits n | bwWriteRaw n | brReadRaw n | encWrite n | decRead n => exact decide_eq_true_iff
  | _ => decide

theorem unitOf_lt (i : Instr) : unitOf i < 16 := by cases i <;> simp [unitOf]

theorem opOf_lt (i : Instr) : opOf i < 16 := by cases i <;> simp [opOf]

/-- The word of a well-formed instruction has the instruction's fields, and no other word has them. -/
theorem hasFields_iff {w : Word} {i : Instr} : HasFields w i ↔ encode i = w ∧ i.wellFormed = true := by
  rw [encode_eq_wordOf, wellFormed_iff]
  constructor
  · rintro ⟨hu, ho, ha⟩
    rw [← hu, ← ho, ← ha]
    exact ⟨wordOf_fields w, argField_lt w⟩
  · rintro ⟨rfl, ha⟩
    exact ⟨unitField_wordOf (unitOf_lt i) (opOf_lt i) ha, opField_wordOf (unitOf_lt i) (opOf_lt i) ha,
      argField_wordOf (unitOf_lt i) (opOf_lt i) ha⟩

/-! ### The decoder -/

theorem decode_of_hasFields {w : Word} {i : Instr} (h : HasFields w i) : decode w = .ok i := by
  obtain ⟨hu, ho, ha⟩ := h
  cases i with
  | bwWriteBit c =>
    obtain ⟨hz, rfl⟩ := bitField_of_argField ha
    simp only [decode, hu, ho, unitOf, opOf, formatB_eq_ok, hz, and_self]
  | bwWriteBits n | bwWriteRaw n | brReadRaw n | encWrite n | decRead n =>
    simp only [decode, hu, ho, unitOf, opOf, formatL_eq_ok, ha, argOf]
  | _ => simp only [decode, hu, ho, unitOf, opOf, formatN_eq_ok, ha, argOf, and_self]

theorem hasFields_of_decode {w : Word} {i : Instr} (h : decode w = .ok i) : HasFields w i := by
  unfold decode at h
  split at h
  case h_2 hu ho => -- format B
    obtain ⟨hz, rfl⟩ := formatB_eq_ok.mp h
    exact ⟨hu, ho, argField_eq_bitField hz⟩
  case h_3 hu ho | h_4 hu ho | h_8 hu ho | h_11 hu ho | h_14 hu ho => -- format L
    cases formatL_eq_ok.mp h
    exact ⟨hu, ho, rfl⟩
  case h_15 => cases h
  all_goals -- format N
    next hu ho =>
    obtain ⟨ha, rfl⟩ := formatN_eq_ok.mp h
    exact ⟨hu, ho, ha⟩

/-- A word decodes to `i` exactly when it is the word of `i` and `i` is well formed. -/
theorem decode_eq_ok_iff {w : Word} {i : Instr} : decode w = .ok i ↔ encode i = w ∧ i.wellFormed = true :=
  ⟨fun h => hasFields_iff.mp (hasFields_of_decode h), fun h => decode_of_hasFields (hasFields_iff.mpr h)⟩

/-! ### The rows of the opcode map -/

/-- A field whose bits are all in the mask is the pattern's field. -/
theorem extractLsb'_of_and_eq {w m p : Word} {pos len : Nat} (h : w &&& m = p)
    (hm : m.extractLsb' pos len = BitVec.allOnes len) : w.extractLsb' pos len = p.extractLsb' pos len := by
  rw [← h, BitVec.extractLsb'_and, hm, BitVec.and_allOnes]

section
variable {w m p : Word}

theorem unitField_of_and_eq (h : w &&& m = p) (hm : m.extractLsb' 28 4 = BitVec.allOnes 4) :
    unitField w = unitField p :=
  congrArg BitVec.toNat (extractLsb'_of_and_eq h hm)

theorem opField_of_and_eq (h : w &&& m = p) (hm : m.extractLsb' 24 4 = BitVec.allOnes 4) : opField w = opField p :=
  congrArg BitVec.toNat (extractLsb'_of_and_eq h hm)

theorem decode_of_selects_ofN {i : Instr} (h : (Row.ofN (encode i)).selects w) (hi : i.wellFormed = true) :
    decode w = .ok i :=
  decode_eq_ok_iff.mpr ⟨h.symm.trans BitVec.and_allOnes, hi⟩

theorem decode_of_selects_ofB {i : Instr} (h : (Row.ofB p).selects w) (hu : unitField p = unitOf i)
    (ho : opField p = opOf i) (hp : p.extractLsb' 8 16 = 0#16) (ha : argOf i = (bitField w).toNat) :
    decode w = .ok i := by
  have h : w &&& 0xFFFFFF00#32 = p := h
  have hz := (extractLsb'_of_and_eq h (by decide)).trans hp
  exact decode_of_hasFields ⟨(unitField_of_and_eq h (by decide)).trans hu, (opField_of_and_eq h (by decide)).trans ho,
    (argField_eq_bitField hz).trans ha.symm⟩

theorem decode_of_selects_ofL {i : Instr} (h : (Row.ofL p).selects w) (hu : unitField p = unitOf i)
    (ho : opField p = opOf i) (ha : argOf i = argField w) : decode w = .ok i := by
  have h : w &&& 0xFF000000#32 = p := h
  exact decode_of_hasFields ⟨(unitField_of_and_eq h (by decide)).trans hu, (opField_of_and_eq h (by decide)).trans ho,
    ha.symm⟩

end

/-- A row that selects a word has an instruction that the word decodes to (R85). -/
theorem exists_decode_of_selects {w : Word} :
    ∀ r ∈ opcodeRows, r.selects w → ∃ i, decode w = .ok i ∧ rowOf i = r := by
  simp only [opcodeRows, List.forall_mem_cons]
  exact
    ⟨fun h => ⟨.sysNop, decode_of_selects_ofN h rfl, rfl⟩,
      fun h => ⟨.bwWriteBit (bitField w), decode_of_selects_ofB h rfl rfl rfl rfl, rfl⟩,
      fun h => ⟨.bwWriteBits (argField w), decode_of_selects_ofL h rfl rfl rfl, rfl⟩,
      fun h => ⟨.bwWriteRaw (argField w), decode_of_selects_ofL h rfl rfl rfl, rfl⟩,
      fun h => ⟨.bwFlush, decode_of_selects_ofN h rfl, rfl⟩,
      fun h => ⟨.bwClose, decode_of_selects_ofN h rfl, rfl⟩,
      fun h => ⟨.brReadBit, decode_of_selects_ofN h rfl, rfl⟩,
      fun h => ⟨.brReadRaw (argField w), decode_of_selects_ofL h rfl rfl rfl, rfl⟩,
      fun h => ⟨.brResetAlign, decode_of_selects_ofN h rfl, rfl⟩,
      fun h => ⟨.encOpen, decode_of_selects_ofN h rfl, rfl⟩,
      fun h => ⟨.encWrite (argField w), decode_of_selects_ofL h rfl rfl rfl, rfl⟩,
      fun h => ⟨.encFinalize, decode_of_selects_ofN h rfl, rfl⟩,
      fun h => ⟨.decOpen, decode_of_selects_ofN h rfl, rfl⟩,
      fun h => ⟨.decRead (argField w), decode_of_selects_ofL h rfl rfl rfl, rfl⟩,
      fun _ h => absurd h List.not_mem_nil⟩

open Sys2Proof.Laws.RowMatch in
/-- The row of the instruction that a word decodes to is listed and selects the word (R85). -/
theorem selects_of_decode {w : Word} {i : Instr} (h : decode w = .ok i) :
    rowOf i ∈ opcodeRows ∧ (rowOf i).selects w := by
  obtain ⟨rfl, hi⟩ := decode_eq_ok_iff.mp h
  have hrow : Statement i := by
    cases i with
    | sysNop => exact sysNop
    | bwWriteBit c => exact bwWriteBit c
    | bwWriteBits n => exact bwWriteBits n
    | bwWriteRaw n => exact bwWriteRaw n
    | bwFlush => exact bwFlush
    | bwClose => exact bwClose
    | brReadBit => exact brReadBit
    | brReadRaw n => exact brReadRaw n
    | brResetAlign => exact brResetAlign
    | encOpen => exact encOpen
    | encWrite n => exact encWrite n
    | encFinalize => exact encFinalize
    | decOpen => exact decOpen
    | decRead n => exact decRead n
  exact hrow hi

/-! ### Illegal words -/

theorem decode_error_iff_not_ok {w : Word} : (∃ e, decode w = .error e) ↔ ∀ i, decode w ≠ .ok i := by
  cases decode w <;> simp

/-- Executing an illegal word with FATAL clear is the fault ILLEGAL_COMMAND (R86, R233). -/
theorem illegalCommand_raises {s : State} (h : s.ctl.fatal = false) (w : Word) :
    illegalCommand w s = raise .illegalCommand w 0 0#8 s := by
  simp [illegalCommand, h]

end Sys2Proof
end


section
/-! SUPPORT. The commands that take their operand from DIN one element at a time: a successful one is its element's
operation repeated, so that two in a row are one (`30_encoding.md` R82). -/

namespace Sys2Proof.Machine

/-! ### Successful ends -/

/-- The state a command ends in that completes with code 0x00 and RESULT `n` (R10, R230). -/
def State.succeeded (n : Nat) (s : State) : State :=
  { complete Status.ok.code (BitVec.ofNat 32 n) s with running := none }

/-- The end of a run that ends with code 0x00. -/
def Run.success : Run → Option State
  | .done s => if s.ctl.statusCode = 0x00#8 then some s else none
  | .stall _ _ => none

/-- The state after a byte that the sink accepted or that did not go there. -/
def SinkResult.accepted : SinkResult → Option State
  | .ok _ s => some s
  | .err _ => none
  | .wait _ _ => none

@[simp] theorem success_stall (w : Wait) (s : State) : (Run.stall w s).success = none := rfl

theorem success_raise {f : Status} (hf : f.code ≠ 0x00#8) (cmd : Word) (n : Nat) (b : Byte) (s : State) :
    (Run.done (raise f cmd n b s)).success = none :=
  if_neg hf

/-- A refused operand does not succeed, however much of it is left to discard. -/
theorem success_discardDin {f : Status} (hf : f.code ≠ 0x00#8) (k left : Nat) (s : State) :
    (discardDin (.writeFail f k) left s).success = none := by
  induction left generalizing s with
  | zero => exact if_neg hf
  | succ left ih =>
    rw [discardDin]
    cases dinRead s with
    | none => rfl
    | some p => exact ih p.2

/-- A command has ended with code 0x00 exactly when its run has. -/
theorem settle_success {cmd : Word} {r : Run} {t : State} :
    (settle cmd r = t ∧ t.running = none ∧ t.ctl.statusCode = 0x00#8) ↔
      ∃ u, r.success = some u ∧ t = { u with running := none } := by
  cases r with
  | stall w s =>
    refine iff_of_false ?_ (by simp)
    rintro ⟨rfl, hr, _⟩
    cases hr
  | done s =>
    simp only [settle_done, Run.success, Option.ite_none_right_eq_some, Option.some.injEq]
    constructor
    · rintro ⟨rfl, _, hc⟩
      exact ⟨s, ⟨hc, rfl⟩, rfl⟩
    · rintro ⟨_, ⟨hc, rfl⟩, rfl⟩
      exact ⟨rfl, rfl, hc⟩

/-! ### Repeating an operation that can fail -/

/-- `f` done `n` times, none once it fails. -/
def repeated (f : State → Option State) (n : Nat) (s : State) : Option State := (·.bind f)^[n] (some s)

section
variable {f : State → Option State}

@[simp] theorem repeated_zero (s : State) : repeated f 0 s = some s := rfl

theorem repeated_succ (n : Nat) (s : State) : repeated f (n + 1) s = (f s).bind (repeated f n) := by
  rw [repeated, Function.iterate_succ_apply, Option.bind_some]
  cases f s with
  | some t => rfl
  | none => exact Function.iterate_fixed rfl n

theorem repeated_add {s t u : State} {m n : Nat} (hm : repeated f m s = some t) (hn : repeated f n t = some u) :
    repeated f (m + n) s = some u := by
  rw [repeated, Nat.add_comm, Function.iterate_add_apply, ← repeated, hm]
  exact hn

/-- What commutes with the operation commutes with its repetition. -/
theorem repeated_map {g : State → State} (h : ∀ s, f (g s) = (f s).map g) (n : Nat) (s : State) :
    repeated f n (g s) = (repeated f n s).map g := by
  induction n generalizing s with
  | zero => rfl
  | succ n ih =>
    rw [repeated_succ, repeated_succ, h]
    cases f s with
    | none => rfl
    | some t => exact ih t

theorem repeated_ctl (h : ∀ s t, f s = some t → t.ctl = s.ctl) {n : Nat} {s t : State} (ht : repeated f n s = some t) :
    t.ctl = s.ctl := by
  induction n generalizing s with
  | zero => cases ht; rfl
  | succ n ih =>
    rw [repeated_succ, Option.bind_eq_some_iff] at ht
    obtain ⟨u, hu, ht⟩ := ht
    rw [ih ht, h s u hu]

end

/-! ### The element operations -/

/-- One bit of BW.WRITEBITS (R104). -/
def placeBit (s : State) : Option State :=
  (dinRead s).bind fun p => (bitOfChar p.1).bind fun x => (writeBitInt x p.2).accepted

/-- One byte of BW.WRITERAW (R105). -/
def passByte (s : State) : Option State := (dinRead s).bind fun p => (sinkWrite p.1 p.2).accepted

/-- One byte of ENC.WRITE, if the buffer has room for it (R171). -/
def bufferByte (s : State) : Option State :=
  if s.enc.buf.length < s.encBufBytes.toNat then
    (dinRead s).map fun p => { p.2 with enc := p.2.enc.push p.1 }
  else none

theorem dinRead_succeeded (r : Nat) (s : State) :
    dinRead (s.succeeded r) = (dinRead s).map (Prod.map id (·.succeeded r)) := by
  have h : (s.succeeded r).env = s.env := rfl
  simp only [dinRead, h]
  cases s.env.din <;> rfl

theorem accepted_sinkWrite_succeeded (r : Nat) (b : Byte) (s : State) :
    (sinkWrite b (s.succeeded r)).accepted = (sinkWrite b s).accepted.map (·.succeeded r) := by
  have h : (s.succeeded r).env = s.env := rfl
  simp only [sinkWrite, h]
  rcases s.env.sinkAns with _ | ⟨_ | _, rest⟩ <;> rfl

theorem accepted_writeBitInt_succeeded (r : Nat) (x : Bool) (s : State) :
    (writeBitInt x (s.succeeded r)).accepted = (writeBitInt x s).accepted.map (·.succeeded r) := by
  have h : (s.succeeded r).bw = s.bw := rfl
  by_cases hn : s.bw.nbits = 7#3 <;> simp only [writeBitInt, h, hn, if_true, if_false]
  · exact accepted_sinkWrite_succeeded r _ { s with bw := BitWriter.reset }
  · rfl

theorem placeBit_succeeded (r : Nat) (s : State) : placeBit (s.succeeded r) = (placeBit s).map (·.succeeded r) := by
  rw [placeBit, placeBit, dinRead_succeeded]
  cases dinRead s with
  | none => rfl
  | some p =>
    show (bitOfChar p.1).bind _ = ((bitOfChar p.1).bind _).map _
    cases bitOfChar p.1 with
    | none => rfl
    | some x => exact accepted_writeBitInt_succeeded r x p.2

theorem passByte_succeeded (r : Nat) (s : State) : passByte (s.succeeded r) = (passByte s).map (·.succeeded r) := by
  rw [passByte, passByte, dinRead_succeeded]
  cases dinRead s with
  | none => rfl
  | some p => exact accepted_sinkWrite_succeeded r p.1 p.2

theorem bufferByte_succeeded (r : Nat) (s : State) : bufferByte (s.succeeded r) = (bufferByte s).map (·.succeeded r) := by
  have he : (s.succeeded r).enc = s.enc := rfl
  have hb : (s.succeeded r).encBufBytes = s.encBufBytes := rfl
  simp only [bufferByte, dinRead_succeeded, he, hb]
  split
  · cases dinRead s <;> rfl
  · rfl

theorem dinRead_ctl {s t : State} {b : Byte} (h : dinRead s = some (b, t)) : t.ctl = s.ctl := by
  obtain ⟨_, _, rfl⟩ := dinRead_some.mp h
  rfl

theorem sinkWrite_accepted_ctl {s t : State} {b : Byte} (h : (sinkWrite b s).accepted = some t) : t.ctl = s.ctl := by
  obtain ⟨_, hr⟩ | ⟨_, _, hr⟩ | ⟨_, _, _, hr⟩ := sinkWrite_cases b s <;> rw [hr] at h <;> cases h
  rfl

theorem writeBitInt_accepted_ctl {s t : State} {x : Bool} (h : (writeBitInt x s).accepted = some t) :
    t.ctl = s.ctl := by
  obtain ⟨_, hr⟩ | ⟨_, hr⟩ := writeBitInt_cases x s <;> rw [hr] at h
  · cases h; rfl
  · exact (sinkWrite_accepted_ctl h).trans rfl

theorem placeBit_ctl (s t : State) (h : placeBit s = some t) : t.ctl = s.ctl := by
  simp only [placeBit, Option.bind_eq_some_iff] at h
  obtain ⟨⟨b, u⟩, hd, x, _, hw⟩ := h
  rw [writeBitInt_accepted_ctl hw, dinRead_ctl hd]

theorem passByte_ctl (s t : State) (h : passByte s = some t) : t.ctl = s.ctl := by
  simp only [passByte, Option.bind_eq_some_iff] at h
  obtain ⟨⟨b, u⟩, hd, hw⟩ := h
  rw [sinkWrite_accepted_ctl hw, dinRead_ctl hd]

theorem bufferByte_ctl (s t : State) (h : bufferByte s = some t) : t.ctl = s.ctl := by
  simp only [bufferByte, Option.ite_none_right_eq_some, Option.map_eq_some_iff] at h
  obtain ⟨_, ⟨b, u⟩, hd, rfl⟩ := h
  show u.ctl = s.ctl
  exact dinRead_ctl hd

/-! ### The loops -/

theorem success_writeBitsLoop (cmd : Word) (left i : Nat) (s : State) :
    (writeBitsLoop cmd left i s).success =
      (repeated placeBit left s).map (complete Status.ok.code (BitVec.ofNat 32 (i + left))) := by
  induction left generalizing i s with
  | zero => rfl
  | succ left ih =>
    rw [writeBitsLoop, repeated_succ, placeBit]
    cases dinRead s with
    | none => rfl
    | some p =>
      simp only [Option.bind_some]
      cases bitOfChar p.1 with
      | none => exact success_raise (by decide) ..
      | some x =>
        simp only [Option.bind_some]
        cases writeBitInt x p.2 with
        | ok k t => rw [Nat.add_comm left, ← Nat.add_assoc]; exact ih (i + 1) t
        | err t => exact success_discardDin (by decide) ..
        | wait b t => rfl

theorem success_writeRawLoop (left i : Nat) (s : State) :
    (writeRawLoop left i s).success =
      (repeated passByte left s).map (complete Status.ok.code (BitVec.ofNat 32 (i + left))) := by
  induction left generalizing i s with
  | zero => rfl
  | succ left ih =>
    rw [writeRawLoop, repeated_succ, passByte]
    cases dinRead s with
    | none => rfl
    | some p =>
      simp only [Option.bind_some]
      cases sinkWrite p.1 p.2 with
      | ok k t => rw [Nat.add_comm left, ← Nat.add_assoc]; exact ih (i + 1) t
      | err t => exact success_discardDin (by decide) ..
      | wait b t => rfl

theorem success_encWriteLoop (n left : Nat) {s : State} (h : s.enc.buf.length + left ≤ s.encBufBytes.toNat) :
    (encWriteLoop n left s).success =
      (repeated bufferByte left s).map (complete Status.ok.code (BitVec.ofNat 32 n)) := by
  induction left generalizing s with
  | zero => rfl
  | succ left ih =>
    rw [encWriteLoop, repeated_succ, bufferByte, if_pos (by omega)]
    cases hd : dinRead s with
    | none => rfl
    | some p =>
      obtain ⟨rest, _, hp⟩ := dinRead_some.mp hd
      refine ih (s := { p.2 with enc := p.2.enc.push p.1 }) ?_
      simp only [hp, Encoder.push, List.length_append, List.length_singleton]
      omega

/-- More bytes than the buffer has room for are not all buffered. -/
theorem repeated_bufferByte_overflow {n : Nat} {s : State} (h : s.enc.buf.length ≤ s.encBufBytes.toNat)
    (hn : s.encBufBytes.toNat < s.enc.buf.length + n) : repeated bufferByte n s = none := by
  induction n generalizing s with
  | zero => omega
  | succ n ih =>
    rw [repeated_succ, bufferByte]
    split
    · cases hd : dinRead s with
      | none => rfl
      | some p =>
        obtain ⟨rest, _, hp⟩ := dinRead_some.mp hd
        refine ih (s := { p.2 with enc := p.2.enc.push p.1 }) ?_ ?_ <;>
          simp only [hp, Encoder.push, List.length_append, List.length_singleton] <;> omega
    · rfl

/-! ### The commands -/

/-- `op n`, from a state without a latched failure, succeeds exactly when `guard` holds and `f` can be done `n` times;
`f` neither reads nor writes what the end of a command leaves in the status registers. -/
structure Elementwise (op : Nat → Instr) (f : State → Option State) (guard : State → Prop) : Prop where
  keepsCtl : ∀ s t, f s = some t → t.ctl = s.ctl
  ignoresEnd : ∀ r s, f (s.succeeded r) = (f s).map (·.succeeded r)
  succeeds : ∀ n s t, WriteReady s →
    ((exec (op n) s = .next t ∧ t.running = none ∧ t.ctl.statusCode = 0x00#8) ↔
      guard s ∧ ∃ u, repeated f n s = some u ∧ t = u.succeeded n)

/-- A command succeeds exactly when its gate and body do. -/
theorem runCommand_success {i : Instr} {body : State → Run} {s t : State} :
    (Host.Outcome.next (runCommand i body s) = (.next t : Host.Outcome State Fault Refusal) ∧ t.running = none ∧
        t.ctl.statusCode = 0x00#8) ↔
      ∃ u, (gated i body s).success = some u ∧ t = { u with running := none } := by
  rw [Host.Outcome.next.injEq]
  exact settle_success

theorem gated_encWrite_closed {n : Nat} {s : State} (hf : s.ctl.fatal = false) (hw : s.ctl.wfail = false)
    (hc : s.enc.closed = true) (body : State → Run) :
    gated (.encWrite n) body s = .done (raise .writeAfterClose (encode (.encWrite n)) 0 0#8 s) := by
  simp [gated, gate, isOpen, sideOf, stateCheck, hf, hw, hc]

theorem elementwise_bwWriteBits : Elementwise .bwWriteBits placeBit (fun _ => True) where
  keepsCtl := placeBit_ctl
  ignoresEnd := placeBit_succeeded
  succeeds n s t h := by
    obtain ⟨_, hf, hw⟩ := h
    refine runCommand_success.trans ?_
    rw [gated_proceed (gate_write rfl hf hw rfl), success_writeBitsLoop]
    simp [State.succeeded]

theorem elementwise_bwWriteRaw : Elementwise .bwWriteRaw passByte (fun s => s.bw.nbits = 0#3) where
  keepsCtl := passByte_ctl
  ignoresEnd := passByte_succeeded
  succeeds n s t h := by
    obtain ⟨_, hf, hw⟩ := h
    refine runCommand_success.trans ?_
    rw [gated_proceed (gate_write rfl hf hw rfl)]
    by_cases hn : s.bw.nbits = 0#3
    · simp [writeRawBody, hn, success_writeRawLoop, State.succeeded]
    · simp [writeRawBody, hn, success_raise (f := .misalignedRawWrite) (by decide)]

theorem elementwise_encWrite : Elementwise .encWrite bufferByte
    (fun s => s.enc.closed = false ∧ s.enc.buf.length ≤ s.encBufBytes.toNat) where
  keepsCtl := bufferByte_ctl
  ignoresEnd := bufferByte_succeeded
  succeeds n s t h := by
    obtain ⟨_, hf, hw⟩ := h
    refine runCommand_success.trans ?_
    cases hc : s.enc.closed with
    | true => simp [gated_encWrite_closed hf hw hc, success_raise (f := .writeAfterClose) (by decide)]
    | false =>
      rw [gated_proceed (gate_write rfl hf hw (by simp [stateCheck, hc])), encWriteBody]
      split
      next hover =>
        rw [success_discardDin (by decide)]
        refine iff_of_false (by simp) ?_
        rintro ⟨⟨_, hb⟩, u, hu, _⟩
        rw [repeated_bufferByte_overflow hb hover] at hu
        cases hu
      next hfit =>
        have hb : s.enc.buf.length ≤ s.encBufBytes.toNat := by omega
        simp [hb, success_encWriteLoop n n (Nat.le_of_not_lt hfit), State.succeeded]

/-- Two commands in a row that succeed do the work of one, which then succeeds. -/
theorem Elementwise.split {op : Nat → Instr} {f : State → Option State} {guard : State → Prop}
    (h : Elementwise op f guard) {s t u : State} {m n : Nat} (hs : WriteReady s)
    (hm : exec (op m) s = .next t ∧ t.running = none ∧ t.ctl.statusCode = 0x00#8)
    (hn : exec (op n) t = .next u ∧ u.running = none ∧ u.ctl.statusCode = 0x00#8) :
    exec (op (m + n)) s = .next { u with ctl := { u.ctl with result := BitVec.ofNat 32 (m + n) } } := by
  obtain ⟨hguard, a, ha, rfl⟩ := (h.succeeds m s t hs).mp hm
  have hctl := repeated_ctl h.keepsCtl ha
  have ht : WriteReady (a.succeeded m) := ⟨rfl, (congrArg Control.fatal hctl).trans hs.2.1,
    (congrArg Control.wfail hctl).trans hs.2.2⟩
  obtain ⟨_, b, hb, rfl⟩ := (h.succeeds n _ u ht).mp hn
  rw [repeated_map (h.ignoresEnd m), Option.map_eq_some_iff] at hb
  obtain ⟨c, hc, rfl⟩ := hb
  exact ((h.succeeds (m + n) s _ hs).mpr ⟨hguard, c, repeated_add ha hc, rfl⟩).1

end Sys2Proof.Machine
end

section
/-! SUPPORT. The statements of `30_encoding.md`, settled. -/

namespace Sys2Proof

open Sys2Proof.Machine

/-- Settles O1: the word of a well-formed instruction has the instruction's fields, which the decoder goes by
(`decode_eq_ok_iff`). -/
theorem decodeOfEncode : Obligations.DecodeOfEncode :=
  fun _ h => decode_eq_ok_iff.mpr ⟨rfl, h⟩

/-- Settles O2: a word is the word of its fields, which the decoder found to be the instruction's. -/
theorem encodeOfDecode : Obligations.EncodeOfDecode :=
  fun _ _ => decode_eq_ok_iff.mp

/-- Settles O3: the row of the decoded instruction selects the word, and a row that selects it gives the instruction
it decodes to; decoding is a function, so rows do not overlap. -/
theorem rowsSelectWords : Obligations.RowsSelectWords := by
  intro w
  refine ⟨fun r hr => ⟨exists_decode_of_selects r hr, ?_⟩, ?_, fun r hr r' hr' h h' => ?_⟩
  · rintro ⟨i, hd, rfl⟩
    exact (selects_of_decode hd).2
  · rw [decode_error_iff_not_ok]
    constructor
    · intro hno r hr h
      obtain ⟨i, hd, _⟩ := exists_decode_of_selects r hr h
      exact hno i hd
    · intro hno i hd
      obtain ⟨hr, h⟩ := selects_of_decode hd
      exact hno _ hr h
  · obtain ⟨i, hd, rfl⟩ := exists_decode_of_selects r hr h
    obtain ⟨j, hd', rfl⟩ := exists_decode_of_selects r' hr' h'
    rw [hd] at hd'
    cases hd'
    rfl

/-- Settles O5: the decoder's branches give the fields of the illegal words, and the step that takes one is
`illegalCommand`, which raises ILLEGAL_COMMAND. -/
theorem illegalWords : Obligations.IllegalWords := by
  intro w
  refine ⟨?fields, ⟨.op, rfl⟩, ?effect⟩
  case fields =>
    unfold decode
    split
    case h_15 => -- no row has the word's UNIT and OP: the OP is 0 or above the unit's last, or there is no such unit
      refine iff_of_true ⟨_, rfl⟩ ?_
      obtain hu | hu := Nat.lt_or_ge (unitField w) 5
      · interval_cases unitField w <;> simp at * <;> omega
      · exact .inl hu
    all_goals
      next hu ho =>
      simp [hu, ho, topByte_of_fields hu ho, formatN_error, formatB_error, formatL_error]
  case effect =>
    rintro s rest hreset hidle hfatal hcmd ⟨e, hd⟩
    rw [step_idle hreset hidle, commandStep_illegal hcmd hd, illegalCommand_raises (s := s.withCmd rest) hfatal]
    rfl

/-- Settles O22: each of the three commands is its element's operation repeated, so its operand can be split. -/
theorem operandsSplit : Obligations.OperandsSplit := by
  intro op s t u m n hop hs hm hmr hmc hn hnr hnc
  obtain rfl | rfl | rfl := hop
  · exact elementwise_bwWriteBits.split hs ⟨hm, hmr, hmc⟩ ⟨hn, hnr, hnc⟩
  · exact elementwise_bwWriteRaw.split hs ⟨hm, hmr, hmc⟩ ⟨hn, hnr, hnc⟩
  · exact elementwise_encWrite.split hs ⟨hm, hmr, hmc⟩ ⟨hn, hnr, hnc⟩

/-- Settles O4: the decoder runs on each word. -/
theorem sampleWords : Obligations.SampleWords := by
  unfold Obligations.SampleWords
  decide

end Sys2Proof
end

section
/-! SUPPORT. The gate of a write-side command, said once: its own ends, and the body it lets a ready state proceed to
(`60_exceptions.md` R232). -/

namespace Sys2Proof.Machine

/-! ### Operand bytes -/

/-- The state once the next `n` DIN bytes have been consumed (R64). -/
def State.droppedDin (n : Nat) (s : State) : State :=
  { s with env := { s.env with din := s.env.din.drop n, dinTaken := s.env.dinTaken + n } }

/-- Operand bytes that are on offer are all dropped, and the command ends (R104, R105, R171, R232). -/
theorem discardDin_of_le (e : Ending) {left : Nat} {s : State} (h : left ≤ s.env.din.length) :
    discardDin e left s = .done (endWith e (s.droppedDin left)) := by
  induction left generalizing s with
  | zero => rfl
  | succ left ih =>
    obtain ⟨b, rest, hd⟩ := List.exists_cons_of_length_pos (Nat.zero_lt_of_lt h)
    rw [discardDin, dinRead_cons hd]
    simp only [hd, List.length_cons] at h
    refine (ih (Nat.le_of_succ_le_succ h)).trans ?_
    simp [State.droppedDin, hd, Nat.add_assoc, Nat.add_comm 1]

/-! ### The gate -/

theorem gated_writeFailed {i : Instr} {s : State} (h : gate i s = .writeFailed) (body : State → Run) :
    gated i body s = discardDin (.complete s.ctl.wcode) (dinOperand i) s := by
  simp [gated, h]

section
variable {i : Instr} {body : State → Run}

/-- The gate alone decides a write-side command, but ENC.OPEN, while FATAL or WFAIL is set (R232 steps 1 and 4). -/
theorem writeGateEnds_of_runCommand (hs : sideOf i = .write) (ho : isOpen i = false)
    (hi : ∀ s, exec i s = .next (runCommand i body s)) : writeGateEnds i (dinOperand i) := by
  refine ⟨fun s hf => ?_, fun s hf hw hn => ?_⟩
  · rw [hi, runCommand, gated_refuse hf]
    rfl
  · have hg : gate i s = .writeFailed := by simp [gate, hf, hw, hs, ho]
    rw [hi, runCommand, gated_writeFailed hg, discardDin_of_le _ hn]
    rfl

/-- A write-side command with no state check does what its body does from a ready state (R232 step 6). -/
theorem exec_of_writeReady {s : State} (hs : sideOf i = .write) (hc : stateCheck i s = .proceed)
    (hi : exec i s = .next (runCommand i body s)) (h : WriteReady s) :
    exec i s = .next (settle (encode i) (body s)) := by
  obtain ⟨_, hf, hw⟩ := h
  rw [hi, runCommand, gated_proceed (gate_write hs hf hw hc)]

end

end Sys2Proof.Machine
end

section
/-! SUPPORT. The bit writer by its pending digits: placing a digit, and digits in whole bytes (`40_bit_writer.md` R100,
`20_memory.md` R61). -/

namespace Sys2Proof.Machine

/-! ### Placing a digit -/

theorem bitOfChar_charOfBit (x : Bool) : bitOfChar (charOfBit x) = some x := by
  cases x <;> rfl

theorem bitOfChar_eq_none {c : Byte} (h0 : c ≠ 0x30#8) (h1 : c ≠ 0x31#8) : bitOfChar c = none := by
  simp [bitOfChar, h0, h1]

/-- A digit put at position `7 - n` follows the first `n` digits of its byte (R61, R100). -/
theorem take_byteBits_putBit (acc : Byte) {n : Nat} (h : n < 8) (x : Bool) :
    (byteBits (putBit acc (7 - n) x)).take (n + 1) = (byteBits acc).take n ++ [x] := by
  rw [List.take_add_one]
  congr 1
  · refine List.ext_getElem (by simp) fun k hk _ => ?_
    have hk : k < n := by simp at hk; omega
    simp only [byteBits, List.getElem_take, List.getElem_map, List.getElem_range]
    rw [getLsbD_putBit _ (by omega), if_neg (by omega)]
  · simp [byteBits, h, getLsbD_putBit acc (show 7 - n < 8 by omega)]

theorem packByte_pending {w : BitWriter} (h : w.padded) : packByte w.pending = w.acc :=
  congrArg BitWriter.acc (holding_pending h)

theorem pending_holding {c : Bits} (h : c.length < 8) : (BitWriter.holding c).pending = c := by
  simp [BitWriter.pending, BitWriter.holding, byteBits_packByte h.le, Nat.mod_eq_of_lt h]

theorem padded_holding {c : Bits} (h : c.length < 8) : (BitWriter.holding c).padded := by
  intro k hk
  have hk : k < 8 - c.length := by simpa [BitWriter.holding, Nat.mod_eq_of_lt h] using hk
  have hbit : (byteBits (packByte c))[7 - k]? = some false := by
    rw [byteBits_packByte h.le, List.getElem?_append_right (by omega), List.getElem?_replicate, if_pos (by omega)]
  simpa [BitWriter.holding, byteBits, show 7 - k < 8 by omega, show 7 - (7 - k) = k by omega] using hbit

/-- A digit placed while fewer than seven are pending is pending after them (R100). -/
theorem writeBitInt_place {s : State} (hp : s.bw.padded) (hn : s.bw.nbits ≠ 7#3) (x : Bool) :
    writeBitInt x s = .ok 0 { s with bw := BitWriter.holding (s.bw.pending ++ [x]) } := by
  have hpend : BitWriter.pending { acc := putBit s.bw.acc (7 - s.bw.nbits.toNat) x, nbits := s.bw.nbits + 1#3 } =
      s.bw.pending ++ [x] := by
    simp only [BitWriter.pending, nbits_succ hn, take_byteBits_putBit _ s.bw.nbits.isLt]
  rw [← hpend, holding_pending (BitWriter.padded_put hp hn x)]
  simp [writeBitInt, hn]

/-- The eighth digit completes the byte that is offered to the sink, the writer emptied (R100). -/
theorem writeBitInt_complete {s : State} (hn : s.bw.nbits = 7#3) (x : Bool) :
    writeBitInt x s = sinkWrite (packByte (s.bw.pending ++ [x])) { s with bw := BitWriter.reset } := by
  have hbyte : byteBits (putBit s.bw.acc (7 - s.bw.nbits.toNat) x) = s.bw.pending ++ [x] := by
    rw [BitWriter.pending, ← take_byteBits_putBit _ s.bw.nbits.isLt, List.take_of_length_le (by simp [hn])]
  rw [← hbyte, packByte_byteBits]
  simp [writeBitInt, hn]

/-- A refused byte is lost and the writer empty (R100). -/
theorem writeBitInt_refused {s : State} (hn : s.bw.nbits = 7#3) {e : Byte} {more : List SinkAnswer}
    (ha : s.env.sinkAns = .err e :: more) (x : Bool) :
    writeBitInt x s = .err { s with
      bw := BitWriter.reset, env := { s.env with sinkAns := more }, ctl := { s.ctl with ioerrSink := e } } := by
  rw [writeBitInt_complete hn, sinkWrite_err (s := { s with bw := BitWriter.reset }) ha]

theorem nbits_eq_seven {w : BitWriter} : w.nbits = 7#3 ↔ w.pending.length = 7 := by
  rw [length_pending]
  exact BitVec.toNat_eq (y := 7#3)

/-! ### Digits in whole bytes -/

/-- The digits that fill whole bytes. -/
def wholeDigits (d : Bits) : Bits := d.take (8 * (d.length / 8))

/-- The digits after those that fill whole bytes. -/
def spareDigits (d : Bits) : Bits := d.drop (8 * (d.length / 8))

theorem wholeDigits_append_spareDigits (d : Bits) : wholeDigits d ++ spareDigits d = d :=
  List.take_append_drop ..

theorem length_wholeDigits (d : Bits) : (wholeDigits d).length = 8 * (d.length / 8) := by
  simp only [wholeDigits, List.length_take]
  omega

theorem length_spareDigits (d : Bits) : (spareDigits d).length = d.length % 8 := by
  simp only [spareDigits, List.length_drop]
  omega

theorem length_spareDigits_lt (d : Bits) : (spareDigits d).length < 8 :=
  (length_spareDigits d).trans_lt (Nat.mod_lt _ (by decide))

theorem wholeDigits_of_lt {d : Bits} (h : d.length < 8) : wholeDigits d = [] := by
  simp [wholeDigits, Nat.div_eq_of_lt h]

theorem spareDigits_of_lt {d : Bits} (h : d.length < 8) : spareDigits d = d := by
  simp [spareDigits, Nat.div_eq_of_lt h]

theorem wholeDigits_of_eight {d : Bits} (h : d.length = 8) : wholeDigits d = d := by
  simp [wholeDigits, h]

theorem spareDigits_of_eight {d : Bits} (h : d.length = 8) : spareDigits d = [] := by
  simp [spareDigits, h]

/-- Whole bytes of more digits: those there are, and those the spare digits make with the new ones. -/
theorem length_append_div_eight (d e : Bits) :
    (d ++ e).length / 8 = d.length / 8 + (spareDigits d ++ e).length / 8 := by
  simp only [List.length_append, length_spareDigits]
  omega

theorem append_eq_wholeDigits_append (d e : Bits) : d ++ e = wholeDigits d ++ (spareDigits d ++ e) := by
  rw [← List.append_assoc, wholeDigits_append_spareDigits]

theorem wholeDigits_append (d e : Bits) : wholeDigits (d ++ e) = wholeDigits d ++ wholeDigits (spareDigits d ++ e) := by
  rw [wholeDigits, length_append_div_eight, Nat.mul_add, ← length_wholeDigits, append_eq_wholeDigits_append d e,
    List.take_length_add_append]
  rfl

theorem spareDigits_append (d e : Bits) : spareDigits (d ++ e) = spareDigits (spareDigits d ++ e) := by
  rw [spareDigits, length_append_div_eight, Nat.mul_add, ← length_wholeDigits, append_eq_wholeDigits_append d e,
    List.drop_length_add_append]
  rfl

/-- One to eight digits come to one byte (R61). -/
theorem packBits_eq_singleton {c : Bits} (h0 : 0 < c.length) (h8 : c.length ≤ 8) : packBits c = [packByte c] := by
  rw [packBits, show (c.length + 7) / 8 = 1 by omega]
  rfl

/-- The pending digits come to one byte, the accumulator (R37, R106). -/
theorem packBits_pending {w : BitWriter} (h : w.padded) (hn : w.nbits ≠ 0#3) : packBits w.pending = [w.acc] := by
  have hpos : 0 < w.pending.length := by
    rw [length_pending]
    exact Nat.pos_of_ne_zero fun h0 => hn (BitVec.eq_of_toNat_eq h0)
  have hlt : w.pending.length < 8 := (length_pending w).trans_lt w.nbits.isLt
  rw [packBits_eq_singleton hpos hlt.le, packByte_pending h]

end Sys2Proof.Machine
end

section
/-! SUPPORT. The bit writer's commands from a ready state: BW.WRITEBIT, the flushes, and the loops of BW.WRITEBITS and
BW.WRITERAW up to the end of their operand or the element that stops them (`40_bit_writer.md` R103 to R107). -/

namespace Sys2Proof.Machine

/-! ### Elements done -/

/-- A loop whose step is an element's operation goes on after the elements it has done. -/
theorem loop_repeated {f : State → Option State} {loop : Nat → Nat → State → Run}
    (hstep : ∀ left i s t, f s = some t → loop (left + 1) i s = loop left (i + 1) t) {n : Nat} (left i : Nat)
    {s t : State} (h : repeated f n s = some t) : loop (n + left) i s = loop left (i + n) t := by
  induction n generalizing s i with
  | zero =>
    cases h
    rw [Nat.zero_add, Nat.add_zero]
  | succ n ih =>
    rw [repeated_succ, Option.bind_eq_some_iff] at h
    obtain ⟨u, hu, ht⟩ := h
    rw [Nat.add_right_comm, hstep _ i s u hu, ih (i + 1) ht, Nat.add_right_comm, Nat.add_assoc]

/-- The state once `n` digits taken from DIN, with those pending before them `d` in all, have been placed: the whole
bytes are in the sink and the rest is pending (R104). -/
def State.placed (d : Bits) (n : Nat) (rest : List Byte) (more : List SinkAnswer) (s : State) : State :=
  { s with
    bw := BitWriter.holding (spareDigits d)
    env := { s.env with
      din := rest
      dinTaken := s.env.dinTaken + n
      sink := s.env.sink ++ packBits (wholeDigits d)
      sinkAns := more } }

/-- The state once the bytes `bs` have gone from DIN to the sink (R105). -/
def State.passed (bs rest : List Byte) (more : List SinkAnswer) (s : State) : State :=
  { s with env := { s.env with
      din := rest, dinTaken := s.env.dinTaken + bs.length, sink := s.env.sink ++ bs, sinkAns := more } }

/-- Digits placed after others have been: those of them that are still pending come first. -/
theorem State.placed_placed (d e : Bits) (m n : Nat) (rest rest' : List Byte) (more more' : List SinkAnswer)
    (s : State) :
    (s.placed d m rest more).placed (spareDigits d ++ e) n rest' more' = s.placed (d ++ e) (m + n) rest' more' := by
  have hbytes : packBits (wholeDigits (d ++ e)) =
      packBits (wholeDigits d) ++ packBits (wholeDigits (spareDigits d ++ e)) := by
    rw [wholeDigits_append, packBits_append (length_wholeDigits d)]
  simp [State.placed, hbytes, spareDigits_append d e, Nat.add_assoc]

/-- What is pending once digits have been placed are the spare ones (R37). -/
theorem placed_pending (d : Bits) (n : Nat) (rest : List Byte) (more : List SinkAnswer) (s : State) :
    (s.placed d n rest more).bw.pending = spareDigits d :=
  pending_holding (length_spareDigits_lt d)

theorem placed_padded (d : Bits) (n : Nat) (rest : List Byte) (more : List SinkAnswer) (s : State) :
    (s.placed d n rest more).bw.padded :=
  padded_holding (length_spareDigits_lt d)

/-! ### BW.WRITEBITS -/

/-- A digit whose byte, if it completes one, is ACKed goes after the pending ones: whole bytes to the sink, the rest
pending (R100). -/
theorem writeBitInt_accepted {s : State} {x : Bool} {more : List SinkAnswer} (hp : s.bw.padded)
    (ha : s.env.sinkAns = List.replicate ((s.bw.pending ++ [x]).length / 8) .ack ++ more) :
    (writeBitInt x s).accepted = some { s with
      bw := BitWriter.holding (spareDigits (s.bw.pending ++ [x]))
      env := { s.env with
        sink := s.env.sink ++ packBits (wholeDigits (s.bw.pending ++ [x])), sinkAns := more } } := by
  by_cases hn : s.bw.nbits = 7#3
  · have h8 : (s.bw.pending ++ [x]).length = 8 := by simp [nbits_eq_seven.mp hn]
    rw [h8] at ha
    rw [writeBitInt_complete hn, sinkWrite_ack (s := { s with bw := BitWriter.reset }) ha, wholeDigits_of_eight h8,
      spareDigits_of_eight h8, packBits_eq_singleton (by omega) h8.le]
    rfl
  · have h8 : (s.bw.pending ++ [x]).length < 8 := by
      have hne := mt nbits_eq_seven.mpr hn
      have hlt := s.bw.nbits.isLt
      rw [length_pending] at hne
      simp only [List.length_append, List.length_singleton, length_pending]
      omega
    rw [Nat.div_eq_of_lt h8] at ha
    obtain rfl : s.env.sinkAns = more := ha
    rw [writeBitInt_place hp hn, wholeDigits_of_lt h8, spareDigits_of_lt h8]
    simp [SinkResult.accepted]

/-- One digit of BW.WRITEBITS (R104). -/
theorem placeBit_placed {s : State} {x : Bool} {rest : List Byte} {more : List SinkAnswer} (hp : s.bw.padded)
    (hd : s.env.din = charOfBit x :: rest)
    (ha : s.env.sinkAns = List.replicate ((s.bw.pending ++ [x]).length / 8) .ack ++ more) :
    placeBit s = some (s.placed (s.bw.pending ++ [x]) 1 rest more) := by
  rw [placeBit, dinRead_cons hd, Option.bind_some, bitOfChar_charOfBit, Option.bind_some]
  exact writeBitInt_accepted (s := { s with env := { s.env with din := rest, dinTaken := s.env.dinTaken + 1 } }) hp ha

/-- BW.WRITEBITS places digits one after the other, as long as the bytes they complete are ACKed (R104). -/
theorem repeated_placeBit {bits : Bits} {s : State} {rest : List Byte} {more : List SinkAnswer} (hp : s.bw.padded)
    (hd : s.env.din = bits.map charOfBit ++ rest)
    (ha : s.env.sinkAns = List.replicate ((s.bw.pending ++ bits).length / 8) .ack ++ more) :
    repeated placeBit bits.length s = some (s.placed (s.bw.pending ++ bits) bits.length rest more) := by
  induction bits generalizing s with
  | nil =>
    have hlt : (s.bw.pending ++ []).length < 8 := by simpa [length_pending] using s.bw.nbits.isLt
    rw [Nat.div_eq_of_lt hlt] at ha
    obtain rfl : s.env.din = rest := hd
    obtain rfl : s.env.sinkAns = more := ha
    rw [State.placed, wholeDigits_of_lt hlt, spareDigits_of_lt hlt]
    simp [holding_pending hp]
  | cons x bits ih =>
    have hall : s.bw.pending ++ x :: bits = (s.bw.pending ++ [x]) ++ bits := by simp
    rw [hall, length_append_div_eight, List.replicate_add, List.append_assoc] at ha
    rw [List.length_cons, repeated_succ, placeBit_placed hp hd ha, Option.bind_some, hall]
    refine (ih (placed_padded _ _ _ _ _) rfl (by rw [placed_pending]; rfl)).trans ?_
    rw [placed_pending, State.placed_placed, Nat.add_comm]

theorem writeBitsLoop_placeBit (cmd : Word) (left i : Nat) {s t : State} (h : placeBit s = some t) :
    writeBitsLoop cmd (left + 1) i s = writeBitsLoop cmd left (i + 1) t := by
  simp only [placeBit, Option.bind_eq_some_iff] at h
  obtain ⟨⟨c, u⟩, hd, x, hx, ht⟩ := h
  simp only [writeBitsLoop, hd, hx]
  cases hr : writeBitInt x u <;> rw [hr] at ht <;> cases ht
  rfl

/-- BW.WRITEBITS goes on after the digits it has placed (R104). -/
theorem writeBitsLoop_repeated (cmd : Word) {n : Nat} (left i : Nat) {s t : State}
    (h : repeated placeBit n s = some t) :
    writeBitsLoop cmd (n + left) i s = writeBitsLoop cmd left (i + n) t :=
  loop_repeated (fun left i _ _ => writeBitsLoop_placeBit cmd left i) left i h

/-- A character that is no bit character, the `i`-th, is consumed and fatal (R104). -/
theorem writeBitsLoop_invalid (cmd : Word) (left i : Nat) {s : State} {c : Byte} {rest : List Byte}
    (hd : s.env.din = c :: rest) (hc : bitOfChar c = none) :
    writeBitsLoop cmd (left + 1) i s = .done (raise .invalidBit cmd i c
      { s with env := { s.env with din := rest, dinTaken := s.env.dinTaken + 1 } }) := by
  rw [writeBitsLoop, dinRead_cons hd]
  simp only [hc]

/-- A refused byte, completed by the `i`-th digit, is lost, and the digits left in the operand are dropped (R104). -/
theorem writeBitsLoop_refused (cmd : Word) {left : Nat} (i : Nat) {s : State} {x : Bool} {e : Byte} {rest : List Byte}
    {more : List SinkAnswer} (hn : s.bw.nbits = 7#3) (hd : s.env.din = charOfBit x :: rest) (hl : left ≤ rest.length)
    (ha : s.env.sinkAns = .err e :: more) :
    writeBitsLoop cmd (left + 1) i s = .done (writeFail .ioError (BitVec.ofNat 32 i) { s with
      bw := BitWriter.reset
      env := { s.env with din := rest.drop left, dinTaken := s.env.dinTaken + (left + 1), sinkAns := more }
      ctl := { s.ctl with ioerrSink := e } }) := by
  rw [writeBitsLoop, dinRead_cons hd]
  simp only [bitOfChar_charOfBit]
  rw [writeBitInt_refused (by exact hn) (by exact ha), writeBitsAfter, discardDin_of_le _ (by exact hl)]
  simp [endWith, State.droppedDin, Nat.add_assoc, Nat.add_comm 1]

/-! ### BW.WRITERAW -/

theorem repeated_passByte {bs : List Byte} {s : State} {rest : List Byte} {more : List SinkAnswer}
    (hd : s.env.din = bs ++ rest) (ha : s.env.sinkAns = List.replicate bs.length .ack ++ more) :
    repeated passByte bs.length s = some (s.passed bs rest more) := by
  induction bs generalizing s with
  | nil =>
    obtain rfl : s.env.din = rest := hd
    obtain rfl : s.env.sinkAns = more := ha
    simp [State.passed]
  | cons b bs ih =>
    have hone : passByte s = some (s.passed [b] (bs ++ rest) (List.replicate bs.length .ack ++ more)) := by
      rw [passByte, dinRead_cons hd, Option.bind_some, sinkWrite_ack (by exact ha)]
      rfl
    rw [List.length_cons, repeated_succ, hone, Option.bind_some, ih rfl rfl]
    simp [State.passed, Nat.add_assoc, Nat.add_comm 1]

theorem writeRawLoop_passByte (left i : Nat) {s t : State} (h : passByte s = some t) :
    writeRawLoop (left + 1) i s = writeRawLoop left (i + 1) t := by
  simp only [passByte, Option.bind_eq_some_iff] at h
  obtain ⟨⟨b, u⟩, hd, ht⟩ := h
  simp only [writeRawLoop, hd]
  cases hr : sinkWrite b u <;> rw [hr] at ht <;> cases ht
  rfl

/-- BW.WRITERAW goes on after the bytes it has passed (R105). -/
theorem writeRawLoop_repeated {n : Nat} (left i : Nat) {s t : State} (h : repeated passByte n s = some t) :
    writeRawLoop (n + left) i s = writeRawLoop left (i + n) t :=
  loop_repeated (fun left i _ _ => writeRawLoop_passByte left i) left i h

/-- A refused byte, the `i`-th, is lost, and the bytes left in the operand are dropped (R105). -/
theorem writeRawLoop_refused {left : Nat} (i : Nat) {s : State} {b e : Byte} {rest : List Byte}
    {more : List SinkAnswer} (hd : s.env.din = b :: rest) (hl : left ≤ rest.length)
    (ha : s.env.sinkAns = .err e :: more) :
    writeRawLoop (left + 1) i s = .done (writeFail .ioError (BitVec.ofNat 32 i) { s with
      env := { s.env with din := rest.drop left, dinTaken := s.env.dinTaken + (left + 1), sinkAns := more }
      ctl := { s.ctl with ioerrSink := e } }) := by
  rw [writeRawLoop, dinRead_cons hd]
  simp only
  rw [sinkWrite_err (by exact ha), writeRawAfter, discardDin_of_le _ (by exact hl)]
  simp [endWith, State.droppedDin, Nat.add_assoc, Nat.add_comm 1]

/-! ### Commands from a ready state -/

section
variable {s : State} (h : WriteReady s)
include h

theorem exec_bwWriteBit_ready (c : Byte) :
    exec (.bwWriteBit c) s = .next (settle (encode (.bwWriteBit c)) (writeBitBody (encode (.bwWriteBit c)) c s)) :=
  exec_of_writeReady rfl rfl rfl h

theorem exec_bwWriteBit_charOfBit (x : Bool) :
    exec (.bwWriteBit (charOfBit x)) s =
      .next (settle (encode (.bwWriteBit (charOfBit x))) (writeBitAfter (writeBitInt x s))) := by
  rw [exec_bwWriteBit_ready h, writeBitBody, bitOfChar_charOfBit]

theorem exec_bwWriteBits_ready (n : Nat) :
    exec (.bwWriteBits n) s =
      .next (settle (encode (.bwWriteBits n)) (writeBitsLoop (encode (.bwWriteBits n)) n 0 s)) :=
  exec_of_writeReady rfl rfl rfl h

theorem exec_bwWriteRaw_ready (n : Nat) :
    exec (.bwWriteRaw n) s =
      .next (settle (encode (.bwWriteRaw n)) (writeRawBody (encode (.bwWriteRaw n)) n s)) :=
  exec_of_writeReady rfl rfl rfl h

theorem exec_flush_ready {i : Instr} (hi : i = .bwFlush ∨ i = .bwClose) :
    exec i s = .next (settle (encode i) (flushAfter (flushInt s))) := by
  obtain rfl | rfl := hi <;>
    exact exec_of_writeReady (body := fun s => flushAfter (flushInt s)) rfl rfl rfl h

end

end Sys2Proof.Machine
end

section
/-! SUPPORT. The statements of `40_bit_writer.md`, settled. -/

namespace Sys2Proof.Machine

/-- Settles O12: WriteBitInt puts the digit after the pending ones (`writeBitInt_place`), or offers the byte of all
eight (`writeBitInt_complete`). -/
theorem writeBitPlacesDigit : Obligations.WriteBitPlacesDigit := by
  refine ⟨fun c => writeGateEnds_of_runCommand rfl rfl fun _ => rfl, fun s h hp => ?_⟩
  have hr : s.running = none := h.1
  refine ⟨?placed, ?acked, ?refused, ?invalid⟩
  case placed =>
    intro x hn
    rw [exec_bwWriteBit_charOfBit h, writeBitInt_place hp hn]
    simp [writeBitAfter, complete, Status.code, hr]
  case acked =>
    intro x more hn ha
    rw [exec_bwWriteBit_charOfBit h, writeBitInt_complete hn, sinkWrite_ack (by exact ha)]
    simp [writeBitAfter, complete, Status.code, BitWriter.reset, hr]
  case refused =>
    intro x e more hn ha
    rw [exec_bwWriteBit_charOfBit h, writeBitInt_refused hn ha]
    simp [writeBitAfter, writeFail, Status.code, BitWriter.reset, hr]
  case invalid =>
    intro c h0 h1
    rw [exec_bwWriteBit_ready h, writeBitBody, bitOfChar_eq_none h0 h1]
    simp [raise, Status.code, hr]

/-- Settles O13: the digits before the end are placed (`repeated_placeBit`), and the loop goes on from there. -/
theorem writeBitsPacksDigits : Obligations.WriteBitsPacksDigits := by
  refine ⟨fun n => writeGateEnds_of_runCommand rfl rfl fun _ => rfl, fun s h hp => ?_⟩
  have hr : s.running = none := h.1
  refine ⟨?placed, ?invalid, ?refused⟩
  case placed =>
    intro bits rest more hd ha
    rw [exec_bwWriteBits_ready h, ← Nat.add_zero bits.length,
      writeBitsLoop_repeated _ 0 0 (repeated_placeBit hp hd ha), writeBitsLoop]
    simp [State.placed, wholeDigits, spareDigits, complete, Status.code, hr]
  case invalid =>
    intro pre c n rest more h0 h1 hn hd ha
    obtain ⟨left, rfl⟩ := Nat.exists_eq_add_of_lt hn
    rw [exec_bwWriteBits_ready h, Nat.add_assoc, writeBitsLoop_repeated _ _ 0 (repeated_placeBit hp hd ha),
      writeBitsLoop_invalid _ _ _ rfl (bitOfChar_eq_none h0 h1)]
    simp [State.placed, wholeDigits, spareDigits, raise, Status.code, hr, Nat.add_assoc]
  case refused =>
    intro pre x k e tail rest more hk hd ha
    have hpre : (s.bw.pending ++ pre).length = 8 * k + 7 := by simp at hk ⊢; omega
    have hdiv : (s.bw.pending ++ pre).length / 8 = k := by omega
    have hwhole : wholeDigits (s.bw.pending ++ pre) = (s.bw.pending ++ pre).take (8 * k) := by rw [wholeDigits, hdiv]
    have hplaced := repeated_placeBit (rest := charOfBit x :: (tail ++ rest)) (more := .err e :: more) hp
      (by simpa using hd) (by rw [hdiv]; exact ha)
    have hseven : (spareDigits (s.bw.pending ++ pre)).length = 7 := by rw [length_spareDigits]; omega
    rw [exec_bwWriteBits_ready h, Nat.add_assoc, Nat.add_comm 1, writeBitsLoop_repeated _ _ 0 hplaced,
      writeBitsLoop_refused _ _ (nbits_eq_seven.mpr (by rwa [placed_pending])) rfl (by simp) rfl]
    simp [State.placed, hwhole, writeFail, Status.code, BitWriter.reset, hr, Nat.add_assoc]

/-- Settles O14: the bytes before the end are passed (`repeated_passByte`), and the loop goes on from there. -/
theorem writeRawPassesBytes : Obligations.WriteRawPassesBytes := by
  refine ⟨fun n => writeGateEnds_of_runCommand rfl rfl fun _ => rfl, fun s h => ?_⟩
  have hr : s.running = none := h.1
  refine ⟨?passed, ?refused, ?misaligned⟩
  case passed =>
    intro bs rest more hn hd ha
    rw [exec_bwWriteRaw_ready h, writeRawBody, if_pos hn, ← Nat.add_zero bs.length,
      writeRawLoop_repeated 0 0 (repeated_passByte hd ha), writeRawLoop]
    simp [State.passed, complete, Status.code, hr]
  case refused =>
    intro pre tail rest b e more hn hd ha
    rw [exec_bwWriteRaw_ready h, writeRawBody, if_pos hn, Nat.add_assoc, Nat.add_comm 1,
      writeRawLoop_repeated _ 0 (repeated_passByte hd ha), writeRawLoop_refused _ rfl (by simp) rfl]
    simp [State.passed, writeFail, Status.code, hr, Nat.add_assoc]
  case misaligned =>
    intro n hn
    rw [exec_bwWriteRaw_ready h, writeRawBody, if_neg hn]
    simp [raise, Status.code, hr]

/-- Settles O15: FlushInt does nothing when aligned, and else offers the padded accumulator, which is the byte of the
pending digits (`packBits_pending`). -/
theorem flushAndClosePad : Obligations.FlushAndClosePad := by
  refine ⟨writeGateEnds_of_runCommand rfl rfl fun _ => rfl, writeGateEnds_of_runCommand rfl rfl fun _ => rfl,
    fun i s hi h hp => ?_⟩
  have hr : s.running = none := h.1
  refine ⟨?aligned, ?acked, ?refused⟩
  case aligned =>
    intro hn
    rw [exec_flush_ready h hi, flushInt, if_pos hn]
    simp [flushAfter, complete, Status.code, hr]
  case acked =>
    intro more hn ha
    rw [exec_flush_ready h hi, flushInt, if_neg hn, sinkWrite_ack (by exact ha), packBits_pending hp hn]
    simp [flushAfter, complete, Status.code, BitWriter.reset, hr]
  case refused =>
    intro e more hn ha
    rw [exec_flush_ready h hi, flushInt, if_neg hn, sinkWrite_err (by exact ha)]
    simp [flushAfter, writeFail, Status.code, BitWriter.reset, hr]

end Sys2Proof.Machine
end

section
/-! SUPPORT. The gate of a read-side command, said once: its own ends, and the body it lets a ready state proceed to
(`60_exceptions.md` R232). -/

namespace Sys2Proof.Machine

theorem gated_readFailed {i : Instr} {s : State} (h : gate i s = .readFailed) (body : State → Run) :
    gated i body s = .done (complete s.ctl.rcode 0#32 s) := by
  simp [gated, h]

section
variable {i : Instr} {body : State → Run}

/-- The gate alone decides a read-side command, but DEC.OPEN, while FATAL or RFAIL is set (R232 steps 1 and 4). -/
theorem readGateEnds_of_runCommand (hs : sideOf i = .read) (ho : isOpen i = false)
    (hi : ∀ s, exec i s = .next (runCommand i body s)) : readGateEnds i := by
  refine ⟨fun s hf => ?_, fun s hf hr => ?_⟩
  · rw [hi, runCommand, gated_refuse hf]
    rfl
  · have hg : gate i s = .readFailed := by simp [gate, hf, hr, hs, ho]
    rw [hi, runCommand, gated_readFailed hg]
    rfl

/-- A read-side command whose state check passes does what its body does from a ready state (R232 step 6). -/
theorem exec_of_readReady {s : State} (hs : sideOf i = .read) (hc : stateCheck i s = .proceed)
    (hi : exec i s = .next (runCommand i body s)) (h : ReadReady s) :
    exec i s = .next (settle (encode i) (body s)) := by
  obtain ⟨_, hf, hr⟩ := h
  rw [hi, runCommand, gated_proceed (gate_read hs hf hr hc)]

end

end Sys2Proof.Machine
end

section
/-! SUPPORT. The bit reader's commands from a ready state, and the loop of BR.READRAW up to the end of its bytes or the
answer that stops it (`41_bit_reader.md` R124, R125). -/

namespace Sys2Proof.Machine

/-- The state once the bytes `bs` have gone from the source to DOUT, which then has `room` places left (R124). -/
def State.delivered (bs : List Byte) (rest : List SrcAnswer) (room : Nat) (s : State) : State :=
  { s with env := { s.env with
      src := rest, srcTaken := s.env.srcTaken + bs.length, dout := s.env.dout ++ bs, doutRoom := room } }

section
variable {s : State} {rest : List SrcAnswer} {e : Byte} (cmd : Word) (left i : Nat) (hn : s.br.nbits = 0#3)
include hn

/-- BR.READRAW delivers a byte that the source gives and DOUT has room for (R124). -/
theorem readRawLoop_data {b : Byte} {room : Nat} (he : s.br.ended = false) (hs : s.env.src = .data b :: rest)
    (hr : s.env.doutRoom = room + 1) :
    readRawLoop cmd (left + 1) i s = readRawLoop cmd left (i + 1) (s.delivered [b] rest room) := by
  rw [readRawLoop, readRawInt_data hn he hs]
  simp only [readRawDeliver]
  rw [doutWrite_some.mpr ⟨room, by exact hr, rfl⟩]
  rfl

/-- BR.READRAW goes on after the bytes it has delivered (R124); for no bytes, after END too. -/
theorem readRawLoop_delivered {bs : List Byte} {room : Nat} (he : s.br.ended = false ∨ bs = [])
    (hs : s.env.src = bs.map .data ++ rest) (hr : s.env.doutRoom = bs.length + room) :
    readRawLoop cmd (bs.length + left) i s = readRawLoop cmd left (i + bs.length) (s.delivered bs rest room) := by
  induction bs generalizing s i with
  | nil =>
    obtain rfl : s.env.src = rest := hs
    obtain rfl : s.env.doutRoom = room := hr.trans (Nat.zero_add room)
    simp [State.delivered]
  | cons b bs ih =>
    obtain he | hnil := he
    · have hroom : s.env.doutRoom = bs.length + room + 1 := hr.trans (Nat.add_right_comm ..)
      rw [List.length_cons, Nat.add_right_comm,
        readRawLoop_data cmd _ i (rest := bs.map SrcAnswer.data ++ rest) hn he hs hroom,
        ih (s := s.delivered [b] _ _) (i + 1) hn (.inl he) rfl rfl]
      simp [State.delivered, Nat.add_assoc, Nat.add_comm 1]
    · cases hnil

/-- After END no byte comes and the source is not asked (R121, R124). -/
theorem readRawLoop_ended (he : s.br.ended = true) :
    readRawLoop cmd (left + 1) i s = .done (complete Status.endOfSource.code (BitVec.ofNat 32 i) s) := by
  rw [readRawLoop, readRawInt_ended hn he]

/-- The source's END in place of the `i`-th byte (R124). -/
theorem readRawLoop_exhausted (he : s.br.ended = false) (hs : s.env.src = .exhausted :: rest) :
    readRawLoop cmd (left + 1) i s = .done (complete Status.endOfSource.code (BitVec.ofNat 32 i)
      { s with env := { s.env with src := rest }, br := { s.br with ended := true } }) := by
  rw [readRawLoop, readRawInt_exhausted hn he hs]

/-- The source's ERR in place of the `i`-th byte (R124). -/
theorem readRawLoop_err (he : s.br.ended = false) (hs : s.env.src = .err e :: rest) :
    readRawLoop cmd (left + 1) i s = .done (readFail .ioError (BitVec.ofNat 32 i)
      { s with env := { s.env with src := rest }, ctl := { s.ctl with ioerrSrc := e } }) := by
  rw [readRawLoop, readRawInt_err hn he hs]

end

section
variable {s : State} (h : ReadReady s)
include h

theorem exec_brReadRaw_ready (n : Nat) :
    exec (.brReadRaw n) s = .next (settle (encode (.brReadRaw n)) (readRawBody (encode (.brReadRaw n)) n s)) :=
  exec_of_readReady rfl rfl rfl h

/-- BR.READRAW of an aligned reader is its loop (R124). -/
theorem exec_brReadRaw_aligned (hn : s.br.nbits = 0#3) (n : Nat) :
    exec (.brReadRaw n) s =
      .next (settle (encode (.brReadRaw n)) (readRawLoop (encode (.brReadRaw n)) n 0 s)) := by
  rw [exec_brReadRaw_ready h, readRawBody, if_pos hn]

theorem exec_brResetAlign_ready :
    exec .brResetAlign s = .next (settle (encode .brResetAlign) (resetAlignBody s)) :=
  exec_of_readReady rfl rfl rfl h

end

end Sys2Proof.Machine
end

section
/-! SUPPORT. The statements of `41_bit_reader.md`, settled. -/

namespace Sys2Proof.Machine

/-- Settles O16: one case of ReadBitInt each (`readBitInt_unread` to `readBitInt_err`). -/
theorem readBitCases : Obligations.ReadBitCases := by
  refine ⟨readGateEnds_of_runCommand rfl rfl fun _ => rfl, fun s h => ?_⟩
  have hidle : s.running = none := h.1
  refine ⟨?unread, ?fresh, ?ended, ?exhausted, ?err⟩
  case unread =>
    intro hn
    rw [exec_brReadBit_got h (readBitInt_unread hn)]
    simp [complete, Status.code, hidle]
  case fresh =>
    intro b rest hn he hs
    rw [exec_brReadBit_got h (readBitInt_data hn he hs)]
    simp [complete, Status.code, hidle, he]
  case ended =>
    intro hn he
    rw [exec_brReadBit_ready h, readBitBody, readBitInt_ended hn he]
    simp [complete, Status.code, hidle]
  case exhausted =>
    intro rest hn he hs
    rw [exec_brReadBit_ready h, readBitBody, readBitInt_exhausted hn he hs]
    simp [complete, Status.code, hidle]
  case err =>
    intro e rest hn he hs
    rw [exec_brReadBit_ready h, readBitBody, readBitInt_err hn he hs]
    simp [readFail, Status.code, hidle]

/-- Settles O18: the bytes before the end are delivered (`readRawLoop_delivered`), and the loop goes on from there. -/
theorem readRawMovesBytes : Obligations.ReadRawMovesBytes := by
  refine ⟨fun n => readGateEnds_of_runCommand rfl rfl fun _ => rfl, fun s h => ?_⟩
  have hidle : s.running = none := h.1
  refine ⟨?delivered, ?exhausted, ?ended, ?err, ?misaligned⟩
  case delivered =>
    intro bs rest room hn he hs hr
    have hloop := readRawLoop_delivered (encode (.brReadRaw bs.length)) 0 0 hn he hs hr
    rw [Nat.add_zero] at hloop
    rw [exec_brReadRaw_aligned h hn, hloop, readRawLoop]
    simp [State.delivered, complete, Status.code, hidle]
  case exhausted =>
    intro bs rest room n hn he hlt hs hr
    obtain ⟨left, rfl⟩ := Nat.exists_eq_add_of_lt hlt
    rw [exec_brReadRaw_aligned h hn, Nat.add_assoc, readRawLoop_delivered _ _ 0 hn (.inl he) hs hr,
      readRawLoop_exhausted _ _ _ (by exact hn) (by exact he) rfl]
    simp [State.delivered, complete, Status.code, hidle]
  case ended =>
    intro n hn he hpos
    obtain ⟨left, rfl⟩ := Nat.exists_eq_add_of_lt hpos
    rw [exec_brReadRaw_aligned h hn, readRawLoop_ended _ _ _ hn he]
    simp [complete, Status.code, hidle]
  case err =>
    intro bs e rest room n hn he hlt hs hr
    obtain ⟨left, rfl⟩ := Nat.exists_eq_add_of_lt hlt
    rw [exec_brReadRaw_aligned h hn, Nat.add_assoc, readRawLoop_delivered _ _ 0 hn (.inl he) hs hr,
      readRawLoop_err _ _ _ (by exact hn) (by exact he) rfl]
    simp [State.delivered, readFail, Status.code, hidle]
  case misaligned =>
    intro n hn
    rw [exec_brReadRaw_ready h, readRawBody, if_neg hn]
    simp [raise, Status.code, hidle]

/-- Settles O19: ResetAlignInt's count of dropped bits is RESULT, and the body does nothing besides (R122). -/
theorem resetAlignDropsBits : Obligations.ResetAlignDropsBits := by
  refine ⟨readGateEnds_of_runCommand rfl rfl fun _ => rfl, fun s h => ?_⟩
  have hidle : s.running = none := h.1
  rw [exec_brResetAlign_ready h, resetAlignBody, resetAlignInt]
  simp [complete, Status.code, hidle]

end Sys2Proof.Machine
end

section
/-! SUPPORT. The order of merge keys and the collection P, which stays in strictly ascending order
(`42_tree_builder.md` R142, R143). -/

namespace Sys2Proof.Machine

theorem keyBefore_iff {a b : MergeKey} :
    keyBefore a b = true ↔ a.1.toNat < b.1.toNat ∨ a.1 = b.1 ∧ a.2 < b.2 := by
  simp [keyBefore]

theorem keyBefore_irrefl (a : MergeKey) : ¬ keyBefore a a = true := by simp [keyBefore_iff]

theorem keyBefore_trans {a b c : MergeKey} (hab : keyBefore a b = true) (hbc : keyBefore b c = true) :
    keyBefore a c = true := by
  simp only [keyBefore_iff, ← BitVec.toNat_inj] at *
  omega

/-- Of two different keys one comes first. -/
theorem keyBefore_of_not {a b : MergeKey} (hne : a ≠ b) (h : ¬ keyBefore a b = true) : keyBefore b a = true := by
  simp only [keyBefore_iff, ← BitVec.toNat_inj, ne_eq, Prod.ext_iff] at *
  omega

/-- P holds its keys in strictly ascending order, so its head is its least key. -/
abbrev KeysAscending (p : List MergeKey) : Prop := p.Pairwise (fun a b => keyBefore a b = true)

theorem keysAscending_insertKey {k : MergeKey} {p : List MergeKey} (hk : k ∉ p) (hp : KeysAscending p) :
    KeysAscending (insertKey k p) := by
  induction p with
  | nil => simp [insertKey]
  | cons a rest ih =>
    obtain ⟨hne, hrest⟩ := not_or.mp (mt List.mem_cons.mpr hk)
    obtain ⟨ha, hp⟩ := List.pairwise_cons.mp hp
    simp only [insertKey]
    split
    case isTrue hka =>
      refine List.pairwise_cons.mpr ⟨fun c hc => ?_, List.pairwise_cons.mpr ⟨ha, hp⟩⟩
      obtain rfl | hc := List.mem_cons.mp hc
      · exact hka
      · exact keyBefore_trans hka (ha c hc)
    case isFalse hka =>
      refine List.pairwise_cons.mpr ⟨fun c hc => ?_, ih hrest hp⟩
      obtain rfl | hc := mem_insertKey.mp hc
      · exact keyBefore_of_not hne hka
      · exact ha c hc

theorem insertKey_perm (k : MergeKey) (p : List MergeKey) : (insertKey k p).Perm (k :: p) := by
  induction p with
  | nil => exact .refl _
  | cons a rest ih =>
    simp only [insertKey]
    split
    · exact .refl _
    · exact (ih.cons a).trans (.swap k a rest)

theorem foldr_insertKey_perm (l : List MergeKey) : (l.foldr insertKey []).Perm l := by
  induction l with
  | nil => exact .refl _
  | cons k l ih => exact (insertKey_perm k _).trans (ih.cons k)

theorem keysAscending_foldr_insertKey {l : List MergeKey} (hl : l.Nodup) : KeysAscending (l.foldr insertKey []) := by
  induction l with
  | nil => exact .nil
  | cons k l ih =>
    obtain ⟨hk, hl⟩ := List.nodup_cons.mp hl
    exact keysAscending_insertKey (mt (foldr_insertKey_perm l).mem_iff.mp hk) (ih hl)

/-! ### The leaves' keys -/

theorem leafKeys_perm (nodes : List Node) :
    (leafKeys nodes).Perm (nodes.zipIdx.map (fun x => (x.1.freq, x.2))) := foldr_insertKey_perm _

theorem keysAscending_leafKeys (nodes : List Node) : KeysAscending (leafKeys nodes) := by
  refine keysAscending_foldr_insertKey (.of_map Prod.snd ?_)
  rw [List.map_map]
  exact List.nodup_zipIdx_map_snd nodes

theorem mem_leafKeys {nodes : List Node} {a : MergeKey} :
    a ∈ leafKeys nodes ↔ nodes[a.2]?.map Node.freq = some a.1 := by
  obtain ⟨f, j⟩ := a
  simp [(leafKeys_perm nodes).mem_iff, List.mk_mem_zipIdx_iff_getElem?]

theorem length_leafKeys (nodes : List Node) : (leafKeys nodes).length = nodes.length := by
  simp [(leafKeys_perm nodes).length_eq]

theorem sum_leafKeys (nodes : List Node) : ((leafKeys nodes).map Prod.fst).sum = (nodes.map Node.freq).sum := by
  rw [((leafKeys_perm nodes).map Prod.fst).sum_eq, List.map_map]
  conv_rhs => rw [← List.zipIdx_map_fst 0 nodes, List.map_map]
  rfl

end Sys2Proof.Machine
end

section
/-! SUPPORT. The arena a tree is built in: what each merge leaves in it, and that later merges change nothing of that
(`42_tree_builder.md` R141 to R143). -/

namespace Sys2Proof.Machine

/-- Node `k` has node `j` as a child. -/
def HasChild (nodes : List Node) (k j : Nat) : Prop :=
  ∃ f l r, nodes[k]? = some (Node.internal f l r) ∧ (l.toNat = j ∨ r.toNat = j)

/-- `a` is the key of a node before `k` that no node before `k` has as a child: it is in P when node `k` is created
(R143). -/
structure WaitsAt (nodes : List Node) (k : Nat) (a : MergeKey) : Prop where
  lt : a.2 < k
  freq : nodes[a.2]?.map Node.freq = some a.1
  free : ∀ k' < k, ¬ HasChild nodes k' a.2

/-- Node `k` merges the nodes of `a` and `b`, the two least keys waiting (R142, R143). -/
structure MergedAt (nodes : List Node) (k : Nat) (a b : MergeKey) : Prop where
  node : nodes[k]? = some (.internal (a.1 + b.1) (BitVec.ofNat 9 a.2) (BitVec.ofNat 9 b.2))
  lt : k < 512
  left : WaitsAt nodes k a
  right : WaitsAt nodes k b
  before : keyBefore a b = true
  least : ∀ c, WaitsAt nodes k c → c ≠ a → c ≠ b → keyBefore b c = true

/-- The encoder's leaves, then nodes that are merges. -/
structure Arena (e : Encoder) (nodes : List Node) : Prop where
  leaves : nodes.take e.present.length = leafNodes e
  merged : ∀ k, e.present.length ≤ k → k < nodes.length → ∃ a b, MergedAt nodes k a b

/-! ### Waiting nodes -/

/-- An index has one key. -/
theorem WaitsAt.eq_of_index {nodes : List Node} {k : Nat} {a b : MergeKey} (ha : WaitsAt nodes k a)
    (hb : WaitsAt nodes k b) (h : a.2 = b.2) : a = b := by
  have hfreq := ha.freq
  rw [h, hb.freq] at hfreq
  exact Prod.ext (Option.some.inj hfreq).symm h

theorem WaitsAt.node {nodes : List Node} {k : Nat} {a : MergeKey} (ha : WaitsAt nodes k a) :
    ∃ x, nodes[a.2]? = some x ∧ x.freq = a.1 := Option.map_eq_some_iff.mp ha.freq

theorem hasChild_append {nodes : List Node} (more : List Node) {k j : Nat} (hk : k < nodes.length) :
    HasChild (nodes ++ more) k j ↔ HasChild nodes k j := by
  simp only [HasChild, List.getElem?_append_left hk]

theorem waitsAt_append {nodes : List Node} (more : List Node) {k : Nat} {a : MergeKey} (hk : k ≤ nodes.length) :
    WaitsAt (nodes ++ more) k a ↔ WaitsAt nodes k a := by
  have hchild : ∀ k' < k, (HasChild (nodes ++ more) k' a.2 ↔ HasChild nodes k' a.2) :=
    fun k' h => hasChild_append more (h.trans_le hk)
  constructor
  · rintro ⟨hlt, hfreq, hfree⟩
    rw [List.getElem?_append_left (hlt.trans_le hk)] at hfreq
    exact ⟨hlt, hfreq, fun k' h => mt (hchild k' h).mpr (hfree k' h)⟩
  · rintro ⟨hlt, hfreq, hfree⟩
    rw [← List.getElem?_append_left (l₂ := more) (hlt.trans_le hk)] at hfreq
    exact ⟨hlt, hfreq, fun k' h => mt (hchild k' h).mp (hfree k' h)⟩

/-- A waiting node waits on until it becomes a child. -/
theorem waitsAt_succ_of_lt {nodes : List Node} {k : Nat} {a : MergeKey} (hlt : a.2 < k) :
    WaitsAt nodes (k + 1) a ↔ WaitsAt nodes k a ∧ ¬ HasChild nodes k a.2 := by
  constructor
  · rintro ⟨_, hfreq, hfree⟩
    exact ⟨⟨hlt, hfreq, fun k' h => hfree k' (by omega)⟩, hfree k (by omega)⟩
  · rintro ⟨⟨_, hfreq, hfree⟩, hk⟩
    refine ⟨by omega, hfreq, fun k' h => ?_⟩
    obtain h | rfl := Nat.lt_succ_iff_lt_or_eq.mp h
    · exact hfree k' h
    · exact hk

/-! ### Merges -/

namespace MergedAt

variable {nodes : List Node} {k : Nat} {a b : MergeKey} (h : MergedAt nodes k a b)
include h

theorem toNat_left : (BitVec.ofNat 9 a.2).toNat = a.2 := by
  rw [BitVec.toNat_ofNat, Nat.mod_eq_of_lt (h.left.lt.trans h.lt)]

theorem toNat_right : (BitVec.ofNat 9 b.2).toNat = b.2 := by
  rw [BitVec.toNat_ofNat, Nat.mod_eq_of_lt (h.right.lt.trans h.lt)]

theorem index_ne : a.2 ≠ b.2 := fun heq => by
  obtain rfl := h.left.eq_of_index h.right heq
  exact keyBefore_irrefl a h.before

theorem hasChild_iff {j : Nat} : HasChild nodes k j ↔ a.2 = j ∨ b.2 = j := by
  simp [HasChild, h.node, h.toNat_left, h.toNat_right]

/-- The left child has the least key of all that wait. -/
theorem left_least {c : MergeKey} (hc : WaitsAt nodes k c) (hca : c ≠ a) : keyBefore a c = true := by
  by_cases hcb : c = b
  · exact hcb ▸ h.before
  · exact keyBefore_trans h.before (h.least c hc hca hcb)

/-- The keys merged are those of the node's two children. -/
theorem keys_eq {f : Word} {l r : BitVec 9} {x y : Node} (hk : nodes[k]? = some (.internal f l r))
    (hx : nodes[l.toNat]? = some x) (hy : nodes[r.toNat]? = some y) :
    a = (x.freq, l.toNat) ∧ b = (y.freq, r.toNat) := by
  cases hk.symm.trans h.node
  rw [h.toNat_left] at hx ⊢
  rw [h.toNat_right] at hy ⊢
  obtain ⟨x', hx', ha⟩ := h.left.node
  obtain ⟨y', hy', hb⟩ := h.right.node
  cases hx.symm.trans hx'
  cases hy.symm.trans hy'
  exact ⟨Prod.ext ha.symm rfl, Prod.ext hb.symm rfl⟩

/-- A merge's node: two different earlier children, and their frequencies' sum (R141). -/
theorem shape : ∃ f l r x y, nodes[k]? = some (.internal f l r) ∧ l.toNat < k ∧ r.toNat < k ∧ l ≠ r ∧
    nodes[l.toNat]? = some x ∧ nodes[r.toNat]? = some y ∧ f = x.freq + y.freq := by
  obtain ⟨x, hx, ha⟩ := h.left.node
  obtain ⟨y, hy, hb⟩ := h.right.node
  refine ⟨_, _, _, x, y, h.node, ?_⟩
  rw [ne_eq, ← BitVec.toNat_inj, h.toNat_left, h.toNat_right, ha, hb]
  exact ⟨h.left.lt, h.right.lt, h.index_ne, hx, hy, rfl⟩

/-- A child waits when its parent is created. -/
theorem waits_of_hasChild {j : Nat} (hj : HasChild nodes k j) : ∃ c, c.2 = j ∧ WaitsAt nodes k c := by
  obtain rfl | rfl := h.hasChild_iff.mp hj
  · exact ⟨a, rfl, h.left⟩
  · exact ⟨b, rfl, h.right⟩

/-- A merge takes its two children from the nodes waiting. -/
theorem waitsAt_succ {c : MergeKey} (hlt : c.2 < k) :
    WaitsAt nodes (k + 1) c ↔ WaitsAt nodes k c ∧ c ≠ a ∧ c ≠ b := by
  rw [waitsAt_succ_of_lt hlt, h.hasChild_iff, not_or]
  refine and_congr_right fun hc => and_congr (not_congr ?_) (not_congr ?_)
  · exact ⟨fun hi => hc.eq_of_index h.left hi.symm, fun hi => hi ▸ rfl⟩
  · exact ⟨fun hi => hc.eq_of_index h.right hi.symm, fun hi => hi ▸ rfl⟩

theorem append (more : List Node) : MergedAt (nodes ++ more) k a b := by
  have hk : k < nodes.length := (List.getElem?_eq_some_iff.mp h.node).1
  have hwaits := fun c => waitsAt_append (a := c) more hk.le
  exact ⟨(List.getElem?_append_left hk).trans h.node, h.lt, (hwaits a).mpr h.left, (hwaits b).mpr h.right, h.before,
    fun c hc => h.least c ((hwaits c).mp hc)⟩

end MergedAt

/-! ### The arena -/

theorem length_leafNodes (e : Encoder) : (leafNodes e).length = e.present.length := List.length_map _

theorem arena_leafNodes (e : Encoder) : Arena e (leafNodes e) :=
  ⟨List.take_of_length_le (length_leafNodes e).le, fun k hk hlt => by
    rw [length_leafNodes] at hlt
    omega⟩

namespace Arena

variable {e : Encoder} {nodes : List Node} (h : Arena e nodes)
include h

theorem length_le : e.present.length ≤ nodes.length := by
  rw [← length_leafNodes, ← h.leaves]
  exact List.length_take_le' ..

/-- The nodes below the alphabet's size are leaves. -/
theorem le_of_internal {k : Nat} {f : Word} {l r : BitVec 9} (hk : nodes[k]? = some (.internal f l r)) :
    e.present.length ≤ k := by
  refine Nat.le_of_not_lt fun hlt => ?_
  rw [← List.getElem?_take_of_lt hlt, h.leaves, leafNodes, List.getElem?_map, Option.map_eq_some_iff] at hk
  obtain ⟨_, _, hleaf⟩ := hk
  cases hleaf

theorem mergedAt_of_internal {k : Nat} {f : Word} {l r : BitVec 9} (hk : nodes[k]? = some (.internal f l r)) :
    ∃ a b, MergedAt nodes k a b :=
  h.merged k (h.le_of_internal hk) (List.getElem?_eq_some_iff.mp hk).1

theorem mergedAt_of_hasChild {k j : Nat} (hj : HasChild nodes k j) : ∃ a b, MergedAt nodes k a b := by
  obtain ⟨f, l, r, hk, _⟩ := hj
  exact h.mergedAt_of_internal hk

/-- A child waits when its parent is created, so it is earlier and no earlier node has it as a child. -/
theorem waits_of_hasChild {k j : Nat} (hj : HasChild nodes k j) : ∃ c, c.2 = j ∧ WaitsAt nodes k c := by
  obtain ⟨a, b, hm⟩ := h.mergedAt_of_hasChild hj
  exact hm.waits_of_hasChild hj

theorem lt_of_hasChild {k j : Nat} (hj : HasChild nodes k j) : j < k := by
  obtain ⟨c, rfl, hc⟩ := h.waits_of_hasChild hj
  exact hc.lt

/-- No node has two parents (R141). -/
theorem parent_unique {k k' j : Nat} (hk : HasChild nodes k j) (hk' : HasChild nodes k' j) : k = k' := by
  obtain ⟨c, hcj, hc⟩ := h.waits_of_hasChild hk
  obtain ⟨c', hcj', hc'⟩ := h.waits_of_hasChild hk'
  obtain hlt | heq | hgt := Nat.lt_trichotomy k k'
  · exact absurd (hcj' ▸ hk) (hc'.free k hlt)
  · exact heq
  · exact absurd (hcj ▸ hk') (hc.free k' hgt)

/-- The arena after one more merge. -/
theorem snoc {n : Node} {a b : MergeKey} (hm : MergedAt (nodes ++ [n]) nodes.length a b) :
    Arena e (nodes ++ [n]) := by
  refine ⟨(List.take_append_of_le_length h.length_le).trans h.leaves, fun k hk hlt => ?_⟩
  obtain hlt | rfl := Nat.lt_succ_iff_lt_or_eq.mp (List.length_append ▸ hlt)
  · obtain ⟨a, b, hm⟩ := h.merged k hk hlt
    exact ⟨a, b, hm.append [n]⟩
  · exact ⟨a, b, hm⟩

/-- The newest node has no parent. -/
theorem waits_last {n : Node} (hlast : nodes[nodes.length - 1]? = some n) :
    WaitsAt nodes nodes.length (n.freq, nodes.length - 1) := by
  have hpos := (List.getElem?_eq_some_iff.mp hlast).1
  refine ⟨hpos, by simp [hlast], fun k hk hchild => ?_⟩
  have hlt := h.lt_of_hasChild hchild
  simp only at hlt
  omega

end Arena

end Sys2Proof.Machine
end

section
/-! SUPPORT. The merge loop's invariant: P holds the keys of the nodes without a parent, in order, and each merge takes
its two least (`42_tree_builder.md` R143, R146). -/

namespace Sys2Proof.Machine

/-- The collection `p` and the arena while a tree is built. -/
structure Building (e : Encoder) (p : List MergeKey) (nodes : List Node) : Prop where
  arena : Arena e nodes
  ascending : KeysAscending p
  waiting : ∀ a, a ∈ p ↔ WaitsAt nodes nodes.length a
  count : p.length + nodes.length = 2 * e.present.length
  total : (p.map Prod.fst).sum = ((leafNodes e).map Node.freq).sum

theorem length_present_le (e : Encoder) : e.present.length ≤ 256 := by
  rw [length_present]
  exact (List.length_filter_le ..).trans_eq List.length_range

theorem not_hasChild_leafNodes (e : Encoder) (k j : Nat) : ¬ HasChild (leafNodes e) k j := by
  rintro ⟨f, l, r, hk, _⟩
  have hle := (arena_leafNodes e).le_of_internal hk
  have hlt := (List.getElem?_eq_some_iff.mp hk).1
  rw [length_leafNodes] at hlt
  omega

theorem building_leaves (e : Encoder) : Building e (leafKeys (leafNodes e)) (leafNodes e) where
  arena := arena_leafNodes e
  ascending := keysAscending_leafKeys _
  waiting a := by
    rw [mem_leafKeys]
    refine ⟨fun h => ⟨?_, h, fun k _ => not_hasChild_leafNodes e k _⟩, WaitsAt.freq⟩
    obtain ⟨n, hn, _⟩ := Option.map_eq_some_iff.mp h
    exact (List.getElem?_eq_some_iff.mp hn).1
  count := by
    rw [length_leafKeys, length_leafNodes]
    omega
  total := sum_leafKeys _

/-- The node that a merge of `a` and `b` creates. -/
def mergeNode (a b : MergeKey) : Node := .internal (a.1 + b.1) (BitVec.ofNat 9 a.2) (BitVec.ofNat 9 b.2)

namespace Building

section
variable {e : Encoder} {a b : MergeKey} {rest : List MergeKey} {nodes : List Node}
  (h : Building e (a :: b :: rest) nodes)
include h

theorem ascending_cons :
    (∀ c ∈ b :: rest, keyBefore a c = true) ∧ (∀ c ∈ rest, keyBefore b c = true) ∧ KeysAscending rest := by
  simpa only [KeysAscending, List.pairwise_cons] using h.ascending

theorem waitsAt_append_iff (more : List Node) (c : MergeKey) :
    WaitsAt (nodes ++ more) nodes.length c ↔ c ∈ a :: b :: rest :=
  (waitsAt_append more le_rfl).trans (h.waiting c).symm

/-- The two least keys of P are those of the nodes merged next. -/
theorem mergedAt : MergedAt (nodes ++ [mergeNode a b]) nodes.length a b := by
  obtain ⟨ha, hb, _⟩ := h.ascending_cons
  have hwaits := h.waitsAt_append_iff [mergeNode a b]
  refine ⟨by simp [mergeNode], ?_, (hwaits a).mpr (by simp), (hwaits b).mpr (by simp), ha b (by simp),
    fun c hc hca hcb => hb c ?_⟩
  · have hcount := h.count
    have hsize := length_present_le e
    simp only [List.length_cons] at hcount
    omega
  · simpa [hca, hcb] using (hwaits c).mp hc

/-- What remains of P are the waiting nodes other than the two merged. -/
theorem mem_rest_iff {c : MergeKey} : c ∈ rest ↔ c ∈ a :: b :: rest ∧ c ≠ a ∧ c ≠ b := by
  obtain ⟨ha, hb, _⟩ := h.ascending_cons
  constructor
  · intro hc
    refine ⟨by simp [hc], ?_, ?_⟩
    · rintro rfl
      exact keyBefore_irrefl c (ha c (by simp [hc]))
    · rintro rfl
      exact keyBefore_irrefl c (hb c hc)
  · rintro ⟨hc, hca, hcb⟩
    simpa [hca, hcb] using hc

theorem waiting_merge (c : MergeKey) :
    c ∈ insertKey (a.1 + b.1, nodes.length) rest ↔
      WaitsAt (nodes ++ [mergeNode a b]) (nodes.length + 1) c := by
  have hm := h.mergedAt
  have hlast := (h.arena.snoc hm).waits_last (n := mergeNode a b) (by simp)
  simp only [List.length_append, List.length_singleton, Nat.add_sub_cancel] at hlast
  rw [mem_insertKey, h.mem_rest_iff, ← h.waitsAt_append_iff [mergeNode a b] c]
  constructor
  · rintro (rfl | ⟨hc, hne⟩)
    · exact hlast
    · exact (hm.waitsAt_succ hc.lt).mpr ⟨hc, hne⟩
  · intro hc
    obtain hlt | heq := Nat.lt_succ_iff_lt_or_eq.mp hc.lt
    · exact .inr ((hm.waitsAt_succ hlt).mp hc)
    · exact .inl (hc.eq_of_index hlast heq)

/-- One merge keeps the invariant. -/
theorem merge : Building e (insertKey (a.1 + b.1, nodes.length) rest) (nodes ++ [mergeNode a b]) where
  arena := h.arena.snoc h.mergedAt
  ascending := by
    obtain ⟨_, _, hrest⟩ := h.ascending_cons
    refine keysAscending_insertKey (fun hmem => ?_) hrest
    exact absurd ((h.waiting _).mp (h.mem_rest_iff.mp hmem).1).lt (Nat.lt_irrefl _)
  waiting c := by
    rw [List.length_append]
    exact h.waiting_merge c
  count := by
    have hcount := h.count
    simp only [length_insertKey, List.length_append, List.length_cons, List.length_nil] at hcount ⊢
    omega
  total := by
    rw [← h.total, ((insertKey_perm _ rest).map Prod.fst).sum_eq]
    simp only [List.map_cons, List.sum_cons, add_assoc]

end

/-- `|P| - 1` merges leave one key, with the invariant kept. -/
theorem mergeLoop_leaves_one {e : Encoder} {fuel : Nat} {p : List MergeKey} {nodes : List Node} (h : Building e p nodes)
    (hp : p.length = fuel + 1) :
    ∃ a, (mergeLoop fuel p nodes).1 = [a] ∧ Building e [a] (mergeLoop fuel p nodes).2 := by
  induction fuel generalizing p nodes with
  | zero =>
    obtain ⟨a, rfl⟩ := List.length_eq_one_iff.mp hp
    exact ⟨a, rfl, h⟩
  | succ fuel ih =>
    match p with
    | a :: b :: rest => exact ih h.merge (by simpa [length_insertKey] using hp)

/-- The last key of P is that of the node created last, the root. -/
theorem root_index {e : Encoder} {a : MergeKey} {nodes : List Node} (h : Building e [a] nodes) :
    a.2 = 2 * e.present.length - 2 := by
  have hcount := h.count
  have hlt := ((h.waiting a).mp (List.mem_singleton_self a)).lt
  have hlast := (h.waiting _).mpr (h.arena.waits_last (List.getElem?_eq_getElem (by omega)))
  rw [List.length_singleton] at hcount
  rw [← List.mem_singleton.mp hlast]
  simp only
  omega

end Building

/-! ### The finished tree -/

theorem treeBuild_empty {e : Encoder} (h : e.present = []) : treeBuild e = (none, []) := by
  simp [treeBuild, leafNodes, h, leafKeys, mergeLoop]

/-- TREE_BUILD ends with the root's key alone in P. -/
theorem treeBuild_building {e : Encoder} (h : e.present ≠ []) :
    ∃ a, (treeBuild e).1 = some a.2 ∧ Building e [a] (treeBuild e).2 := by
  have hpos := List.length_pos_iff.mpr h
  obtain ⟨a, hp, hb⟩ := (building_leaves e).mergeLoop_leaves_one (fuel := (leafNodes e).length - 1) (by
    rw [length_leafKeys, length_leafNodes]
    omega)
  exact ⟨a, by simp [treeBuild, hp], hb⟩

theorem arena_treeBuild (e : Encoder) : Arena e (treeBuild e).2 := by
  by_cases h : e.present = []
  · rw [treeBuild_empty h]
    refine ⟨by simp [leafNodes, h], fun k _ hlt => absurd hlt (Nat.not_lt_zero k)⟩
  · obtain ⟨_, _, hb⟩ := treeBuild_building h
    exact hb.arena

/-- Every node but the root has a parent, and only one (R141). -/
theorem Building.existsUnique_parent {e : Encoder} {a : MergeKey} {nodes : List Node} (h : Building e [a] nodes)
    {j : Nat} (hj : j < 2 * e.present.length - 2) : ∃! k, HasChild nodes k j := by
  refine existsUnique_of_exists_of_unique ?_ fun _ _ => h.arena.parent_unique
  by_contra hnone
  have hcount := h.count
  rw [List.length_singleton] at hcount
  have hlt : j < nodes.length := by omega
  have hwaits : WaitsAt nodes nodes.length (nodes[j].freq, j) :=
    ⟨hlt, by rw [List.getElem?_eq_getElem hlt]; rfl, fun k _ hk => hnone ⟨k, hk⟩⟩
  have hroot := h.root_index
  rw [← List.mem_singleton.mp ((h.waiting _).mpr hwaits)] at hroot
  exact absurd hroot hj.ne

/-- The frequencies of a buffer's symbols sum to its length (R146). -/
theorem sum_leafNodes_freq {s : State} (h : s.countsBuffer) : ((leafNodes s.enc).map Node.freq).sum = s.encCount := by
  have hfreq : (leafNodes s.enc).map Node.freq =
      (s.enc.present.map (fun b => s.enc.buf.count b)).map (Nat.cast : Nat → Word) := by
    rw [leafNodes, List.map_map, List.map_map]
    exact List.map_congr_left fun b _ => h.1 b
  have hperm : s.enc.present.Perm s.enc.buf.dedup :=
    (List.perm_ext_iff_of_nodup (nodup_present _) (List.nodup_dedup _)).mpr fun b =>
      (mem_present_iff_mem_buf h).trans List.mem_dedup.symm
  rw [hfreq, ← Nat.cast_list_sum, (hperm.map _).sum_eq, List.sum_map_count_dedup_eq_length]
  rfl

/-- The root's frequency is the sum of the leaves' (R146). -/
theorem Building.root_freq {e : Encoder} {a : MergeKey} {nodes : List Node} (h : Building e [a] nodes) :
    ∃ x, nodes[2 * e.present.length - 2]? = some x ∧ x.freq = ((leafNodes e).map Node.freq).sum := by
  have hfreq := ((h.waiting a).mp (List.mem_singleton_self a)).freq
  rw [h.root_index, ← add_zero a.1] at hfreq
  obtain ⟨x, hx, hxf⟩ := Option.map_eq_some_iff.mp hfreq
  exact ⟨x, hx, hxf.trans h.total⟩

end Sys2Proof.Machine
end

section
/-! SUPPORT. The statements of `42_tree_builder.md`, settled. -/

namespace Sys2Proof.Machine

/-- Settles O28: the table lists its entries by symbol (`present_eq_map`), and filtering commutes with naming the
symbols. -/
theorem presentAscending : Obligations.PresentAscending := fun e => by
  rw [present_eq_map, List.filter_map]
  rfl

/-- Settles O29: the merge loop's invariant holds of the leaves, each merge keeps it, and at the end P holds the root
alone, so every other node has a parent. -/
theorem treeShape : Obligations.TreeShape := by
  refine ⟨fun e => treeBuild_empty, fun e he => ?_, fun s hs hbuf => ?_⟩
  · obtain ⟨a, hroot, hb⟩ := treeBuild_building he
    have hlength : (treeBuild e).2.length = 2 * e.present.length - 1 := by
      have hcount := hb.count
      rw [List.length_singleton] at hcount
      omega
    refine ⟨hb.root_index ▸ hroot, hlength, hb.arena.leaves, fun k hk hlt => ?_, fun j => hb.existsUnique_parent⟩
    obtain ⟨a, b, hm⟩ := hb.arena.merged k hk (hlength ▸ hlt)
    exact hm.shape
  · have hne : s.enc.present ≠ [] := by
      obtain ⟨b, hmem⟩ := List.exists_mem_of_ne_nil _ hbuf
      exact List.ne_nil_of_mem ((mem_present_iff_mem_buf hs).mpr hmem)
    obtain ⟨a, _, hb⟩ := treeBuild_building hne
    rw [← sum_leafNodes_freq hs]
    exact hb.root_freq

/-- Settles O30: every internal node of the arena is a merge of the two least keys waiting. -/
theorem mergeTakesLeast : Obligations.MergeTakesLeast := by
  intro e k f l r hk j x y z hj hx hy hz hfree
  obtain ⟨a, b, hm⟩ := (arena_treeBuild e).mergedAt_of_internal hk
  have hwaits : WaitsAt (treeBuild e).2 k (x.freq, j) := by
    refine ⟨hj, by simp [hx], ?_⟩
    rintro k' hk' ⟨f', l', r', hnode, hchild⟩
    obtain ⟨hl, hr⟩ := hfree k' f' l' r' hk' hnode
    exact hchild.elim hl hr
  obtain ⟨rfl, rfl⟩ := hm.keys_eq hk hy hz
  have key_ne : ∀ {w : Word} {i : Nat}, j ≠ i → (x.freq, j) ≠ (w, i) := fun hi heq => hi (congrArg Prod.snd heq)
  exact ⟨fun hl => keyBefore_iff.mp (hm.left_least hwaits (key_ne hl)),
    fun hl hr => keyBefore_iff.mp (hm.least _ hwaits (key_ne hl) (key_ne hr))⟩

end Sys2Proof.Machine
end

section
/-! SUPPORT. The decode table as a map from codes to symbols: its two insertions, and lookup under distinct codes
(`43_code_table.md` R159, R160). -/

namespace Sys2Proof.Machine

/-- The table with `sym` as the symbol of code `c`, where the table has that code. -/
def replaceSym (c : Bits) (sym : Byte) (table : List DtabEntry) : List DtabEntry :=
  table.map fun e => if e.code == c then { e with sym := sym } else e

/-- A code that the table has takes the later symbol. -/
theorem dtabInsert_repeated {c : Bits} {table : List DtabEntry} (hc : c ∈ table.map DtabEntry.code) (sym : Byte) :
    dtabInsert c sym table = some (replaceSym c sym table) := by
  have h : table.any (fun e => e.code == c) = true := by simpa using hc
  simp [dtabInsert, h, replaceSym]

theorem codes_replaceSym (c : Bits) (sym : Byte) (table : List DtabEntry) :
    (replaceSym c sym table).map DtabEntry.code = table.map DtabEntry.code := by
  rw [replaceSym, List.map_map]
  refine List.map_congr_left fun e _ => ?_
  rw [Function.comp_apply]
  split <;> rfl

@[simp] theorem dtabLookup_nil (d : Bits) : dtabLookup (.bits d) [] = none := rfl

theorem dtabLookup_cons (d : Bits) (e : DtabEntry) (table : List DtabEntry) :
    dtabLookup (.bits d) (e :: table) = if e.code = d then some e.sym else dtabLookup (.bits d) table := by
  by_cases h : e.code = d <;> simp [dtabLookup, h]

theorem dtabLookup_append (d : Bits) (table more : List DtabEntry) :
    dtabLookup (.bits d) (table ++ more) = (dtabLookup (.bits d) table).or (dtabLookup (.bits d) more) := by
  induction table with
  | nil => rfl
  | cons e table ih =>
    rw [List.cons_append, dtabLookup_cons, dtabLookup_cons, ih]
    split <;> rfl

theorem dtabLookup_replaceSym (c : Bits) (sym : Byte) (d : Bits) (table : List DtabEntry) :
    dtabLookup (.bits d) (replaceSym c sym table) =
      if d = c then (dtabLookup (.bits d) table).map fun _ => sym else dtabLookup (.bits d) table := by
  induction table with
  | nil => simp [replaceSym]
  | cons e table ih =>
    rw [replaceSym, List.map_cons, ← replaceSym, dtabLookup_cons, dtabLookup_cons, ih]
    by_cases hd : d = c
    · by_cases he : e.code = c <;> simp [he, hd]
    · by_cases he : e.code = c <;> simp [he, hd, Ne.symm hd]

/-- Lookup finds a symbol exactly for the codes that the table has. -/
theorem isSome_dtabLookup {d : Bits} {table : List DtabEntry} :
    (dtabLookup (.bits d) table).isSome = true ↔ d ∈ table.map DtabEntry.code := by
  simp [dtabLookup]

/-- A repeated code maps to the later symbol, every other as before. -/
theorem dtabLookup_repeated {c : Bits} {table : List DtabEntry} (hc : c ∈ table.map DtabEntry.code) (sym : Byte)
    (d : Bits) : dtabLookup (.bits d) (replaceSym c sym table) =
      if d = c then some sym else dtabLookup (.bits d) table := by
  obtain ⟨old, hold⟩ := Option.isSome_iff_exists.mp (isSome_dtabLookup.mpr hc)
  rw [dtabLookup_replaceSym]
  refine if_ctx_congr Iff.rfl (fun hd => ?_) fun _ => rfl
  rw [hd, hold, Option.map_some]

/-- A new code maps to its symbol, every other as before. -/
theorem dtabLookup_new {c : Bits} {table : List DtabEntry} (hc : c ∉ table.map DtabEntry.code) (sym : Byte)
    (d : Bits) : dtabLookup (.bits d) (table ++ [{ code := c, sym := sym }]) =
      if d = c then some sym else dtabLookup (.bits d) table := by
  rw [dtabLookup_append, dtabLookup_cons, dtabLookup_nil]
  split
  case isTrue hd =>
    subst hd
    rw [Option.not_isSome_iff_eq_none.mp (mt isSome_dtabLookup.mp hc), if_pos rfl, Option.none_or]
  case isFalse hd => rw [if_neg (Ne.symm hd), Option.or_none]

/-- In a table with distinct codes every entry is the one its code finds. -/
theorem dtabLookup_of_mem {table : List DtabEntry} (hn : (table.map DtabEntry.code).Nodup) {e : DtabEntry}
    (he : e ∈ table) : dtabLookup (.bits e.code) table = some e.sym := by
  induction table with
  | nil => cases he
  | cons a table ih =>
    obtain ⟨ha, hn⟩ := List.nodup_cons.mp hn
    rw [dtabLookup_cons]
    obtain rfl | he := List.mem_cons.mp he
    · exact if_pos rfl
    · rw [if_neg fun h => ha (List.mem_map.mpr ⟨e, he, h.symm⟩), ih hn he]

end Sys2Proof.Machine
end

section
/-! SUPPORT. Following digits down a tree: where a path leads, that no two paths of an arena meet, and that the root
leads everywhere (`42_tree_builder.md` R141, R146, `43_code_table.md` R155). -/

namespace Sys2Proof.Machine

/-- The child of node `i` on the side of digit `x`: the left one for 0, the right one for 1 (R155). -/
def childAt (nodes : List Node) (i : Nat) (x : Bool) : Option Nat :=
  match nodes[i]? with
  | some (.internal _ l r) => some (if x then r.toNat else l.toNat)
  | _ => none

/-- The node that the digits `p` lead to from node `i`. -/
def descend (nodes : List Node) : Nat → Bits → Option Nat
  | i, [] => some i
  | i, x :: p => (childAt nodes i x).bind fun j => descend nodes j p

/-- The digits `p` lead from node `i` to a leaf of symbol `b`. -/
def LeafAt (nodes : List Node) (i : Nat) (p : Bits) (b : Byte) : Prop :=
  ∃ k f, descend nodes i p = some k ∧ nodes[k]? = some (.leaf b f)

/-! ### Paths -/

section
variable {nodes : List Node} {i : Nat}

theorem childAt_eq_some {x : Bool} {j : Nat} : childAt nodes i x = some j ↔
    ∃ f l r, nodes[i]? = some (.internal f l r) ∧ j = if x then r.toNat else l.toNat := by
  unfold childAt
  cases nodes[i]? with
  | none => simp
  | some n => cases n <;> simp [eq_comm]

theorem childAt_internal {f : Word} {l r : BitVec 9} (h : nodes[i]? = some (.internal f l r)) (x : Bool) :
    childAt nodes i x = some (if x then r.toNat else l.toNat) :=
  childAt_eq_some.mpr ⟨f, l, r, h, rfl⟩

theorem childAt_leaf {s : Byte} {f : Word} (h : nodes[i]? = some (.leaf s f)) (x : Bool) : childAt nodes i x = none := by
  simp [childAt, h]

theorem hasChild_iff_childAt {j : Nat} : HasChild nodes i j ↔ ∃ x, childAt nodes i x = some j := by
  simp only [HasChild, childAt_eq_some, Bool.exists_bool, ← exists_or, ← and_or_left, eq_comm (a := j)]
  rfl

@[simp] theorem descend_nil : descend nodes i [] = some i := rfl

theorem descend_cons (x : Bool) (p : Bits) :
    descend nodes i (x :: p) = (childAt nodes i x).bind fun j => descend nodes j p := rfl

theorem descend_append (p q : Bits) :
    descend nodes i (p ++ q) = (descend nodes i p).bind fun k => descend nodes k q := by
  induction p generalizing i with
  | nil => rfl
  | cons x p ih => simp only [List.cons_append, descend_cons, ih, Option.bind_assoc]

theorem descend_snoc (p : Bits) (x : Bool) :
    descend nodes i (p ++ [x]) = (descend nodes i p).bind fun k => childAt nodes k x := by
  simp [descend_append, descend_cons]

/-- A path named by its nodes, one for each number of digits followed (R155). -/
theorem descend_eq_some_iff_path {p : Bits} {k : Nat} : descend nodes i p = some k ↔
    ∃ path : Nat → Nat, path 0 = i ∧ path p.length = k ∧
      ∀ (j : Nat) (h : j < p.length), childAt nodes (path j) p[j] = some (path (j + 1)) := by
  induction p generalizing i with
  | nil =>
    simp only [descend_nil, Option.some.injEq, List.length_nil, Nat.not_lt_zero, IsEmpty.forall_iff, forall_const,
      and_true]
    exact ⟨fun h => ⟨fun _ => i, rfl, h⟩, fun ⟨_, h0, hk⟩ => h0.symm.trans hk⟩
  | cons x p ih =>
    rw [descend_cons, Option.bind_eq_some_iff]
    constructor
    · rintro ⟨i', hx, hp⟩
      obtain ⟨path, rfl, hk, hsteps⟩ := ih.mp hp
      refine ⟨fun j => Nat.casesOn j i path, rfl, hk, fun j hj => ?_⟩
      cases j with
      | zero => exact hx
      | succ j => exact hsteps j (Nat.lt_of_succ_lt_succ hj)
    · rintro ⟨path, rfl, hk, hsteps⟩
      exact ⟨path 1, hsteps 0 (Nat.succ_pos _),
        ih.mpr ⟨fun j => path (j + 1), rfl, hk, fun j hj => hsteps (j + 1) (Nat.succ_lt_succ hj)⟩⟩

/-- A leaf leads nowhere. -/
theorem descend_leaf {s : Byte} {f : Word} (h : nodes[i]? = some (.leaf s f)) {p : Bits} {k : Nat} :
    descend nodes i p = some k ↔ p = [] ∧ k = i := by
  cases p with
  | nil => simp [eq_comm]
  | cons x p => simp [descend_cons, childAt_leaf h]

theorem leafAt_leaf {s : Byte} {f : Word} (h : nodes[i]? = some (.leaf s f)) {p : Bits} {b : Byte} :
    LeafAt nodes i p b ↔ p = [] ∧ b = s := by
  constructor
  · rintro ⟨k, g, hk, hb⟩
    obtain ⟨rfl, rfl⟩ := (descend_leaf h).mp hk
    cases h.symm.trans hb
    exact ⟨rfl, rfl⟩
  · rintro ⟨rfl, rfl⟩
    exact ⟨i, f, rfl, h⟩

/-- A path from an internal node begins with the digit of one of its children. -/
theorem leafAt_internal {f : Word} {l r : BitVec 9} (h : nodes[i]? = some (.internal f l r)) {p : Bits} {b : Byte} :
    LeafAt nodes i p b ↔
      ∃ x q, p = x :: q ∧ LeafAt nodes (if x then r.toNat else l.toNat) q b := by
  cases p with
  | nil => simp [LeafAt, h]
  | cons x p => simp [LeafAt, descend_cons, childAt_internal h]

/-- No path to a leaf goes on to another (R158). -/
theorem LeafAt.eq_of_isPrefix {p q : Bits} {b c : Byte} (hb : LeafAt nodes i p b) (hc : LeafAt nodes i q c)
    (h : p <+: q) : b = c := by
  obtain ⟨k, f, hk, hleaf⟩ := hb
  obtain ⟨k', g, hk', hleaf'⟩ := hc
  obtain ⟨t, rfl⟩ := h
  rw [descend_append, hk, Option.bind_some, descend_leaf hleaf] at hk'
  obtain ⟨rfl, rfl⟩ := hk'
  cases hleaf.symm.trans hleaf'
  rfl

end

/-! ### Paths of an arena -/

namespace Arena

variable {e : Encoder} {nodes : List Node} (h : Arena e nodes)
include h

theorem exists_leaf_iff {k : Nat} {b : Byte} : (∃ f, nodes[k]? = some (.leaf b f)) ↔ e.present[k]? = some b := by
  obtain hlt | hle := Nat.lt_or_ge k e.present.length
  · rw [← List.getElem?_take_of_lt hlt, h.leaves, leafNodes, List.getElem?_map]
    simp
  · refine iff_of_false (fun ⟨f, hf⟩ => ?_) (by simp [hle])
    obtain ⟨a, b, hm⟩ := h.merged k hle (List.getElem?_eq_some_iff.mp hf).1
    cases hf.symm.trans hm.node

/-- A node is a leaf, or internal with two earlier children. -/
theorem node_cases {i : Nat} (hi : i < nodes.length) : (∃ s f, nodes[i]? = some (.leaf s f)) ∨
    ∃ f l r, nodes[i]? = some (.internal f l r) ∧ e.present.length ≤ i ∧ l.toNat < i ∧ r.toNat < i := by
  match hn : nodes[i]? with
  | none => exact absurd hi (List.getElem?_eq_none_iff.mp hn).not_gt
  | some (.leaf s f) => exact .inl ⟨s, f, rfl⟩
  | some (.internal f l r) =>
    exact .inr ⟨f, l, r, rfl, h.le_of_internal hn, h.lt_of_hasChild ⟨f, l, r, hn, .inl rfl⟩,
      h.lt_of_hasChild ⟨f, l, r, hn, .inr rfl⟩⟩

theorem lt_of_childAt {i j : Nat} {x : Bool} (hx : childAt nodes i x = some j) : j < i :=
  h.lt_of_hasChild (hasChild_iff_childAt.mpr ⟨x, hx⟩)

/-- A node is reached from its parent alone, by one digit alone. -/
theorem childAt_injective {i i' j : Nat} {x y : Bool} (hx : childAt nodes i x = some j)
    (hy : childAt nodes i' y = some j) : i = i' ∧ x = y := by
  obtain rfl := h.parent_unique (hasChild_iff_childAt.mpr ⟨x, hx⟩) (hasChild_iff_childAt.mpr ⟨y, hy⟩)
  refine ⟨rfl, ?_⟩
  obtain ⟨f, l, r, hn, hj⟩ := childAt_eq_some.mp hx
  obtain ⟨a, b, hm⟩ := h.mergedAt_of_internal hn
  obtain ⟨f', l', r', _, _, hn', _, _, hne, _⟩ := hm.shape
  cases hn.symm.trans hn'
  rw [childAt_internal hn, Option.some.injEq, hj] at hy
  rw [ne_eq, ← BitVec.toNat_inj] at hne
  cases x <;> cases y <;> simp_all [eq_comm]

/-- Each digit leads to an earlier node. -/
theorem add_length_le_of_descend {i k : Nat} {p : Bits} (hk : descend nodes i p = some k) : k + p.length ≤ i := by
  induction p generalizing i with
  | nil => exact (Option.some.inj hk).ge
  | cons x p ih =>
    obtain ⟨j, hx, hp⟩ := Option.bind_eq_some_iff.mp hk
    have hlt := h.lt_of_childAt hx
    have hle := ih hp
    rw [List.length_cons]
    omega

/-- Each digit leaves an internal node, and those come after the alphabet's leaves (R146). -/
theorem length_add_present_le_of_descend {i k : Nat} {p : Bits} (hk : descend nodes i p = some k) :
    p.length + e.present.length ≤ max (i + 1) e.present.length := by
  induction p generalizing i with
  | nil => simp
  | cons x p ih =>
    obtain ⟨j, hx, hp⟩ := Option.bind_eq_some_iff.mp hk
    obtain ⟨f, l, r, hn, _⟩ := childAt_eq_some.mp hx
    have hinternal := h.le_of_internal hn
    have hlt := h.lt_of_childAt hx
    have hle := ih hp
    rw [List.length_cons]
    omega

/-- Two paths from one node do not meet. -/
theorem descend_injective {i k : Nat} {p q : Bits} (hp : descend nodes i p = some k)
    (hq : descend nodes i q = some k) : p = q := by
  induction p using List.reverseRecOn generalizing k q with
  | nil =>
    obtain rfl := Option.some.inj hp
    have hle := h.add_length_le_of_descend hq
    exact (List.eq_nil_of_length_eq_zero (by omega)).symm
  | append_singleton p x ih =>
    obtain rfl | ⟨q, y, rfl⟩ := List.eq_nil_or_concat' q
    · obtain rfl := Option.some.inj hq
      have hle := h.add_length_le_of_descend hp
      simp at hle
    · rw [descend_snoc, Option.bind_eq_some_iff] at hp hq
      obtain ⟨j, hp, hx⟩ := hp
      obtain ⟨j', hq, hy⟩ := hq
      obtain ⟨rfl, rfl⟩ := h.childAt_injective hx hy
      rw [ih hp hq]

/-- A symbol has one leaf, and one path leads to it. -/
theorem leafAt_unique {i : Nat} {p q : Bits} {b : Byte} (hp : LeafAt nodes i p b) (hq : LeafAt nodes i q b) : p = q := by
  obtain ⟨k, f, hk, hf⟩ := hp
  obtain ⟨k', g, hk', hg⟩ := hq
  have hkb := h.exists_leaf_iff.mp ⟨f, hf⟩
  have hkb' := h.exists_leaf_iff.mp ⟨g, hg⟩
  obtain rfl := (List.getElem?_inj (List.getElem?_eq_some_iff.mp hkb).1 (nodup_present e)).mp (hkb.trans hkb'.symm)
  exact h.descend_injective hk hk'

/-- Every infinite digit sequence leads to a leaf (R158). -/
theorem exists_leafAt_digits {i : Nat} (hi : i < nodes.length) (digits : Nat → Bool) :
    ∃ p b, LeafAt nodes i p b ∧ p = (List.range p.length).map digits := by
  induction i using Nat.strongRecOn generalizing digits with
  | ind i ih =>
    obtain ⟨s, f, hn⟩ | ⟨f, l, r, hn, _, hl, hr⟩ := h.node_cases hi
    · exact ⟨[], s, (leafAt_leaf hn).mpr ⟨rfl, rfl⟩, rfl⟩
    · have hlt : (if digits 0 then r.toNat else l.toNat) < i := by split <;> assumption
      obtain ⟨p, b, hleaf, hp⟩ := ih _ hlt (hlt.trans hi) fun n => digits (n + 1)
      refine ⟨digits 0 :: p, b, (leafAt_internal hn).mpr ⟨_, p, rfl, hleaf⟩, ?_⟩
      rw [List.length_cons, List.range_succ_eq_map, List.map_cons, List.map_map]
      exact congrArg _ hp

end Arena

/-- The root leads to every node. -/
theorem Building.exists_descend_root {e : Encoder} {a : MergeKey} {nodes : List Node} (h : Building e [a] nodes)
    {k : Nat} (hk : k ≤ 2 * e.present.length - 2) : ∃ p, descend nodes (2 * e.present.length - 2) p = some k := by
  obtain rfl | hlt := hk.eq_or_lt
  · exact ⟨[], rfl⟩
  · obtain ⟨k', hchild, _⟩ := h.existsUnique_parent hlt
    obtain ⟨x, hx⟩ := hasChild_iff_childAt.mp hchild
    have hafter := h.arena.lt_of_childAt hx
    have hbound : k' < nodes.length := by
      obtain ⟨_, _, _, hn, _⟩ := hchild
      exact (List.getElem?_eq_some_iff.mp hn).1
    have hcount := h.count
    rw [List.length_singleton] at hcount
    obtain ⟨p, hp⟩ := h.exists_descend_root (k := k') (by omega)
    exact ⟨p ++ [x], by rw [descend_snoc, hp, Option.bind_some, hx]⟩
termination_by 2 * e.present.length - k

end Sys2Proof.Machine
end

section
/-! SUPPORT. The walk that derives the codes visits every leaf below its node once, with the digits that lead there
(`43_code_table.md` R155 to R158). -/

namespace Sys2Proof.Machine

theorem codeWalk_leaf {nodes : List Node} {i : Nat} {s : Byte} {f : Word} (h : nodes[i]? = some (.leaf s f))
    (depth : Nat) (p : Bits) : codeWalk nodes (depth + 1) i p = [(s, p)] := by
  simp [codeWalk, h]

theorem codeWalk_internal {nodes : List Node} {i : Nat} {f : Word} {l r : BitVec 9}
    (h : nodes[i]? = some (.internal f l r)) (depth : Nat) (p : Bits) : codeWalk nodes (depth + 1) i p =
      codeWalk nodes depth l.toNat (p ++ [false]) ++ codeWalk nodes depth r.toNat (p ++ [true]) := by
  simp [codeWalk, h]

namespace Arena

variable {e : Encoder} {nodes : List Node} (h : Arena e nodes)
include h

theorem mem_codeWalk {depth i : Nat} (hd : i < depth) (hi : i < nodes.length) {p q : Bits} {b : Byte} :
    (b, q) ∈ codeWalk nodes depth i p ↔ ∃ t, q = p ++ t ∧ LeafAt nodes i t b := by
  induction depth generalizing i p with
  | zero => exact absurd hd (Nat.not_lt_zero i)
  | succ depth ih =>
    obtain ⟨s, f, hn⟩ | ⟨f, l, r, hn, _, hl, hr⟩ := h.node_cases hi
    · simp [codeWalk_leaf hn, leafAt_leaf hn, and_comm]
    · rw [codeWalk_internal hn, List.mem_append, ih (by omega) (by omega), ih (by omega) (by omega)]
      simp only [leafAt_internal hn, Bool.exists_bool, List.append_assoc, List.singleton_append]
      constructor
      · rintro (⟨t, rfl, ht⟩ | ⟨t, rfl, ht⟩)
        · exact ⟨false :: t, rfl, .inl ⟨t, rfl, ht⟩⟩
        · exact ⟨true :: t, rfl, .inr ⟨t, rfl, ht⟩⟩
      · rintro ⟨_, rfl, ⟨t, rfl, ht⟩ | ⟨t, rfl, ht⟩⟩
        · exact .inl ⟨t, rfl, ht⟩
        · exact .inr ⟨t, rfl, ht⟩

theorem nodup_codeWalk {depth i : Nat} (hd : i < depth) (hi : i < nodes.length) (p : Bits) :
    (codeWalk nodes depth i p).Nodup := by
  induction depth generalizing i p with
  | zero => exact absurd hd (Nat.not_lt_zero i)
  | succ depth ih =>
    obtain ⟨s, f, hn⟩ | ⟨f, l, r, hn, _, hl, hr⟩ := h.node_cases hi
    · rw [codeWalk_leaf hn]
      exact List.nodup_singleton _
    · rw [codeWalk_internal hn]
      refine (ih (by omega) (by omega) _).append (ih (by omega) (by omega) _) ?_
      rintro ⟨b, q⟩ hleft hright
      obtain ⟨t, rfl, _⟩ := (h.mem_codeWalk (by omega) (by omega)).mp hleft
      obtain ⟨t', ht, _⟩ := (h.mem_codeWalk (by omega) (by omega)).mp hright
      simp at ht

/-- The codes met below node `i` fill the share of its path (R158). A path cannot reach 255 digits before a leaf. -/
theorem sum_codeWalk {depth i : Nat} (hd : i < depth) (hi : i < nodes.length) {p : Bits}
    (hp : i + p.length ≤ e.present.length + 254) :
    ((codeWalk nodes depth i p).map (fun q => 2 ^ (255 - q.2.length))).sum = 2 ^ (255 - p.length) := by
  induction depth generalizing i p with
  | zero => exact absurd hd (Nat.not_lt_zero i)
  | succ depth ih =>
    obtain ⟨s, f, hn⟩ | ⟨f, l, r, hn, hle, hl, hr⟩ := h.node_cases hi
    · rw [codeWalk_leaf hn, List.map_singleton, List.sum_singleton]
    · have hshare : 2 ^ (255 - p.length) = 2 ^ (255 - (p.length + 1)) * 2 := by
        rw [← Nat.pow_succ]
        congr 1
        omega
      rw [codeWalk_internal hn, List.map_append, List.sum_append, ih (by omega) (by omega) (by simp; omega),
        ih (by omega) (by omega) (by simp; omega), List.length_append, List.length_append, List.length_singleton,
        List.length_singleton, hshare, Nat.mul_two]

end Arena

/-! ### The derived codes -/

theorem setCode_get (codes : Vector (Option Bits) 256) (s b : Byte) (p : Bits) :
    (setCode codes s p)[b.toNat]'b.isLt = if s = b then some p else codes[b.toNat]'b.isLt := by
  simp only [setCode, Vector.getElem_set, BitVec.toNat_inj]

/-- A walk that gives each symbol one code leaves exactly its codes in the table. -/
theorem codeDerive_get {root : Nat} {nodes : List Node} {b : Byte} {p : Bits}
    (h : ∀ b p q, (b, p) ∈ codeWalk nodes nodes.length root [] →
      (b, q) ∈ codeWalk nodes nodes.length root [] → p = q) :
    (codeDerive (some root) nodes)[b.toNat]'b.isLt = some p ↔ (b, p) ∈ codeWalk nodes nodes.length root [] := by
  rw [codeDerive]
  revert h
  induction codeWalk nodes nodes.length root [] using List.reverseRecOn with
  | nil => simp [noCodes]
  | append_singleton walk q ih =>
    obtain ⟨s, c⟩ := q
    intro h
    have ih := ih fun b p q hp hq => h b p q (by simp [hp]) (by simp [hq])
    rw [List.foldl_append, List.foldl_cons, List.foldl_nil, setCode_get]
    split
    case isTrue hs =>
      subst hs
      rw [Option.some.injEq]
      exact ⟨fun hcp => by simp [← hcp], h s c p (by simp)⟩
    case isFalse hs => simp [ih, Ne.symm hs]

/-! ### The finished tree's walk -/

theorem treeBuild_root {e : Encoder} (h : e.present ≠ []) : (treeBuild e).1 = some (2 * e.present.length - 2) := by
  obtain ⟨_, hshape, _⟩ := treeShape
  obtain ⟨hroot, _⟩ := hshape e h
  exact hroot

theorem length_treeBuild {e : Encoder} (h : e.present ≠ []) : (treeBuild e).2.length = 2 * e.present.length - 1 := by
  obtain ⟨_, hshape, _⟩ := treeShape
  obtain ⟨_, hlength, _⟩ := hshape e h
  exact hlength

theorem root_lt_length {e : Encoder} (h : e.present ≠ []) : 2 * e.present.length - 2 < (treeBuild e).2.length := by
  have hpos := List.length_pos_iff.mpr h
  rw [length_treeBuild h]
  omega

/-- The walk from the root of the finished tree (R155). -/
def Encoder.walk (e : Encoder) : List (Byte × Bits) :=
  codeWalk (treeBuild e).2 (treeBuild e).2.length (2 * e.present.length - 2) []

/-- The digits `p` lead from the root of the finished tree to a leaf of `b`. -/
def Encoder.RootPath (e : Encoder) (p : Bits) (b : Byte) : Prop :=
  LeafAt (treeBuild e).2 (2 * e.present.length - 2) p b

theorem map_range_isPrefix {m n : Nat} (h : m ≤ n) (digits : Nat → Bool) :
    (List.range m).map digits <+: (List.range n).map digits := by
  refine List.IsPrefix.map digits ?_
  rw [List.prefix_iff_eq_take, List.length_range, List.take_range, min_eq_left h]

section
variable {e : Encoder} {b : Byte} {p : Bits}

theorem not_rootPath_empty (h : e.present = []) : ¬ e.RootPath p b := by
  rintro ⟨k, f, _, hk⟩
  simp [treeBuild_empty h] at hk

theorem mem_walk (he : e.present ≠ []) : (b, p) ∈ e.walk ↔ e.RootPath p b := by
  simp [Encoder.walk, Encoder.RootPath,
    (arena_treeBuild e).mem_codeWalk (root_lt_length he) (root_lt_length he)]

/-- The code of a symbol is the digits that lead from the root to its leaf (R155). -/
theorem codeOf_derive : e.derive.codeOf b = some p ↔ e.RootPath p b := by
  by_cases he : e.present = []
  · have hnone : e.derive.codeOf b = none := by
      simp [Encoder.codeOf, Encoder.derive, treeBuild_empty he, codeDerive, noCodes]
    simp [hnone, not_rootPath_empty he]
  · have hderive : e.derive.codes = codeDerive (some (2 * e.present.length - 2)) (treeBuild e).2 := by
      rw [← treeBuild_root he]
      rfl
    rw [Encoder.codeOf, hderive, codeDerive_get fun b p q hp hq => ?_]
    · exact mem_walk he
    · exact (arena_treeBuild e).leafAt_unique ((mem_walk he).mp hp) ((mem_walk he).mp hq)

/-- A symbol has a code exactly when it is present (R156). -/
theorem isSome_codeOf_derive : (e.derive.codeOf b).isSome = true ↔ b ∈ e.present := by
  simp only [Option.isSome_iff_exists, codeOf_derive]
  constructor
  · rintro ⟨p, k, f, _, hleaf⟩
    exact List.mem_of_getElem? ((arena_treeBuild e).exists_leaf_iff.mp ⟨f, hleaf⟩)
  · intro hb
    obtain ⟨a, _, hbuilt⟩ := treeBuild_building (List.ne_nil_of_mem hb)
    obtain ⟨k, hk⟩ := List.getElem?_of_mem hb
    obtain ⟨f, hleaf⟩ := hbuilt.arena.exists_leaf_iff.mpr hk
    have hlt := (List.getElem?_eq_some_iff.mp hk).1
    obtain ⟨p, hp⟩ := hbuilt.exists_descend_root (k := k) (by omega)
    exact ⟨p, k, f, hp, hleaf⟩

theorem codeOf_derive_eq_some : e.derive.codeOf b = some p ↔ b ∈ e.present ∧ e.derive.writtenCode b = p := by
  rw [← isSome_codeOf_derive, Encoder.writtenCode]
  cases e.derive.codeOf b <;> simp

/-- The walk gives each symbol present its code, once. -/
theorem walk_perm (he : e.present ≠ []) : e.walk.Perm (e.present.map fun b => (b, e.derive.writtenCode b)) := by
  refine (List.perm_ext_iff_of_nodup ?_ ?_).mpr fun ⟨b, p⟩ => ?_
  · exact (arena_treeBuild e).nodup_codeWalk (root_lt_length he) (root_lt_length he) []
  · exact (nodup_present e).map fun b c h => congrArg Prod.fst h
  · rw [mem_walk he, ← codeOf_derive, codeOf_derive_eq_some]
    simp

/-- The codes' shares sum to the whole (R158). -/
theorem sum_shares (he : e.present ≠ []) :
    (e.present.map (fun b => 2 ^ (255 - (e.derive.writtenCode b).length))).sum = 2 ^ 255 := by
  have hsize := length_present_le e
  have hsum := (arena_treeBuild e).sum_codeWalk (root_lt_length he) (root_lt_length he) (p := []) (by simp; omega)
  rw [← Encoder.walk, ((walk_perm he).map _).sum_eq, List.map_map] at hsum
  exact hsum

/-- A code is shorter than the alphabet is large (R157). -/
theorem length_rootPath_lt (h : e.RootPath p b) : p.length < e.present.length := by
  have hpos : 0 < e.present.length :=
    List.length_pos_iff.mpr fun he => not_rootPath_empty he h
  obtain ⟨k, f, hk, _⟩ := h
  have hle := (arena_treeBuild e).length_add_present_le_of_descend hk
  omega

/-- With two symbols or more the root is no leaf (R158). -/
theorem rootPath_ne_nil (he : 2 ≤ e.present.length) (h : e.RootPath p b) : p ≠ [] := by
  rintro rfl
  obtain ⟨k, f, hk, hleaf⟩ := h
  obtain rfl := Option.some.inj hk
  have hlt := (List.getElem?_eq_some_iff.mp ((arena_treeBuild e).exists_leaf_iff.mp ⟨f, hleaf⟩)).1
  omega

/-- Two codes that begin one digit sequence are one symbol's (R158). -/
theorem rootPath_eq_of_digits {q : Bits} {c : Byte} {digits : Nat → Bool} (hb : e.RootPath p b) (hc : e.RootPath q c)
    (hp : p = (List.range p.length).map digits) (hq : q = (List.range q.length).map digits) : b = c := by
  obtain hle | hle := Nat.le_total p.length q.length
  · exact hb.eq_of_isPrefix hc (hp ▸ hq ▸ map_range_isPrefix hle digits)
  · exact (hc.eq_of_isPrefix hb (hp ▸ hq ▸ map_range_isPrefix hle digits)).symm

end

/-- With counted frequencies every code that ENC.FINALIZE reads is valid (R156). -/
theorem codesWritten_derive {s : State} (h : s.countsBuffer) : s.enc.derive.codesWritten = true := by
  simp only [Encoder.codesWritten, Bool.and_eq_true, List.all_eq_true, isSome_codeOf_derive, derive_present, derive_buf]
  exact ⟨fun b hb => hb, fun b hb => (mem_present_iff_mem_buf h).mpr hb⟩

end Sys2Proof.Machine
end

section
/-! SUPPORT. The statements of `43_code_table.md`, settled. -/

namespace Sys2Proof.Machine

/-- Settles O31: the walk gives each symbol the digits that lead to its leaf (`codeOf_derive`), and following digits is
a path of nodes. -/
theorem codeIsPath : Obligations.CodeIsPath := by
  intro e b p
  simp only [codeOf_derive, Encoder.RootPath, LeafAt, descend_eq_some_iff_path, childAt_eq_some]
  constructor
  · rintro ⟨_, f, ⟨path, hroot, rfl, hsteps⟩, hleaf⟩
    have hne : e.present ≠ [] := fun he => by simp [treeBuild_empty he] at hleaf
    exact ⟨path, f, by rw [treeBuild_root hne, hroot], hleaf, hsteps⟩
  · rintro ⟨path, f, hroot, hleaf, hsteps⟩
    have hne : e.present ≠ [] := fun he => by simp [treeBuild_empty he] at hleaf
    exact ⟨_, f, ⟨path, Option.some.inj (hroot.symm.trans (treeBuild_root hne)), rfl, hsteps⟩, hleaf⟩

/-- Settles O32: every leaf is below the root, so every symbol present gets a code, and no other does. -/
theorem codesOfPresentSymbols : Obligations.CodesOfPresentSymbols := by
  refine ⟨fun e b => isSome_codeOf_derive.trans mem_present, fun e b => codeOf_derive_singleton, fun s hs => ?_⟩
  simp [exec, execEncFinalize, codesWritten_derive hs]

/-- Settles O33: a path to a leaf passes internal nodes only, each later in the arena than every leaf, and there are
`A - 1` of them. -/
theorem codeLengthBound : Obligations.CodeLengthBound := by
  intro e b p h
  have hlt := length_rootPath_lt (codeOf_derive.mp h)
  have hsize := length_present_le e
  exact ⟨hlt, by omega⟩

/-- Settles O34: a leaf leads nowhere, so no code goes on to another; an internal node splits its share between its two
children, so the shares sum to the whole and every digit sequence meets a leaf. -/
theorem codesPrefixFreeAndComplete : Obligations.CodesPrefixFreeAndComplete := by
  intro e he
  have hne : e.present ≠ [] := List.ne_nil_of_length_pos (by omega)
  simp only [codeOf_derive]
  refine ⟨fun b p => rootPath_ne_nil he, fun b c p q => LeafAt.eq_of_isPrefix, sum_shares hne, fun digits => ?_⟩
  obtain ⟨p, b, hleaf, hp⟩ := (arena_treeBuild e).exists_leafAt_digits (root_lt_length hne) digits
  refine ⟨b, ⟨p, hleaf, hp⟩, ?_⟩
  rintro c ⟨q, hc, hq⟩
  exact rootPath_eq_of_digits hc hleaf hq hp

/-- Settles O35: a code the table has is replaced in place, a new one appended where there is room. -/
theorem dtabInsertMaps : Obligations.DtabInsertMaps := by
  intro table c sym hn
  by_cases hc : c ∈ table.map DtabEntry.code
  · rw [dtabInsert_repeated hc]
    refine ⟨fun table' h => ?_, by simp [hc]⟩
    obtain rfl := Option.some.inj h
    exact ⟨dtabLookup_repeated hc sym, codes_replaceSym c sym table ▸ hn, fun _ => codes_replaceSym c sym table,
      absurd hc⟩
  · obtain hroom | hfull := Nat.lt_or_ge table.length Config.decTableCap
    · rw [dtabInsert_new hc hroom]
      refine ⟨fun table' h => ?_, iff_of_false (Option.some_ne_none _) fun h => h.2.not_gt hroom⟩
      obtain rfl := Option.some.inj h
      exact ⟨dtabLookup_new hc sym, by simpa using hn.concat hc, fun h => absurd h hc, fun _ => rfl⟩
    · rw [dtabInsert_full hc hfull]
      exact ⟨fun _ h => absurd h (Option.some_ne_none _).symm, iff_of_true rfl ⟨hc, hfull⟩⟩

/-- Settles O36: with distinct codes the entry found is the only one with its code. -/
theorem lookupIsExact : Obligations.LookupIsExact := by
  refine fun table hn => ⟨fun c sym => ⟨fun h => ?_, ?_⟩, rfl⟩
  · obtain ⟨_, e, hcand, he, hcode, hsym⟩ := dtabLookup_some h
    cases hcand
    exact ⟨e, he, hcode, hsym⟩
  · rintro ⟨e, he, rfl, rfl⟩
    exact dtabLookup_of_mem hn he

end Sys2Proof.Machine
end

section
/-! SUPPORT. The bytes that ENC.FINALIZE's micro-operations offer to the sink, and that those of a whole stream are the
bytes of the format (`44_encoder.md` R172 to R175, `20_memory.md` R63). -/

namespace Sys2Proof.Machine

/-! ### Micro-operations -/

/-- With the digits `c` pending the micro-operation offers no byte and leaves `d` pending (R100, R101). -/
inductive Emit.Quiet : (c : Bits) → Emit → (d : Bits) → Prop
  | place {c : Bits} (x : Bool) : c.length < 7 → Quiet c (.bit x) (c ++ [x])
  | aligned : Quiet [] .flush []

/-- With the digits `c` pending the micro-operation offers the byte `b` and leaves none pending (R100 to R102). -/
inductive Emit.Offers : (c : Bits) → Emit → (b : Byte) → Prop
  | raw (b : Byte) : Offers [] (.raw b) b
  | complete {c : Bits} (x : Bool) : c.length = 7 → Offers c (.bit x) (packByte (c ++ [x]))
  | pad {c : Bits} : c ≠ [] → c.length < 8 → Offers c .flush (packByte c)

/-- With the digits `c` pending the micro-operations `xs` offer the bytes `bs` and leave the digits `d` pending. -/
inductive Emits : (c : Bits) → (xs : List Emit) → (bs : List Byte) → (d : Bits) → Prop
  | nil (c : Bits) : Emits c [] [] c
  | quiet {c d f : Bits} {x : Emit} {xs : List Emit} {bs : List Byte} :
      x.Quiet c d → Emits d xs bs f → Emits c (x :: xs) bs f
  | offer {c f : Bits} {x : Emit} {b : Byte} {xs : List Emit} {bs : List Byte} :
      x.Offers c b → Emits [] xs bs f → Emits c (x :: xs) (b :: bs) f

@[simp] theorem holding_nil : BitWriter.holding [] = BitWriter.reset := rfl

theorem nbits_holding {c : Bits} (h : c.length < 8) : (BitWriter.holding c).nbits.toNat = c.length := by
  rw [← length_pending, pending_holding h]

theorem nbits_holding_eq_zero {c : Bits} (h : c.length < 8) : (BitWriter.holding c).nbits = 0#3 ↔ c = [] := by
  rw [← BitVec.toNat_inj, nbits_holding h]
  exact List.length_eq_zero_iff

section
variable {s : State} {c d : Bits} {x : Emit} {b : Byte} (cmd : Word) (todo : List Emit) (out : Nat)
  (hw : s.bw = BitWriter.holding c)
include hw

/-- A micro-operation that offers no byte only moves the writer (R172). -/
theorem emitLoop_quiet (h : x.Quiet c d) :
    emitLoop cmd (x :: todo) out s = emitLoop cmd todo out { s with bw := BitWriter.holding d } := by
  cases h with
  | place x hc =>
    have hp : s.bw.pending = c := by rw [hw, pending_holding (by omega)]
    have hn : s.bw.nbits ≠ 7#3 := fun h7 => by
      rw [nbits_eq_seven, hp] at h7
      omega
    rw [emitLoop, writeBitInt_place (hw ▸ padded_holding (by omega)) hn, hp]
    rfl
  | aligned =>
    rw [emitLoop, flushInt, if_pos (by rw [hw]; rfl), ← hw]
    rfl

/-- A micro-operation that offers a byte empties the writer and goes on from the sink's answer (R172). -/
theorem emitLoop_offers (h : x.Offers c b) :
    emitLoop cmd (x :: todo) out s =
      emitAfter (emitLoop cmd todo) out todo (sinkWrite b { s with bw := BitWriter.reset }) := by
  cases h with
  | raw b =>
    have hreset : s.bw = BitWriter.reset := hw
    rw [emitLoop, writeRawInt_aligned (by rw [hreset]; rfl), ← hreset]
  | complete x hc =>
    have hp : s.bw.pending = c := by rw [hw, pending_holding (by omega)]
    rw [emitLoop, writeBitInt_complete (nbits_eq_seven.mpr (hp ▸ hc)), hp]
  | pad hne hlt =>
    have hn : s.bw.nbits ≠ 0#3 := fun h0 => hne ((nbits_holding_eq_zero hlt).mp (hw ▸ h0))
    rw [emitLoop, flushInt, if_neg hn, hw]
    rfl

end

/-! ### Ends -/

/-- RESULT is the count, or a free value if 32 bits cannot hold it (R172, log 8). -/
theorem countResult_eq (out : Nat) (s : State) : countResult out s =
    (if out < 2 ^ 32 then BitVec.ofNat 32 out else Config.freeWord s.draws,
      { s with draws := if out < 2 ^ 32 then s.draws else s.draws + 1 }) := by
  unfold countResult
  split <;> rfl

/-- The whole stream has been written (R172). -/
theorem emitDone_eq (out : Nat) (s : State) : emitDone out s = .done { s with
    enc := { s.enc with closed := true }
    ctl := { s.ctl with
      statusCode := 0x00#8
      result := if out < 2 ^ 32 then BitVec.ofNat 32 out else Config.freeWord s.draws }
    draws := if out < 2 ^ 32 then s.draws else s.draws + 1 } := by
  rw [emitDone, countResult_eq]
  rfl

/-- A byte of the stream has been refused (R172). -/
theorem emitFail_eq (out : Nat) (s : State) : emitFail out s = .done { s with
    ctl := { s.ctl with
      wfail := true, wcode := 0x20#8, statusCode := 0x20#8
      result := if out < 2 ^ 32 then BitVec.ofNat 32 out else Config.freeWord s.draws }
    draws := if out < 2 ^ 32 then s.draws else s.draws + 1 } := by
  rw [emitFail, countResult_eq]
  rfl

theorem success_emitFail (out : Nat) (s : State) : (emitFail out s).success = none := by
  rw [emitFail_eq]
  rfl

/-! ### Runs of micro-operations -/

/-- The state once the sink has ACKed the bytes `bs`, with the digits `d` pending and the answers `more` to come. -/
def State.streamed (bs : List Byte) (d : Bits) (more : List SinkAnswer) (s : State) : State :=
  { s with
    bw := BitWriter.holding d
    env := { s.env with sink := s.env.sink ++ bs, sinkAns := more } }

section
variable {c d : Bits} {xs : List Emit} {bs : List Byte} (cmd : Word)

/-- Every byte offered is ACKed: all of them reach the sink, in order, and are counted (R172). -/
theorem emitLoop_acked (h : Emits c xs bs d) (out : Nat) {s : State} {more : List SinkAnswer}
    (hw : s.bw = BitWriter.holding c) (ha : s.env.sinkAns = List.replicate bs.length .ack ++ more) :
    emitLoop cmd xs out s = emitDone (out + bs.length) (s.streamed bs d more) := by
  induction h generalizing out s with
  | nil c =>
    obtain rfl : s.env.sinkAns = more := ha
    rw [State.streamed, List.append_nil, ← hw]
    rfl
  | quiet hx _ ih => exact (emitLoop_quiet cmd _ out hw hx).trans (ih out rfl ha)
  | offer hx _ ih =>
    rw [emitLoop_offers cmd _ out hw hx, sinkWrite_ack (by exact ha), emitAfter, ih (out + 1) rfl rfl]
    simp [State.streamed, Nat.add_assoc, Nat.add_comm 1]

/-- The byte after the first `k` is refused: those before it are in the sink, the writer is empty (R172). -/
theorem emitLoop_refused (h : Emits c xs bs d) (out : Nat) {s : State} {k : Nat} {e : Byte} {more : List SinkAnswer}
    (hw : s.bw = BitWriter.holding c) (hk : k < bs.length)
    (ha : s.env.sinkAns = List.replicate k .ack ++ .err e :: more) :
    emitLoop cmd xs out s =
      emitFail (out + k) { s.streamed (bs.take k) [] more with ctl := { s.ctl with ioerrSink := e } } := by
  induction h generalizing out s k with
  | nil c => cases hk
  | quiet hx _ ih => exact (emitLoop_quiet cmd _ out hw hx).trans (ih out rfl hk ha)
  | offer hx _ ih =>
    rw [emitLoop_offers cmd _ out hw hx]
    cases k with
    | zero =>
      rw [sinkWrite_err (by exact ha), emitAfter]
      simp only [State.streamed, List.take_zero, List.append_nil]
      rfl
    | succ k =>
      rw [sinkWrite_ack (by exact ha), emitAfter, ih (out + 1) rfl (Nat.lt_of_succ_lt_succ hk) rfl]
      simp [State.streamed, Nat.add_assoc, Nat.add_comm 1]

/-- A run that succeeds has put all its bytes on the sink (R172). -/
theorem sink_of_success_emitLoop (h : Emits c xs bs d) (out : Nat) {s u : State} (hw : s.bw = BitWriter.holding c)
    (hu : (emitLoop cmd xs out s).success = some u) : u.env.sink = s.env.sink ++ bs := by
  induction h generalizing out s with
  | nil c =>
    rw [emitLoop, emitDone_eq] at hu
    cases hu
    exact (List.append_nil _).symm
  | quiet hx _ ih =>
    rw [emitLoop_quiet cmd _ out hw hx] at hu
    exact (ih out rfl hu :)
  | offer hx _ ih =>
    rw [emitLoop_offers cmd _ out hw hx] at hu
    obtain ⟨_, hr⟩ | ⟨rest, _, hr⟩ | ⟨e, rest, _, hr⟩ := sinkWrite_cases _ { s with bw := BitWriter.reset } <;>
      rw [hr, emitAfter] at hu
    · cases hu
    · rw [ih _ rfl hu]
      simp
    · rw [success_emitFail] at hu
      cases hu

end

/-! ### The stream -/

theorem Emits.append {c d f : Bits} {xs ys : List Emit} {bs bs' : List Byte} (h : Emits c xs bs d)
    (h' : Emits d ys bs' f) : Emits c (xs ++ ys) (bs ++ bs') f := by
  induction h with
  | nil c => exact h'
  | quiet hx _ ih => exact .quiet hx (ih h')
  | offer hx _ ih => exact .offer hx (ih h')

theorem emits_raws (bs : List Byte) : Emits [] (bs.map .raw) bs [] := by
  induction bs with
  | nil => exact .nil []
  | cons b bs ih => exact .offer (.raw b) ih

/-- Digits and a flush offer the pending digits and these in whole bytes, the last one padded (R61, R174, R175). -/
theorem emits_code {c : Bits} (hc : c.length < 8) (p : Bits) :
    Emits c (emitCode p ++ [.flush]) (packBits (c ++ p)) [] := by
  induction p generalizing c with
  | nil =>
    rw [List.append_nil]
    obtain rfl | hne := eq_or_ne c []
    · exact .quiet .aligned (.nil [])
    · rw [packBits_eq_singleton (List.length_pos_iff.mpr hne) hc.le]
      exact .offer (.pad hne hc) (.nil [])
  | cons x p ih =>
    rw [← List.singleton_append, ← List.append_assoc]
    obtain hlt | h7 := Nat.lt_or_eq_of_le (Nat.le_of_lt_succ hc)
    · exact .quiet (.place x hlt) (ih (by simpa using Nat.succ_lt_succ hlt))
    · have h8 : (c ++ [x]).length = 8 := by simp [h7]
      rw [packBits_append (k := 1) h8, packBits_eq_singleton (by omega) h8.le]
      exact .offer (.complete x h7) (ih (c := []) (by decide))

/-- A descriptor's symbol, length and padded code (R174). -/
theorem emits_descriptor (codes : Byte → Bits) (b : Byte) :
    Emits [] (emitDescriptor codes b) (descriptorOf b (codes b)).bytes [] :=
  .offer (.raw b) (.offer (.raw _) (emits_code (by decide) (codes b)))

theorem emits_descriptors (codes : Byte → Bits) (present : List Byte) :
    Emits [] (present.flatMap (emitDescriptor codes))
      ((present.map fun b => descriptorOf b (codes b)).flatMap Descriptor.bytes) [] := by
  induction present with
  | nil => exact .nil []
  | cons b present ih =>
    simp only [List.flatMap_cons, List.map_cons]
    exact (emits_descriptor codes b).append ih

/-- What ENC.FINALIZE emits is the stream of the format (R63, R172 to R175). -/
theorem emits_emitStream (codes : Byte → Bits) (present buf : List Byte) :
    Emits [] (emitStream codes present buf) (streamBytes codes present buf) [] := by
  have hpay : buf.flatMap (fun b => emitCode (codes b)) = emitCode (buf.flatMap codes) := by
    simp [emitCode, List.map_flatMap]
  have hlen : (present.map fun b => descriptorOf b (codes b)).length = present.length := List.length_map ..
  rw [emitStream, streamBytes, headerBytes, hpay, hlen, List.append_assoc _ _ [_]]
  exact (((emits_raws _).append (emits_raws _)).append (emits_descriptors codes present)).append
    (emits_code (c := []) (by decide) _)

end Sys2Proof.Machine
end

section
/-! SUPPORT. The encoder's commands from a ready state: the bytes ENC.WRITE buffers and counts, and ENC.FINALIZE's run
over its stream (`44_encoder.md` R171 to R176). -/

namespace Sys2Proof.Machine

/-! ### ENC.WRITE -/

theorem exec_encWrite_ready {s : State} (h : WriteReady s) (hc : s.enc.closed = false) (n : Nat) :
    exec (.encWrite n) s = .next (settle (encode (.encWrite n)) (encWriteBody n s)) :=
  exec_of_writeReady rfl (by simp [stateCheck, hc]) rfl h

/-- ENC.WRITE buffers and counts the bytes on DIN one after the other (R171). -/
theorem encWriteLoop_buffers (n : Nat) {bs rest : List Byte} {s : State} (hd : s.env.din = bs ++ rest) :
    encWriteLoop n bs.length s = .done (complete Status.ok.code (BitVec.ofNat 32 n) { s with
      enc := bs.foldl Encoder.push s.enc
      env := { s.env with din := rest, dinTaken := s.env.dinTaken + bs.length } }) := by
  induction bs generalizing s with
  | nil =>
    obtain rfl : s.env.din = rest := hd
    rfl
  | cons b bs ih =>
    rw [List.length_cons, encWriteLoop, dinRead_cons hd]
    refine (ih rfl).trans ?_
    simp [Nat.add_assoc, Nat.add_comm 1]

theorem freqOf_foldl_push (bs : List Byte) (e : Encoder) (b : Byte) :
    (bs.foldl Encoder.push e).freqOf b = e.freqOf b + BitVec.ofNat 32 (bs.count b) := by
  induction bs generalizing e with
  | nil => simp
  | cons a bs ih =>
    rw [List.foldl_cons, ih, freqOf_push, List.count_cons]
    by_cases h : b = a
    · subst h
      simp [BitVec.ofNat_add, BitVec.add_assoc, BitVec.add_comm 1#32]
    · simp [h, Ne.symm h]

/-- Bytes buffered one after the other: appended, and each counted (R171). -/
theorem foldl_push (bs : List Byte) (e : Encoder) : bs.foldl Encoder.push e = { e with
    buf := e.buf ++ bs
    freq := Vector.ofFn fun k : Fin 256 => e.freqOf (symbolOf k) + BitVec.ofNat 32 (bs.count (symbolOf k)) } := by
  have hfreq : (bs.foldl Encoder.push e).freq =
      Vector.ofFn fun k : Fin 256 => e.freqOf (symbolOf k) + BitVec.ofNat 32 (bs.count (symbolOf k)) := by
    refine Vector.ext fun k hk => ?_
    rw [Vector.getElem_ofFn, ← freqOf_foldl_push]
    simp [Encoder.freqOf, symbolOf, Nat.mod_eq_of_lt hk]
  rw [← hfreq]
  clear hfreq
  induction bs generalizing e with
  | nil => simp
  | cons b bs ih =>
    rw [List.foldl_cons, ih (e.push b)]
    simp [Encoder.push]

/-! ### ENC.FINALIZE -/

theorem emits_stream (e : Encoder) :
    Emits [] (emitStream e.derive.writtenCode e.present e.buf) e.stream [] :=
  emits_emitStream _ _ _

section
variable {s : State} (h : WriteReady s) (hcount : s.countsBuffer)
include h hcount

/-- ENC.FINALIZE of an open session emits its stream, every code it reads being valid (R156, R172). -/
theorem exec_encFinalize_ready (hc : s.enc.closed = false) : exec .encFinalize s = .next (settle (encode .encFinalize)
    (emitLoop (encode .encFinalize) (emitStream s.enc.derive.writtenCode s.enc.present s.enc.buf) 0
      { s with enc := s.enc.derive })) := by
  refine exec_of_writeReady (body := encFinalizeBody (encode .encFinalize)) rfl (by simp [stateCheck, hc]) ?_ h
  simp [exec, execEncFinalize, codesWritten_derive hcount]

/-- A pending digit stops the first byte of the stream (R102, R172). -/
theorem exec_encFinalize_misaligned (hc : s.enc.closed = false) (hn : s.bw.nbits ≠ 0#3) :
    exec .encFinalize s = .next (settle (encode .encFinalize) (.done (raise .misalignedRawWrite (encode .encFinalize) 0
      (s.bw.nbits.setWidth 8) { s with enc := s.enc.derive }))) := by
  rw [exec_encFinalize_ready h hcount hc]
  simp only [emitStream, le32Bytes, List.map_cons, List.cons_append, emitLoop]
  rw [writeRawInt_misaligned (by exact hn)]

/-- ENC.FINALIZE that succeeds started aligned and has put the whole stream on the sink (R172). -/
theorem sink_of_exec_encFinalize_ok (hc : s.enc.closed = false) (hp : s.bw.padded) {t : State}
    (ht : exec .encFinalize s = .next t) (hr : t.running = none) (hok : t.ctl.statusCode = 0x00#8) :
    t.env.sink = s.env.sink ++ s.enc.stream := by
  by_cases hn : s.bw.nbits = 0#3
  · have hw : s.bw = BitWriter.holding [] := by
      rw [← holding_pending hp, BitWriter.pending, hn]
      rfl
    rw [exec_encFinalize_ready h hcount hc, Host.Outcome.next.injEq] at ht
    obtain ⟨u, hu, rfl⟩ := settle_success.mp ⟨ht, hr, hok⟩
    exact (sink_of_success_emitLoop _ (emits_stream s.enc) 0 (by exact hw) hu :)
  · rw [exec_encFinalize_misaligned h hcount hc hn] at ht
    obtain rfl := Host.Outcome.next.inj ht
    simp [raise, Status.code] at hok

end

/-- The length of the stream, from the code lengths (R176). -/
theorem length_streamBytes (codes : Byte → Bits) (present buf : List Byte) :
    (streamBytes codes present buf).length =
      8 + (present.map fun b => 2 + ((codes b).length + 7) / 8).sum +
        ((buf.map fun b => (codes b).length).sum + 7) / 8 := by
  have hdesc (b : Byte) (c : Bits) : (descriptorOf b c).bytes.length = 2 + (c.length + 7) / 8 := by
    simp only [Descriptor.bytes, descriptorOf, List.length_cons, length_packBits]
    omega
  simp [streamBytes, headerBytes, le32Bytes, List.length_flatMap, Function.comp_def, hdesc, Nat.add_assoc]
  omega

end Sys2Proof.Machine
end

section
/-! SUPPORT. The digits the bit reader can take without waiting, and the state once some of them have been read,
whatever loop reads them (`20_memory.md` R61, `41_bit_reader.md` R120). -/

namespace Sys2Proof.Machine

/-! ### Digits ahead -/

/-- The bytes the source gives before it first answers otherwise. -/
def leadingBytes : List SrcAnswer → List Byte
  | .data b :: rest => b :: leadingBytes rest
  | .exhausted :: _ => []
  | .err _ :: _ => []
  | [] => []

theorem leadingBytes_append (bytes : List Byte) (rest : List SrcAnswer) :
    leadingBytes (bytes.map .data ++ rest) = bytes ++ leadingBytes rest := by
  induction bytes with
  | nil => rfl
  | cons b bytes ih => exact congrArg (b :: ·) ih

/-- The digits ReadBitInt takes before it waits, fails or ends: the unread ones, then those of the source's bytes. -/
def State.ahead (s : State) : Bits :=
  s.br.unread ++ if s.br.ended then [] else (leadingBytes s.env.src).flatMap byteBits

/-- The state after ReadBitInt, where it takes a digit. -/
def State.digitRead (s : State) : State :=
  match readBitInt s with
  | .got _ t => t
  | .exhausted _ => s
  | .err _ => s
  | .wait _ => s

theorem digitRead_of_got {s t : State} {x : Bool} (h : readBitInt s = .got x t) : s.digitRead = t := by
  rw [State.digitRead, h]

/-- ReadBitInt takes the first digit ahead and leaves the others ahead (R120). -/
theorem readBitInt_of_ahead {s : State} {x : Bool} {more : Bits} (h : s.ahead = x :: more) :
    readBitInt s = .got x s.digitRead ∧ s.digitRead.ahead = more := by
  by_cases hn : s.br.nbits = 0#3
  · rw [State.ahead, unread_eq_nil.mpr hn, List.nil_append] at h
    cases he : s.br.ended with
    | true => simp [he] at h
    | false =>
      match hs : s.env.src with
      | .data b :: rest =>
        have hr := readBitInt_data hn he hs
        rw [he, hs, if_neg Bool.false_ne_true, leadingBytes, List.flatMap_cons,
          byteBits_eq_cons_unread b s.br.ended, List.cons_append, List.cons.injEq] at h
        obtain ⟨rfl, rfl⟩ := h
        rw [digitRead_of_got hr]
        exact ⟨hr, by simp [State.ahead, he]⟩
      | [] => simp [he, hs, leadingBytes] at h
      | .exhausted :: rest => simp [he, hs, leadingBytes] at h
      | .err e :: rest => simp [he, hs, leadingBytes] at h
  · have hr := readBitInt_unread hn
    rw [State.ahead, unread_cons hn, List.cons_append, List.cons.injEq] at h
    obtain ⟨rfl, rfl⟩ := h
    rw [digitRead_of_got hr]
    exact ⟨hr, rfl⟩

/-! ### The state after digits -/

/-- The state once the bytes `bs` have been taken from the source, with the reader then at `r`. -/
def State.took (bs : List Byte) (r : BitReader) (rest : List SrcAnswer) (s : State) : State :=
  { s with br := r, env := { s.env with src := rest, srcTaken := s.env.srcTaken + bs.length } }

theorem took_took (bs bs' : List Byte) (r r' : BitReader) (rest rest' : List SrcAnswer) (s : State) :
    (s.took bs r rest).took bs' r' rest' = s.took (bs ++ bs') r' rest' := by
  simp [State.took, Nat.add_assoc]

/-- The state with another decode session, DOUT and room on it, none of which a read of a digit looks at. -/
def State.withOut (d : Decoder) (dout : List Byte) (room : Nat) (s : State) : State :=
  { s with dec := d, env := { s.env with dout := dout, doutRoom := room } }

theorem digitRead_withOut (d : Decoder) (dout : List Byte) (room : Nat) :
    Function.Commute State.digitRead (State.withOut d dout room) := by
  intro s
  obtain ⟨hn, hr⟩ | ⟨hn, he, hr⟩ | ⟨hn, he, hs, hr⟩ | ⟨hn, he, b, rest, hs, hr⟩ | ⟨hn, he, rest, hs, hr⟩ |
    ⟨hn, he, e, rest, hs, hr⟩ := readBitInt_cases s <;> simp only [State.digitRead, hr]
  · rw [readBitInt_unread (s := s.withOut d dout room) hn]; rfl
  · rw [readBitInt_ended (s := s.withOut d dout room) hn he]
  · rw [readBitInt_wait (s := s.withOut d dout room) hn he hs]
  · rw [readBitInt_data (s := s.withOut d dout room) hn he hs]; rfl
  · rw [readBitInt_exhausted (s := s.withOut d dout room) hn he hs]
  · rw [readBitInt_err (s := s.withOut d dout room) hn he hs]

/-- Digits read that leave fewer than eight of the bytes given: each of these bytes has been taken, and the reader holds
the last (R61, R120). -/
theorem iterate_digitRead {s : State} {bytes : List Byte} {c more : Bits} {rest : List SrcAnswer}
    (he : s.br.ended = false ∨ bytes = []) (hs : s.env.src = bytes.map .data ++ rest)
    (hd : s.br.unread ++ bytes.flatMap byteBits = c ++ more) (hm : more.length < 8) :
    State.digitRead^[c.length] s = s.took bytes { s.br with
      byte := bytes.getLast?.getD s.br.byte, nbits := BitVec.ofNat 3 more.length } rest := by
  induction c generalizing s bytes with
  | nil =>
    obtain rfl : bytes = [] := by
      cases bytes with
      | nil => rfl
      | cons b bytes =>
        have hlen := congrArg List.length hd
        simp only [List.flatMap_cons, List.length_append, length_byteBits, List.nil_append] at hlen
        omega
    obtain rfl : s.br.unread = more := by simpa using hd
    obtain rfl : s.env.src = rest := hs
    simp [State.took, length_unread]
  | cons x c ih =>
    rw [List.length_cons, Function.iterate_succ_apply]
    by_cases hn : s.br.nbits = 0#3
    · rw [unread_eq_nil.mpr hn, List.nil_append] at hd
      obtain he | rfl := he
      · cases bytes with
        | nil => cases hd
        | cons b bytes =>
          rw [List.flatMap_cons, byteBits_eq_cons_unread b s.br.ended, List.cons_append, List.cons_append,
            List.cons.injEq] at hd
          rw [digitRead_of_got (readBitInt_data hn he hs)]
          refine (ih (s := s.took [b] { s.br with byte := b, nbits := 7#3 } _) (.inl he) rfl hd.2).trans ?_
          simp [State.took, List.getLast?_cons, Nat.add_assoc, Nat.add_comm 1]
      · cases hd
    · rw [unread_cons hn, List.cons_append, List.cons_append, List.cons.injEq] at hd
      rw [digitRead_of_got (readBitInt_unread hn)]
      exact ih he hs hd.2

end Sys2Proof.Machine
end

section
/-! SUPPORT. DEC.OPEN of a whole header: its integers, each descriptor, and the session it leaves (`45_decoder.md` R191,
R193). -/

namespace Sys2Proof.Machine

/-! ### Raw bytes -/

section
variable {s : State} {rest : List SrcAnswer} (cmd : Word) (hn : s.br.nbits = 0#3) (he : s.br.ended = false)
include hn he

theorem headerByte_data {b : Byte} (stalled : Wait) (next : Byte → State → Run) (hs : s.env.src = .data b :: rest) :
    headerByte cmd stalled next s = next b (s.took [b] s.br rest) := by
  rw [headerByte, readRawInt_data hn he hs]
  rfl

/-- A header integer's bytes are taken one after the other (R191). -/
theorem headerWord_data {bs : List Byte} (stalled : List Byte → Wait) (next : Word → State → Run) (got : List Byte)
    (hs : s.env.src = bs.map .data ++ rest) :
    headerWord cmd stalled next bs.length got s = next (le32 (got ++ bs)) (s.took bs s.br rest) := by
  induction bs generalizing got s with
  | nil =>
    obtain rfl : s.env.src = rest := hs
    rw [List.append_nil]
    rfl
  | cons b bs ih =>
    rw [List.length_cons, headerWord, headerByte_data (rest := bs.map .data ++ rest) cmd hn he _ _ (by exact hs),
      ih (s := s.took [b] s.br _) hn he _ rfl, took_took, List.append_assoc]
    rfl

theorem headerWord_le32Bytes (v : Word) (stalled : List Byte → Wait) (next : Word → State → Run)
    (hs : s.env.src = (le32Bytes v).map .data ++ rest) :
    headerWord cmd stalled next 4 [] s = next v (s.took (le32Bytes v) s.br rest) := by
  have h := headerWord_data cmd hn he stalled next [] hs
  rwa [List.nil_append, le32_le32Bytes] at h

end

/-! ### Descriptors -/

/-- A descriptor's code bits are the digits ahead (R193). -/
theorem descBits_of_ahead (next : State → Run) (left : Nat) (sym : Byte) {c more : Bits} (got : Bits) {s : State}
    (h : s.ahead = c ++ more) :
    descBits next left sym c.length got s = descInsert next sym (got ++ c) (State.digitRead^[c.length] s) := by
  induction c generalizing got s with
  | nil =>
    rw [List.append_nil]
    rfl
  | cons x c ih =>
    obtain ⟨hr, hmore⟩ := readBitInt_of_ahead h
    rw [List.length_cons, descBits, hr]
    simp only
    rw [ih _ hmore, List.append_assoc, List.singleton_append, Function.iterate_succ_apply]

/-- The code bits of a descriptor fill its code bytes but for less than a byte of padding (R193). -/
theorem Descriptor.fits.field_digits {d : Descriptor} (h : d.fits) :
    d.code.length = d.len.toNat ∧ ∃ pad : Bits, d.field.flatMap byteBits = d.code ++ pad ∧ pad.length < 8 := by
  have hlen : (d.field.flatMap byteBits).length = 8 * ((d.len.toNat + 7) / 8) := by
    rw [← h, List.length_flatMap]
    simp [Nat.mul_comm]
  refine ⟨?_, (d.field.flatMap byteBits).drop d.len.toNat, (List.take_append_drop ..).symm, ?_⟩
  · rw [Descriptor.code, List.length_take]
    omega
  · rw [List.length_drop]
    omega

/-- The reader once the code bytes `field` have been read and the padding dropped (R193). -/
def BitReader.atField (field : List Byte) (r : BitReader) : BitReader :=
  { r with byte := field.getLast?.getD r.byte, nbits := 0#3 }

theorem atField_atField (field field' : List Byte) (r : BitReader) :
    (r.atField field).atField field' = r.atField (field ++ field') := by
  simp only [BitReader.atField, List.getLast?_append]
  cases field'.getLast? <;> rfl

/-- The table of a session, replaced. -/
def State.withTable (table : List DtabEntry) (s : State) : State := { s with dec := { s.dec with dtab := table } }

/-- A code with room in the table goes into it, the reader realigned (R193). -/
theorem descInsert_of_some (next : State → Run) {sym : Byte} {code : Bits} {table : List DtabEntry} {s : State}
    (h : dtabInsert code sym s.dec.dtab = some table) :
    descInsert next sym code s = next (State.withTable table { s with br := { s.br with nbits := 0#3 } }) := by
  simp only [descInsert, resetAlignInt, h]
  rfl

section
variable {s : State} {d : Descriptor} {rest : List SrcAnswer} (cmd : Word) (left : Nat) (hn : s.br.nbits = 0#3)
  (he : s.br.ended = false) (hd : d.fits) (hs : s.env.src = d.bytes.map .data ++ rest)
include hn he hd hs

/-- A descriptor is read whole, and its code then goes into the table (R193). -/
theorem descLoop_descriptor : descLoop cmd (left + 1) s = descInsert (descLoop cmd left) d.sym d.code
    (s.took d.bytes (s.br.atField d.field) rest) := by
  obtain ⟨hlen, pad, hpad, hlt⟩ := hd.field_digits
  have hunread : s.br.unread = [] := unread_eq_nil.mpr hn
  have hahead : (s.took [d.sym, d.len] s.br (d.field.map .data ++ rest)).ahead =
      d.code ++ (pad ++ (leadingBytes rest).flatMap byteBits) := by
    simp [State.ahead, State.took, he, hunread, leadingBytes_append, hpad]
  rw [descLoop, headerByte_data cmd hn he _ _ hs, descLength, headerByte_data cmd (by exact hn) (by exact he) _ _ rfl,
    took_took, ← hlen]
  refine (descBits_of_ahead _ _ _ [] hahead).trans ?_
  have hread := iterate_digitRead (s := s.took [d.sym, d.len] s.br (d.field.map .data ++ rest)) (.inl he) rfl
    ((congrArg (· ++ _) hunread).trans hpad) hlt
  rw [List.nil_append, hread, took_took]
  rfl

end

/-- Descriptors whose codes have room are read one after the other into the table (R193). -/
theorem descLoop_descriptors (cmd : Word) (left : Nat) {descs : List Descriptor} {table : List DtabEntry}
    {rest : List SrcAnswer} {s : State} (hn : s.br.nbits = 0#3) (he : s.br.ended = false) (hd : ∀ d ∈ descs, d.fits)
    (ht : descs.foldlM (fun table d => dtabInsert d.code d.sym table) s.dec.dtab = some table)
    (hs : s.env.src = (descs.flatMap Descriptor.bytes).map .data ++ rest) :
    descLoop cmd (descs.length + left) s = descLoop cmd left ((s.took (descs.flatMap Descriptor.bytes)
      (s.br.atField (descs.flatMap Descriptor.field)) rest).withTable table) := by
  induction descs generalizing s with
  | nil =>
    obtain rfl : s.env.src = rest := hs
    obtain rfl : s.dec.dtab = table := Option.some.inj ht
    simp [State.withTable, State.took, BitReader.atField, ← hn]
  | cons d descs ih =>
    obtain ⟨hd, hds⟩ := List.forall_mem_cons.mp hd
    rw [List.foldlM_cons, Option.bind_eq_bind, Option.bind_eq_some_iff] at ht
    obtain ⟨table', hinsert, ht⟩ := ht
    rw [List.flatMap_cons, List.map_append, List.append_assoc] at hs
    rw [List.length_cons, Nat.add_right_comm, descLoop_descriptor cmd _ hn he hd hs,
      descInsert_of_some _ (by exact hinsert)]
    refine (ih (s := (s.took d.bytes (s.br.atField d.field) _).withTable table') rfl he hds ht rfl).trans ?_
    simp [State.withTable, State.took, atField_atField, Nat.add_assoc]

/-! ### The whole header -/

/-- DEC.OPEN runs its body in every state but FATAL (R232 step 3). -/
theorem exec_decOpen_of_not_fatal {s : State} (h : s.ctl.fatal = false) :
    exec .decOpen s = .next (settle (encode .decOpen) (decOpenBody (encode .decOpen) s)) := by
  show Host.Outcome.next (settle _ (gated _ _ s)) = _
  rw [gated_proceed (by simp [gate, isOpen, h])]

/-- The state once DEC.OPEN has read a header of `count` and `descs`, whose codes make `table` (R191). -/
def State.opened (count : Word) (descs : List Descriptor) (table : List DtabEntry) (rest : List SrcAnswer) (s : State) :
    State :=
  { s with
    running := none
    br := { byte := lastCodeByte descs, nbits := 0#3, ended := false }
    dec := {
      state := .ready, declared := count, alpha := BitVec.ofNat 32 descs.length, emitted := 0#32,
      dtab := table, cand := s.dec.cand }
    env := { s.env with src := rest, srcTaken := s.env.srcTaken + (headerBytes count descs).length }
    ctl := { s.ctl with rfail := false, rcode := 0x00#8, statusCode := 0x00#8, result := 0#32 } }

/-- DEC.OPEN reads exactly a header's bytes (R191 to R193). -/
theorem exec_decOpen_header {s : State} {count : Word} {descs : List Descriptor} {table : List DtabEntry}
    {rest : List SrcAnswer} (hf : s.ctl.fatal = false) (hd : ∀ d ∈ descs, d.fits) (hl : descs.length < 2 ^ 32)
    (ht : tableOf descs = some table) (hs : s.env.src = (headerBytes count descs).map .data ++ rest) :
    exec .decOpen s = .next (s.opened count descs table rest) := by
  have hcount : (BitVec.ofNat 32 descs.length).toNat = descs.length + 0 := Nat.mod_eq_of_lt hl
  rw [headerBytes, List.map_append, List.map_append, List.append_assoc, List.append_assoc] at hs
  rw [exec_decOpen_of_not_fatal hf, decOpenBody, headerWord_le32Bytes (s := freshSession s) _ rfl rfl _ _ _ hs,
    countKnown, headerWord_le32Bytes _ (by rfl) (by rfl) _ _ _ (by rfl), alphaKnown, hcount,
    descLoop_descriptors (table := table) (rest := rest) _ 0 (by rfl) (by rfl) hd (by exact ht) (by rfl), descLoop]
  simp [State.opened, State.withTable, State.took, freshSession, clearReadFail, complete, BitReader.atField,
    BitReader.reset, lastCodeByte, headerBytes, Decoder.reset, Status.code, le32Bytes, Nat.add_assoc, Nat.add_comm 8]

end Sys2Proof.Machine
end

section
/-! SUPPORT. DEC.READ over digits that spell codes of its table, and Drain up to the source's end (`45_decoder.md` R194
to R197). -/

namespace Sys2Proof.Machine

/-! ### Reading digits and the rest of the state -/

theorem ahead_iterate_digitRead {s : State} {c more : Bits} (h : s.ahead = c ++ more) :
    (State.digitRead^[c.length] s).ahead = more := by
  induction c generalizing s with
  | nil => exact h
  | cons x c ih => exact ih (readBitInt_of_ahead h).2

theorem iterate_digitRead_withOut (n : Nat) (d : Decoder) (dout : List Byte) (room : Nat) (s : State) :
    State.digitRead^[n] (s.withOut d dout room) = (State.digitRead^[n] s).withOut d dout room :=
  (digitRead_withOut d dout room).iterate_left n s

/-- A read of a digit leaves the decode session and DOUT as they were (R120). -/
theorem digitRead_eq_withOut (s : State) : s.digitRead = s.digitRead.withOut s.dec s.env.dout s.env.doutRoom :=
  digitRead_withOut s.dec s.env.dout s.env.doutRoom s

/-! ### One symbol -/

/-- An entry of the table that the decoder can match: its code is found before any other that it begins with, and is no
longer than a candidate (R195, R196). -/
structure Matchable (table : List DtabEntry) (e : DtabEntry) : Prop where
  mem : e ∈ table
  first : matchedFirst table e
  short : e.code.length ≤ Config.maxCodeLen

theorem Matchable.lookup {table : List DtabEntry} {e : DtabEntry} (h : Matchable table e) :
    dtabLookup (.bits e.code) table = some e.sym := by
  obtain ⟨hmem, hfirst, _⟩ := h
  obtain ⟨sym, hsym⟩ := Option.isSome_iff_exists.mp (isSome_dtabLookup.mpr (List.mem_map_of_mem hmem))
  obtain ⟨c, a, hc, ha, hcode, rfl⟩ := dtabLookup_some hsym
  cases hc
  rw [hsym, hfirst a ha (hcode ▸ List.prefix_rfl)]

/-- No candidate that is a proper prefix of the code is in the table (R195). -/
theorem Matchable.lookup_prefix {table : List DtabEntry} {e : DtabEntry} (h : Matchable table e) {c d : Bits} {x : Bool}
    (hc : e.code = c ++ x :: d) : dtabLookup (.bits c) table = none := by
  refine dtabLookup_none fun a ha hac => ?_
  obtain rfl := h.first a ha ⟨x :: d, by rw [hac, hc]⟩
  simp [hc] at hac

/-- The match loop reads the digits of a code one by one until it finds it (R195). -/
theorem matchSymbol_of_ahead {e : DtabEntry} {c d more : Bits} {s : State} (h : Matchable s.dec.dtab e)
    (hcand : s.dec.cand = .bits c) (hcode : e.code = c ++ d) (ha : s.ahead = d ++ more) :
    matchSymbol s = .got e.sym ((State.digitRead^[d.length] s).withOut { s.dec with cand := .bits e.code }
      s.env.dout s.env.doutRoom) := by
  induction d generalizing c s with
  | nil =>
    rw [List.append_nil] at hcode
    rw [matchSymbol_eq, hcand, ← hcode, h.lookup, hcode, ← hcand]
    rfl
  | cons x d ih =>
    obtain ⟨hr, hmore⟩ := readBitInt_of_ahead ha
    have hlen : c.length < Config.maxCodeLen := by
      have hl := h.short
      rw [hcode, List.length_append, List.length_cons] at hl
      omega
    rw [matchSymbol_eq, hcand, h.lookup_prefix hcode, hr]
    simp only
    rw [digitRead_eq_withOut s]
    have happend : candAppend s.dec.cand x = .bits (c ++ [x]) := by rw [hcand, candAppend, if_pos hlen]
    refine (ih (s := s.digitRead.withOut { s.dec with cand := candAppend s.dec.cand x } s.env.dout s.env.doutRoom) h
      happend (by simp [hcode]) hmore).trans ?_
    rw [iterate_digitRead_withOut]
    rfl

/-! ### Symbols in a row -/

/-- The state once the entries `out` have been decoded, with `room` places left on DOUT (R194). -/
def State.decoded (out : List DtabEntry) (room : Nat) (s : State) : State :=
  (State.digitRead^[(out.flatMap DtabEntry.code).length] s).withOut
    { s.dec with
      emitted := s.dec.emitted + BitVec.ofNat 32 out.length
      cand := (out.getLast?.map fun e => .bits e.code).getD s.dec.cand }
    (s.env.dout ++ out.map DtabEntry.sym) room

/-- Entries decoded after others (R194). -/
theorem State.decoded_decoded (out out' : List DtabEntry) (room room' : Nat) (s : State) :
    (s.decoded out room).decoded out' room' = s.decoded (out ++ out') room' := by
  have hread : State.digitRead^[((out ++ out').flatMap DtabEntry.code).length] s =
      State.digitRead^[(out'.flatMap DtabEntry.code).length]
        (State.digitRead^[(out.flatMap DtabEntry.code).length] s) := by
    rw [← Function.iterate_add_apply, List.flatMap_append, List.length_append, Nat.add_comm]
  have hcand : (out'.getLast?.map fun e => Candidate.bits e.code).getD
      ((out.getLast?.map fun e => Candidate.bits e.code).getD s.dec.cand) =
      ((out ++ out').getLast?.map fun e => Candidate.bits e.code).getD s.dec.cand := by
    rw [List.getLast?_append]
    cases out'.getLast? <;> rfl
  simp only [State.decoded, iterate_digitRead_withOut, hread, ← hcand]
  simp [State.withOut, BitVec.ofNat_add, BitVec.add_assoc]

section
variable {s : State} {room : Nat} {more : Bits}

/-- DEC.READ matches the code ahead and emits its symbol (R194, R195). -/
theorem decReadLoop_symbol (left k : Nat) {e : DtabEntry} (h : Matchable s.dec.dtab e)
    (hne : s.dec.emitted ≠ s.dec.declared) (ha : s.ahead = e.code ++ more) (hr : s.env.doutRoom = room + 1) :
    decReadLoop (left + 1) k s = decReadLoop left (k + 1) (s.decoded [e] room) := by
  have hmatch := matchSymbol_of_ahead (s := clearCandidate s) h rfl (List.nil_append _).symm ha
  have hclear : clearCandidate s = s.withOut { s.dec with cand := .bits [] } s.env.dout s.env.doutRoom := rfl
  rw [hclear, iterate_digitRead_withOut] at hmatch
  rw [decReadLoop, if_neg hne, hclear, hmatch, matchAfter, emitSymbol, doutWrite_some.mpr ⟨room, by exact hr, rfl⟩,
    State.decoded, List.flatMap_singleton]
  rfl

/-- DEC.READ decodes the codes ahead as long as fewer symbols than declared have been emitted (R194). -/
theorem decReadLoop_decoded (left k : Nat) {out : List DtabEntry} (h : ∀ e ∈ out, Matchable s.dec.dtab e)
    (hle : s.dec.emitted.toNat + out.length ≤ s.dec.declared.toNat)
    (ha : s.ahead = out.flatMap DtabEntry.code ++ more) (hr : s.env.doutRoom = out.length + room) :
    decReadLoop (out.length + left) k s = decReadLoop left (k + out.length) (s.decoded out room) := by
  induction out generalizing s k with
  | nil =>
    obtain rfl : s.env.doutRoom = room := by simpa using hr
    simp [State.decoded, State.withOut]
  | cons e out ih =>
    obtain ⟨he, hout⟩ := List.forall_mem_cons.mp h
    rw [List.length_cons] at hle
    have hne : s.dec.emitted ≠ s.dec.declared := fun heq => by rw [heq] at hle; omega
    have hlt := s.dec.declared.isLt
    have hemitted : (s.dec.emitted + 1#32).toNat = s.dec.emitted.toNat + 1 := by
      rw [BitVec.toNat_add, BitVec.toNat_ofNat, Nat.mod_eq_of_lt (by omega)]
    rw [Nat.add_comm out.length, ← Nat.add_assoc, ← hemitted] at hle
    rw [List.flatMap_cons, List.append_assoc] at ha
    have hmore : (s.decoded [e] (out.length + room)).ahead = out.flatMap DtabEntry.code ++ more := by
      rw [State.decoded, List.flatMap_singleton]
      exact ahead_iterate_digitRead ha
    rw [List.length_cons, Nat.add_right_comm, decReadLoop_symbol _ _ he hne ha (hr.trans (Nat.add_right_comm ..)),
      ih (s := s.decoded [e] (out.length + room)) _ hout (by exact hle) hmore rfl,
      State.decoded_decoded, Nat.add_assoc, Nat.add_comm 1]
    rfl

end

/-! ### Drain -/

theorem drainAll_of_ahead {s : State} {c more : Bits} (h : s.ahead = c ++ more) :
    drainAll s = drainAll (State.digitRead^[c.length] s) := by
  induction c generalizing s with
  | nil => rfl
  | cons x c ih =>
    obtain ⟨hr, hmore⟩ := readBitInt_of_ahead h
    rw [drainAll_eq, hr]
    exact ih hmore

/-- Drain reads the source to its end and leaves the reader aligned and ended (R197). -/
theorem drainBody_exhausted (k : Nat) {s : State} {bytes : List Byte} {rest : List SrcAnswer}
    (he : s.br.ended = false) (hs : s.env.src = bytes.map .data ++ .exhausted :: rest) :
    drainBody k s = .done (complete Status.endOfStream.code (BitVec.ofNat 32 k) { s with
      br := { byte := bytes.getLast?.getD s.br.byte, nbits := 0#3, ended := true }
      dec := { s.dec with state := .drained }
      env := { s.env with src := rest, srcTaken := s.env.srcTaken + bytes.length } }) := by
  have ha : s.ahead = (s.br.unread ++ bytes.flatMap byteBits) ++ [] := by
    simp [State.ahead, he, hs, leadingBytes_append, leadingBytes]
  have hread := iterate_digitRead (more := []) (.inl he) hs (List.append_nil _).symm (by decide)
  have hdrain : drainAll s = .exhausted (s.took bytes { s.br with
      byte := bytes.getLast?.getD s.br.byte, nbits := 0#3, ended := true } rest) := by
    rw [drainAll_of_ahead ha, hread, drainAll_eq, readBitInt_exhausted (by rfl) (by exact he) (by rfl)]
    rfl
  rw [drainBody, ← drainAll, hdrain]
  rfl

/-! ### The command -/

theorem exec_decRead_ready {s : State} (h : ReadReady s) (ho : s.dec.state ≠ .unopened) (n : Nat) :
    exec (.decRead n) s = .next (settle (encode (.decRead n)) (decReadLoop n 0 s)) :=
  exec_of_readReady rfl (by simp [stateCheck, ho]) rfl h

/-- DEC.READ of more slots than there are symbols left, from a source that ends after their codes and less than a byte
of padding, emits them, drains the source and ends with END_OF_STREAM (R194, R197). -/
theorem exec_decRead_toEnd {s : State} {out : List DtabEntry} {bytes : List Byte} {pad : Bits} {room n : Nat}
    {rest : List SrcAnswer} (h : ReadReady s) (ho : s.dec.state ≠ .unopened)
    (hout : ∀ e ∈ out, Matchable s.dec.dtab e) (hall : s.dec.emitted.toNat + out.length = s.dec.declared.toNat)
    (he : s.br.ended = false) (hs : s.env.src = bytes.map .data ++ .exhausted :: rest)
    (hd : s.br.unread ++ bytes.flatMap byteBits = out.flatMap DtabEntry.code ++ pad) (hp : pad.length < 8)
    (hr : s.env.doutRoom = out.length + room) (hn : out.length < n) :
    exec (.decRead n) s = .next { s with
      br := { byte := bytes.getLast?.getD s.br.byte, nbits := 0#3, ended := true }
      dec := { s.dec with
        state := .drained
        emitted := s.dec.emitted + BitVec.ofNat 32 out.length
        cand := (out.getLast?.map fun e => .bits e.code).getD s.dec.cand }
      env := { s.env with
        src := rest, srcTaken := s.env.srcTaken + bytes.length
        dout := s.env.dout ++ out.map DtabEntry.sym, doutRoom := room }
      ctl := { s.ctl with statusCode := 0x01#8, result := BitVec.ofNat 32 out.length } } := by
  obtain ⟨left, rfl⟩ := Nat.exists_eq_add_of_lt hn
  have ha : s.ahead = out.flatMap DtabEntry.code ++ pad := by
    simpa [State.ahead, he, hs, leadingBytes_append, leadingBytes] using hd
  have hlast : s.dec.emitted + BitVec.ofNat 32 out.length = s.dec.declared := by
    apply BitVec.eq_of_toNat_eq
    have hlt := s.dec.declared.isLt
    rw [BitVec.toNat_add, BitVec.toNat_ofNat, Nat.mod_eq_of_lt (a := out.length) (by omega), hall,
      Nat.mod_eq_of_lt hlt]
  rw [exec_decRead_ready h ho, Nat.add_assoc, decReadLoop_decoded _ 0 hout hall.le ha hr, decReadLoop,
    if_pos (by exact hlast), State.decoded, iterate_digitRead (.inl he) hs hd hp,
    drainBody_exhausted (bytes := []) _ (by exact he) (by rfl)]
  simp [State.withOut, State.took, complete, Status.code, h.1]

end Sys2Proof.Machine
end

section
/-! SUPPORT. The descriptors ENC.FINALIZE writes, and that the decode table they make spells the buffer
(`43_code_table.md` R161, `44_encoder.md` R178). -/

namespace Sys2Proof.Machine

/-- The decode table's entry for a symbol of the session (R161). -/
def Encoder.entry (e : Encoder) (b : Byte) : DtabEntry := { code := e.derive.writtenCode b, sym := b }

/-- The descriptors ENC.FINALIZE writes (R174). -/
def Encoder.descriptors (e : Encoder) : List Descriptor :=
  e.present.map fun b => descriptorOf b (e.derive.writtenCode b)

theorem stream_eq (e : Encoder) : e.stream = headerBytes (BitVec.ofNat 32 e.buf.length) e.descriptors ++
    packBits (e.buf.flatMap e.derive.writtenCode) := rfl

section
variable {e : Encoder} {b : Byte}

theorem rootPath_writtenCode (h : b ∈ e.present) : e.RootPath (e.derive.writtenCode b) b :=
  codeOf_derive.mp (codeOf_derive_eq_some.mpr ⟨h, rfl⟩)

theorem length_writtenCode_le (h : b ∈ e.present) : (e.derive.writtenCode b).length ≤ 255 :=
  (codeLengthBound e b _ (codeOf_derive_eq_some.mpr ⟨h, rfl⟩)).2

/-- No code goes on to another's, so codes are distinct (R158). -/
theorem eq_of_writtenCode_isPrefix {c : Byte} (hb : b ∈ e.present) (hc : c ∈ e.present)
    (h : e.derive.writtenCode b <+: e.derive.writtenCode c) : b = c :=
  (rootPath_writtenCode hb).eq_of_isPrefix (rootPath_writtenCode hc) h

theorem fits_of_mem_descriptors {d : Descriptor} (h : d ∈ e.descriptors) : d.fits := by
  obtain ⟨b, hb, rfl⟩ := List.mem_map.mp h
  exact fits_descriptorOf b (length_writtenCode_le hb)

theorem length_descriptors_le (e : Encoder) : e.descriptors.length ≤ 256 :=
  (List.length_map _).trans_le (length_present_le e)

/-- The decode table of the descriptors has each symbol present with its code (R161). -/
theorem tableOf_descriptors (e : Encoder) : tableOf e.descriptors = some (e.present.map e.entry) := by
  have hcode : ∀ b ∈ e.present, (descriptorOf b (e.derive.writtenCode b)).code = e.derive.writtenCode b :=
    fun b hb => code_descriptorOf b (length_writtenCode_le hb)
  have hcodes : e.descriptors.map Descriptor.code = e.present.map e.derive.writtenCode := by
    rw [Encoder.descriptors, List.map_map]
    exact List.map_congr_left hcode
  have hnodup : (e.descriptors.map Descriptor.code).Nodup := by
    rw [hcodes]
    exact (nodup_present e).map_on fun b hb c hc h => eq_of_writtenCode_isPrefix hb hc (h ▸ List.prefix_rfl)
  rw [tableOf_distinct hnodup (length_descriptors_le e), Encoder.descriptors, List.map_map]
  refine congrArg some (List.map_congr_left fun b hb => ?_)
  exact congrArg (DtabEntry.mk · b) (hcode b hb)

/-- Each symbol of the table is found by its code before any other is (R158, R195). -/
theorem matchable_entry (h : b ∈ e.present) : Matchable (e.present.map e.entry) (e.entry b) := by
  refine ⟨List.mem_map_of_mem h, fun a ha hprefix => ?_, length_writtenCode_le h⟩
  obtain ⟨c, hc, rfl⟩ := List.mem_map.mp ha
  rw [eq_of_writtenCode_isPrefix hc h hprefix]

end

/-- Packed digits come back, and less than a byte of padding after them (R61). -/
theorem packBits_digits (c : Bits) :
    ∃ pad : Bits, (packBits c).flatMap byteBits = c ++ pad ∧ pad.length < 8 := by
  refine ⟨((packBits c).flatMap byteBits).drop c.length, ?_, ?_⟩
  · conv_lhs => rw [← List.take_append_drop c.length ((packBits c).flatMap byteBits), flatMap_byteBits_packBits]
  · simp only [List.length_drop, List.length_flatMap, length_byteBits, List.map_const', List.sum_replicate,
      length_packBits, smul_eq_mul]
    omega

/-! ### Decoding -/

section
variable {s : State} (hcount : s.countsBuffer)
include hcount

/-- The entries of the buffer's bytes are in the table and can be matched (R156, R195). -/
theorem matchable_buf {a : DtabEntry} (h : a ∈ s.enc.buf.map s.enc.entry) :
    Matchable (s.enc.present.map s.enc.entry) a := by
  obtain ⟨b, hb, rfl⟩ := List.mem_map.mp h
  exact matchable_entry ((mem_present_iff_mem_buf hcount).mpr hb)

/-- A session that a stream's header has opened reads the payload: DEC.READ of more slots than the buffer has bytes
emits the buffer, drains the padding and ends with END_OF_STREAM (R178). -/
theorem exec_decRead_payload {r : State} {n room : Nat} {rest : List SrcAnswer} (h : ReadReady r)
    (ho : r.dec.state = .ready) (ht : r.dec.dtab = s.enc.present.map s.enc.entry) (hem : r.dec.emitted = 0#32)
    (hdecl : r.dec.declared = BitVec.ofNat 32 s.enc.buf.length) (hn : r.br.nbits = 0#3) (he : r.br.ended = false)
    (hs : r.env.src =
      (packBits (s.enc.buf.flatMap s.enc.derive.writtenCode)).map .data ++ .exhausted :: rest)
    (hroom : r.env.doutRoom = s.enc.buf.length + room) (hlt : s.enc.buf.length < n) :
    ∃ t, exec (.decRead n) r = .next t ∧ t.running = none ∧ t.ctl.statusCode = 0x01#8 ∧
      t.ctl.result = BitVec.ofNat 32 s.enc.buf.length ∧ t.env.dout = r.env.dout ++ s.enc.buf ∧ t.env.src = rest ∧
      t.dec.state = .drained := by
  obtain ⟨pad, hpad, hshort⟩ := packBits_digits (s.enc.buf.flatMap s.enc.derive.writtenCode)
  have hlen : (s.enc.buf.map s.enc.entry).length = s.enc.buf.length := List.length_map _
  have hcodes : (s.enc.buf.map s.enc.entry).flatMap DtabEntry.code = s.enc.buf.flatMap s.enc.derive.writtenCode :=
    List.flatMap_map ..
  have hsyms : (s.enc.buf.map s.enc.entry).map DtabEntry.sym = s.enc.buf := by
    rw [List.map_map]
    exact List.map_id _
  have hall : r.dec.emitted.toNat + (s.enc.buf.map s.enc.entry).length = r.dec.declared.toNat := by
    rw [hem, hdecl, hlen, BitVec.toNat_ofNat, BitVec.toNat_ofNat,
      Nat.mod_eq_of_lt (hcount.2.trans_lt s.encBufBytes.isLt), Nat.zero_mod, Nat.zero_add]
  have hdigits : r.br.unread ++ (packBits (s.enc.buf.flatMap s.enc.derive.writtenCode)).flatMap byteBits =
      (s.enc.buf.map s.enc.entry).flatMap DtabEntry.code ++ pad := by
    rw [unread_eq_nil.mpr hn, hcodes]
    exact hpad
  refine ⟨_, exec_decRead_toEnd h (by simp [ho]) (fun a ha => ht ▸ matchable_buf hcount ha) hall he hs hdigits hshort
    (hlen ▸ hroom) (hlen ▸ hlt), h.1, rfl, ?result, ?dout, rfl, rfl⟩
  case result => simp only [hlen]
  case dout => simp only [hsyms]

end

/-- DEC.OPEN of a session's stream reads its header and stops before its payload (R178, R191). -/
theorem exec_decOpen_stream {e : Encoder} {r : State} {rest : List SrcAnswer} (hf : r.ctl.fatal = false)
    (hs : r.env.src = e.stream.map .data ++ rest) :
    exec .decOpen r = .next (r.opened (BitVec.ofNat 32 e.buf.length) e.descriptors (e.present.map e.entry)
      ((packBits (e.buf.flatMap e.derive.writtenCode)).map .data ++ rest)) := by
  rw [stream_eq, List.map_append, List.append_assoc] at hs
  exact exec_decOpen_header hf (fun d => fits_of_mem_descriptors) ((length_descriptors_le e).trans_lt (by decide))
    (tableOf_descriptors e) hs

end Sys2Proof.Machine
end

section
/-! SUPPORT. The statements of `44_encoder.md`, settled. -/

namespace Sys2Proof.Machine

/-- Settles O44: a FINALIZE that succeeds has put the whole stream on the sink (`sink_of_exec_encFinalize_ok`); DEC.OPEN
makes a table of its codes, which are prefix-free, and its payload spells the buffer in them. -/
theorem roundTrip : Obligations.RoundTrip := by
  intro s t h hc hp hcount ht hr hok
  refine ⟨s.enc.stream, sink_of_exec_encFinalize_ok h hcount hc hp ht hr hok, fun r n rest hf hs hn hroom => ?_⟩
  obtain ⟨room, hroom⟩ := Nat.exists_eq_add_of_le hroom
  obtain ⟨r2, hread, hends⟩ := exec_decRead_payload (r := r.opened _ _ _ _) hcount ⟨rfl, hf, rfl⟩ rfl rfl rfl rfl rfl
    rfl rfl hroom hn
  exact ⟨_, r2, exec_decOpen_stream hf hs, rfl, rfl, hread, hends⟩

/-- Settles O20: ENC.OPEN is stopped by FATAL alone, and its body clears the session, the writer and WFAIL. -/
theorem encOpenStartsSession : Obligations.EncOpenStartsSession := by
  refine ⟨fun s hf => ?_, fun s hf => ?_⟩
  · show Host.Outcome.next (settle _ (gated _ _ s)) = _
    rw [gated_refuse hf]
    rfl
  · have hg : gate .encOpen s = .proceed := by simp [gate, hf, isOpen]
    show Host.Outcome.next (settle _ (gated _ _ s)) = _
    rw [gated_proceed hg]
    rfl

/-- Settles O21: within the capacity the loop buffers and counts the bytes (`encWriteLoop_buffers`, `foldl_push`);
beyond it they are dropped (`discardDin_of_le`); after a close the gate raises the fault. -/
theorem encWriteAccumulates : Obligations.EncWriteAccumulates := by
  refine ⟨fun n => writeGateEnds_of_runCommand rfl rfl fun _ => rfl, fun s h => ?_⟩
  have hr : s.running = none := h.1
  refine ⟨?fits, ?overflows, ?closed⟩
  case fits =>
    intro bs rest hc hl hd
    rw [exec_encWrite_ready h hc, encWriteBody, if_neg (Nat.not_lt.mpr hl), encWriteLoop_buffers _ hd, foldl_push]
    simp [complete, Status.code, hr]
  case overflows =>
    intro bs rest hc hl hd
    rw [exec_encWrite_ready h hc, encWriteBody, if_pos hl, discardDin_of_le _ (by simp [hd])]
    simp [endWith, State.droppedDin, writeFail, Status.code, hd, hr]
  case closed =>
    intro n hc
    show Host.Outcome.next (settle _ (gated _ _ s)) = _
    rw [gated_encWrite_closed h.2.1 h.2.2 hc]
    simp [raise, Status.code, hr]

/-- Settles O23: the emitted bytes are the stream's (`emits_emitStream`), and ACKs put them all on the sink. -/
theorem finalizeWritesStream : Obligations.FinalizeWritesStream := by
  intro s more h hc hw hcount ha
  rw [exec_encFinalize_ready h hcount hc,
    emitLoop_acked _ (emits_stream s.enc) 0 (s := { s with enc := s.enc.derive }) hw ha, emitDone_eq]
  rw [Nat.zero_add]
  simp [State.streamed, h.1, hw]

/-- Settles O24: a pending digit stops the first byte, a refused byte the run with the bytes before it on the sink
(`emitLoop_refused`), and a closed session the gate. -/
theorem finalizeOtherEnds : Obligations.FinalizeOtherEnds := by
  intro s h hcount
  have hr : s.running = none := h.1
  refine ⟨?misaligned, ?refused, ?closed⟩
  case misaligned =>
    intro hc hn
    rw [exec_encFinalize_misaligned h hcount hc hn]
    simp [raise, Status.code, hr]
  case refused =>
    intro k e more hc hw hk ha
    rw [exec_encFinalize_ready h hcount hc,
      emitLoop_refused _ (emits_stream s.enc) 0 (s := { s with enc := s.enc.derive }) hw hk ha, emitFail_eq]
    simp [State.streamed, hr, hw]
  case closed =>
    intro hc
    obtain ⟨_, hf, hwf⟩ := h
    have hg : gate .encFinalize s = .noOp := by simp [gate, isOpen, sideOf, stateCheck, hf, hwf, hc]
    simp [exec, execEncFinalize, runCommand, gated, hg, complete, Status.code, hr]

/-- Settles O25: the stream that is written has that length (`length_streamBytes`). -/
theorem streamLength : Obligations.StreamLength := by
  rintro s len more h hc hw hcount hlen ha
  have hstream : s.enc.stream.length = len := by rw [hlen, Encoder.stream, length_streamBytes]
  rw [← hstream] at ha ⊢
  exact ⟨_, finalizeWritesStream s more h hc hw hcount ha, rfl, h.1, rfl, List.length_append ..⟩

end Sys2Proof.Machine
end

section
/-! SUPPORT. A source that stops giving bytes, with END or with ERR: what a read then answers, and what is ahead of
the reader before it (`20_memory.md` R67, `41_bit_reader.md` R120, R121). -/

namespace Sys2Proof.Machine

/-- How a source stops giving bytes (R67). -/
inductive Stop where
  | exhausted
  | err (e : Byte)

/-- The answer it gives. -/
def Stop.answer : Stop → SrcAnswer
  | .exhausted => .exhausted
  | .err e => .err e

/-- The failure of a command that still needed a byte (R192, R198). -/
def Stop.failure : Stop → Status
  | .exhausted => .unexpectedEof
  | .err _ => .ioError

/-- What a read reports. -/
def Stop.result {α : Type} : Stop → State → SrcResult α
  | .exhausted, s => .exhausted s
  | .err _, s => .err s

/-- The state after that answer: END is latched in the reader, an error code in IOERR (R67, R120, R121). -/
def State.stopped (x : Stop) (rest : List SrcAnswer) (s : State) : State :=
  match x with
  | .exhausted => { s with env := { s.env with src := rest }, br := { s.br with ended := true } }
  | .err e => { s with env := { s.env with src := rest }, ctl := { s.ctl with ioerrSrc := e } }

theorem Stop.result_inj {α : Type} {x : Stop} {s t : State} (h : (x.result s : SrcResult α) = x.result t) :
    s = t := by
  cases x <;> cases h <;> rfl

theorem Stop.map_result {α : Type} (x : Stop) (f : State → State) (s : State) :
    (x.result s : SrcResult α).map f = x.result (f s) := by
  cases x <;> rfl

theorem leadingBytes_stop (x : Stop) (rest : List SrcAnswer) : leadingBytes (x.answer :: rest) = [] := by
  cases x <;> rfl

section
variable {s : State} {x : Stop} {rest : List SrcAnswer} (hn : s.br.nbits = 0#3) (he : s.br.ended = false)
  (hs : s.env.src = x.answer :: rest)
include hn he hs

theorem readBitInt_stop : readBitInt s = x.result (s.stopped x rest) := by
  cases x with
  | exhausted => exact readBitInt_exhausted hn he hs
  | err e => exact readBitInt_err hn he hs

theorem readRawInt_stop : readRawInt s = .ok (x.result (s.stopped x rest)) := by
  cases x with
  | exhausted => exact readRawInt_exhausted hn he hs
  | err e => exact readRawInt_err hn he hs

end

theorem stopped_took_nil (x : Stop) (ans rest : List SrcAnswer) (s : State) :
    (s.took [] s.br ans).stopped x rest = s.stopped x rest := by
  cases x <;> rfl

/-! ### Bytes ahead -/

theorem length_flatMap_byteBits (bytes : List Byte) : (bytes.flatMap byteBits).length = 8 * bytes.length := by
  simp [List.length_flatMap, Nat.mul_comm]

/-- The digits ahead of a reader whose source is about to give some bytes. -/
theorem ahead_of_bytes {s : State} {bytes : List Byte} {rest : List SrcAnswer} (he : s.br.ended = false ∨ bytes = [])
    (hs : s.env.src = bytes.map .data ++ rest) :
    s.ahead = (s.br.unread ++ bytes.flatMap byteBits) ++
      if s.br.ended then [] else (leadingBytes rest).flatMap byteBits := by
  obtain he | rfl := he
  · simp [State.ahead, he, hs, leadingBytes_append]
  · obtain rfl : s.env.src = rest := hs
    simp [State.ahead]

section
variable (x : Stop) {s : State} {bytes : List Byte} {c : Bits} {rest : List SrcAnswer} (he : s.br.ended = false)
  (hs : s.env.src = bytes.map .data ++ x.answer :: rest) (hd : s.br.unread ++ bytes.flatMap byteBits = c)
include he hs hd

theorem ahead_of_stop : s.ahead = c := by
  rw [ahead_of_bytes (.inl he) hs, leadingBytes_stop, hd]
  simp

/-- Once the digits of its bytes have been read, a source that stops after them does so, the reader at the last. -/
theorem readBitInt_iterate_stop : readBitInt (State.digitRead^[c.length] s) =
    x.result ((s.took bytes (s.br.atField bytes) (x.answer :: rest)).stopped x rest) := by
  rw [iterate_digitRead (more := []) (.inl he) hs (hd.trans (List.append_nil _).symm) (by decide)]
  exact readBitInt_stop rfl he rfl

end

end Sys2Proof.Machine
end

section
/-! SUPPORT. DEC.OPEN of a header that is cut short or overflows the table: the state it has come to in the header,
and how it ends there (`45_decoder.md` R191 to R193, R198). -/

namespace Sys2Proof.Machine

/-! ### Reads that stop -/

section
variable {s : State} {x : Stop} {rest : List SrcAnswer} (cmd : Word) (hn : s.br.nbits = 0#3) (he : s.br.ended = false)
include hn he

theorem headerByte_stop (stalled : Wait) (next : Byte → State → Run) (hs : s.env.src = x.answer :: rest) :
    headerByte cmd stalled next s = .done (readFail x.failure 0#32 (s.stopped x rest)) := by
  rw [headerByte, readRawInt_stop hn he hs]
  cases x <;> rfl

/-- A header integer of which only the bytes `bs` are there (R192). -/
theorem headerWord_stop {bs : List Byte} {need : Nat} (stalled : List Byte → Wait) (next : Word → State → Run)
    (got : List Byte) (hlt : bs.length < need) (hs : s.env.src = bs.map .data ++ x.answer :: rest) :
    headerWord cmd stalled next need got s =
      .done (readFail x.failure 0#32 ((s.took bs s.br (x.answer :: rest)).stopped x rest)) := by
  obtain ⟨need, rfl⟩ := Nat.exists_eq_add_of_le' (Nat.zero_lt_of_lt hlt)
  induction bs generalizing need got s with
  | nil =>
    rw [headerWord, headerByte_stop cmd hn he _ _ hs, stopped_took_nil]
  | cons b bs ih =>
    obtain ⟨need, rfl⟩ := Nat.exists_eq_add_of_le' (Nat.zero_lt_of_lt (Nat.lt_of_succ_lt_succ hlt))
    rw [headerWord, headerByte_data (rest := bs.map .data ++ x.answer :: rest) cmd hn he _ _ (by exact hs),
      ih (s := s.took [b] s.br _) hn he _ rfl _ (Nat.lt_of_succ_lt_succ hlt), took_took]
    rfl

end

/-- A descriptor whose code bits are not all there (R193). -/
theorem descBits_stop (next : State → Run) (left : Nat) (sym : Byte) {c : Bits} {more : Nat} (got : Bits)
    {s t : State} {x : Stop} (hlt : c.length < more) (ha : s.ahead = c)
    (hstop : readBitInt (State.digitRead^[c.length] s) = x.result t) :
    descBits next left sym more got s = .done (readFail x.failure 0#32 t) := by
  induction c generalizing more got s with
  | nil =>
    obtain ⟨more, rfl⟩ := Nat.exists_eq_add_of_le' (Nat.zero_lt_of_lt hlt)
    rw [descBits, show readBitInt s = x.result t from hstop]
    cases x <;> rfl
  | cons v c ih =>
    obtain ⟨more, rfl⟩ := Nat.exists_eq_add_of_le' (Nat.zero_lt_of_lt hlt)
    obtain ⟨hr, hmore⟩ := readBitInt_of_ahead ha
    rw [descBits, hr]
    exact ih _ (Nat.lt_of_succ_lt_succ hlt) hmore hstop

/-- A descriptor of which only the bytes `part` are there (R192, R193). -/
theorem descLoop_stop (cmd : Word) (left : Nat) {s : State} {d : Descriptor} {part : List Byte} {x : Stop}
    {rest : List SrcAnswer} (hn : s.br.nbits = 0#3) (he : s.br.ended = false) (hd : d.fits) (hp : part <+: d.bytes)
    (hne : part ≠ d.bytes) (hs : s.env.src = part.map .data ++ x.answer :: rest) :
    descLoop cmd (left + 1) s = .done (readFail x.failure 0#32
      ((s.took part (s.br.atField (part.drop 2)) (x.answer :: rest)).stopped x rest)) := by
  have haligned (r : BitReader) (h : r.nbits = 0#3) : r.atField [] = r := by simp [BitReader.atField, ← h]
  rw [descLoop]
  match part, hp with
  | [], _ =>
    rw [headerByte_stop cmd hn he _ _ hs, List.drop_nil, haligned _ hn, stopped_took_nil]
  | [a], _ =>
    rw [headerByte_data cmd hn he _ _ hs, descLength,
      headerByte_stop (x := x) (rest := rest) cmd (by exact hn) (by exact he) _ _ (by rfl),
      List.drop_of_length_le (by simp), haligned _ hn]
    rfl
  | a :: b :: field, hp =>
    obtain ⟨rfl, rfl, hfield⟩ : a = d.sym ∧ b = d.len ∧ field <+: d.field := by simpa [Descriptor.bytes] using hp
    have hshort : (field.flatMap byteBits).length < d.len.toNat := by
      have hlt : field.length < d.field.length :=
        hfield.length_le.lt_of_ne fun hl => hne (by rw [hfield.eq_of_length hl]; rfl)
      have hlen : d.field.length = (d.len.toNat + 7) / 8 := hd
      rw [length_flatMap_byteBits]
      omega
    have hdigits : s.br.unread ++ field.flatMap byteBits = field.flatMap byteBits := by
      rw [unread_eq_nil.mpr hn, List.nil_append]
    rw [headerByte_data cmd hn he _ _ hs, descLength,
      headerByte_data cmd (by exact hn) (by exact he) _ _ (by rfl), took_took]
    refine (descBits_stop (s := s.took [d.sym, d.len] s.br (field.map .data ++ x.answer :: rest)) _ _ _ _ hshort
      (ahead_of_stop x he rfl hdigits) (readBitInt_iterate_stop x he rfl hdigits)).trans ?_
    rw [took_took]
    rfl

/-- A code without room in the table fails, the reader realigned (R193). -/
theorem descInsert_of_none (next : State → Run) {sym : Byte} {code : Bits} {s : State}
    (h : dtabInsert code sym s.dec.dtab = none) :
    descInsert next sym code s =
      .done (readFail .tableOverflow 0#32 { s with br := { s.br with nbits := 0#3 } }) := by
  simp only [descInsert, resetAlignInt, h]

/-! ### The state in the header -/

/-- The state in which DEC.OPEN has read the bytes `taken` of a header (R191, R193). -/
def State.inHeader (taken : List Byte) (declared alpha : Word) (table : List DtabEntry) (last : Byte)
    (rest : List SrcAnswer) (s : State) : State :=
  clearReadFail { s with
    br := { byte := last, nbits := 0#3, ended := false }
    dec := {
      state := .unopened, declared := declared, alpha := alpha, emitted := 0#32, dtab := table, cand := s.dec.cand }
    env := { s.env with src := rest, srcTaken := s.env.srcTaken + taken.length } }

section
variable {s : State} {rest : List SrcAnswer} (cmd : Word) {count : Word}

/-- DEC.OPEN past the original byte count (R191). -/
theorem decOpenBody_count (hs : s.env.src = (le32Bytes count).map .data ++ rest) :
    decOpenBody cmd s = headerWord cmd .headerAlpha (alphaKnown cmd) 4 []
      (s.inHeader (le32Bytes count) count 0#32 [] 0#8 rest) := by
  rw [decOpenBody, headerWord_le32Bytes (s := freshSession s) _ rfl rfl _ _ _ hs]
  rfl

/-- DEC.OPEN past both counts and some descriptors (R191, R193). -/
theorem decOpenBody_descriptors {alpha : Word} {descs : List Descriptor} {table : List DtabEntry} {left : Nat}
    (hl : alpha.toNat = descs.length + left) (hd : ∀ d ∈ descs, d.fits) (ht : tableOf descs = some table)
    (hs : s.env.src =
      (le32Bytes count ++ le32Bytes alpha ++ descs.flatMap Descriptor.bytes).map .data ++ rest) :
    decOpenBody cmd s = descLoop cmd left (s.inHeader
      (le32Bytes count ++ le32Bytes alpha ++ descs.flatMap Descriptor.bytes) count alpha table (lastCodeByte descs)
      rest) := by
  simp only [List.map_append, List.append_assoc] at hs
  rw [decOpenBody_count cmd hs, headerWord_le32Bytes _ (by rfl) (by rfl) _ _ _ (by rfl), alphaKnown, hl,
    descLoop_descriptors (table := table) (rest := rest) _ left (by rfl) (by rfl) hd (by exact ht) (by rfl)]
  simp [State.inHeader, State.withTable, State.took, clearReadFail, BitReader.atField, lastCodeByte, Nat.add_assoc]

end

/-- DEC.OPEN of a header that is cut fails where the source stops (R192, R193, R198). -/
theorem decOpenBody_cut (cmd : Word) {s : State} {taken : List Byte} {declared alpha : Word} {table : List DtabEntry}
    {last : Byte} {x : Stop} {rest : List SrcAnswer} (h : HeaderCut taken declared alpha table last)
    (hs : s.env.src = taken.map .data ++ x.answer :: rest) :
    decOpenBody cmd s = .done (readFail x.failure 0#32
      ((s.inHeader taken declared alpha table last (x.answer :: rest)).stopped x rest)) := by
  cases h with
  | inCount got hlt =>
    rw [decOpenBody, headerWord_stop (s := freshSession s) _ rfl rfl _ _ _ hlt hs]
    rfl
  | inAlpha count got hlt =>
    rw [List.map_append, List.append_assoc] at hs
    rw [decOpenBody_count cmd hs, headerWord_stop (x := x) (rest := rest) _ (by rfl) (by rfl) _ _ _ hlt (by rfl)]
    simp [State.inHeader, State.took, clearReadFail, Nat.add_assoc]
  | inDescriptor count alpha pre d part table hpre hd hl ht hp hne =>
    obtain ⟨left, hl⟩ := Nat.exists_eq_add_of_lt hl
    rw [List.map_append, List.append_assoc] at hs
    rw [decOpenBody_descriptors (left := left + 1) cmd hl hpre ht hs,
      descLoop_stop cmd left (x := x) (rest := rest) (by rfl) (by rfl) hd hp hne (by rfl)]
    simp [State.inHeader, State.took, clearReadFail, BitReader.atField, lastCodeByte, Nat.add_assoc]

/-- DEC.OPEN of a descriptor whose code has no room in the table, the reader realigned after it (R193). -/
theorem decOpenBody_overflow (cmd : Word) {s : State} {count alpha : Word} {pre : List Descriptor} {d : Descriptor}
    {table : List DtabEntry} {rest : List SrcAnswer} (hpre : ∀ x ∈ pre, x.fits) (hd : d.fits)
    (hl : pre.length < alpha.toNat) (ht : tableOf pre = some table) (hfull : dtabInsert d.code d.sym table = none)
    (hs : s.env.src =
      (le32Bytes count ++ le32Bytes alpha ++ (pre ++ [d]).flatMap Descriptor.bytes).map .data ++ rest) :
    decOpenBody cmd s = .done (readFail .tableOverflow 0#32 (s.inHeader
      (le32Bytes count ++ le32Bytes alpha ++ (pre ++ [d]).flatMap Descriptor.bytes) count alpha table
      (lastCodeByte (pre ++ [d])) rest)) := by
  obtain ⟨left, hl⟩ := Nat.exists_eq_add_of_lt hl
  rw [List.flatMap_append, List.flatMap_singleton, ← List.append_assoc, List.map_append, List.append_assoc] at hs
  rw [decOpenBody_descriptors (left := left + 1) cmd hl hpre ht hs,
    descLoop_descriptor (rest := rest) cmd left (by rfl) (by rfl) hd (by rfl), descInsert_of_none _ (by exact hfull)]
  simp [State.inHeader, State.took, clearReadFail, BitReader.atField, lastCodeByte, Nat.add_assoc]

/-! ### Every cut -/

/-- A part of a list's images in a row, not all of them, ends inside the image of one of its elements. -/
theorem isPrefix_flatMap_split {α β : Type} {f : α → List β} {l : List α} {p : List β} (h : p <+: l.flatMap f)
    (hne : p ≠ l.flatMap f) :
    ∃ pre a post part, l = pre ++ a :: post ∧ p = pre.flatMap f ++ part ∧ part <+: f a ∧ part ≠ f a := by
  induction l generalizing p with
  | nil => exact absurd (List.prefix_nil.mp h) hne
  | cons a l ih =>
    rw [List.flatMap_cons] at h hne
    by_cases hp : f a <+: p
    · obtain ⟨q, rfl⟩ := hp
      obtain ⟨pre, b, post, part, rfl, rfl, hpart⟩ :=
        ih ((List.prefix_append_right_inj _).mp h) fun hq => hne (by rw [hq])
      exact ⟨a :: pre, b, post, part, rfl, by simp, hpart⟩
    · refine ⟨[], a, l, p, rfl, rfl, ?_, fun heq => hp (heq ▸ List.prefix_rfl)⟩
      exact (List.prefix_or_prefix_of_prefix h (List.prefix_append ..)).resolve_right hp

/-- A part of two lists in a row, not all of them, is a part of the first, or the first and a part of the second. -/
theorem isPrefix_append_split {α : Type} {a b p : List α} (h : p <+: a ++ b) (hne : p ≠ a ++ b) :
    (p <+: a ∧ p.length < a.length) ∨ ∃ q, p = a ++ q ∧ q <+: b ∧ q ≠ b := by
  by_cases hl : p.length < a.length
  · exact .inl ⟨List.prefix_of_prefix_length_le h (List.prefix_append a b) hl.le, hl⟩
  · obtain ⟨q, rfl⟩ := List.prefix_of_prefix_length_le (List.prefix_append a b) h (Nat.le_of_not_lt hl)
    exact .inr ⟨q, rfl, (List.prefix_append_right_inj _).mp h, fun hq => hne (by rw [hq])⟩

/-- A header that parses can be cut anywhere (R192, R193). -/
theorem headerCut_of_isPrefix {count : Word} {descs : List Descriptor} {table : List DtabEntry} {taken : List Byte}
    (hd : ∀ d ∈ descs, d.fits) (hl : descs.length < 2 ^ 32) (ht : tableOf descs = some table)
    (hp : taken <+: headerBytes count descs) (hne : taken ≠ headerBytes count descs) :
    ∃ declared alpha read last, HeaderCut taken declared alpha read last := by
  rw [headerBytes, List.append_assoc] at hp hne
  obtain ⟨_, hshort⟩ | ⟨got, rfl, hp, hne⟩ := isPrefix_append_split hp hne
  · exact ⟨_, _, _, _, .inCount taken hshort⟩
  obtain ⟨_, hshort⟩ | ⟨got, rfl, hp, hne⟩ := isPrefix_append_split hp hne
  · exact ⟨_, _, _, _, .inAlpha count got hshort⟩
  obtain ⟨pre, d, post, part, rfl, rfl, hpart, hpne⟩ := isPrefix_flatMap_split hp hne
  rw [tableOf, List.foldlM_append, Option.bind_eq_bind, Option.bind_eq_some_iff] at ht
  obtain ⟨read, hread, _⟩ := ht
  have hlen : pre.length < (BitVec.ofNat 32 (pre ++ d :: post).length).toNat := by
    rw [BitVec.toNat_ofNat, Nat.mod_eq_of_lt hl, List.length_append, List.length_cons]
    omega
  have hcut := HeaderCut.inDescriptor count _ pre d part read (fun x hx => hd x (List.mem_append_left _ hx))
    (hd d (by simp)) hlen hread hpart hpne
  rw [List.append_assoc, List.append_assoc] at hcut
  exact ⟨_, _, _, _, hcut⟩

/-! ### The command -/

/-- DEC.OPEN of a header that is cut: how it ends, for either way a source can stop (R192, R193, R198). -/
theorem exec_decOpen_cut {s : State} {taken : List Byte} {declared alpha : Word} {table : List DtabEntry}
    {last : Byte} {x : Stop} {rest : List SrcAnswer} (hf : s.ctl.fatal = false)
    (h : HeaderCut taken declared alpha table last)
    (hs : s.env.src = taken.map .data ++ x.answer :: rest) :
    exec .decOpen s = .next { readFail x.failure 0#32
      ((s.inHeader taken declared alpha table last (x.answer :: rest)).stopped x rest) with running := none } := by
  rw [exec_decOpen_of_not_fatal hf, decOpenBody_cut _ h hs, settle_done]

end Sys2Proof.Machine
end

section
/-! SUPPORT. DEC.READ up to the place where the source stops: inside a code, or in Drain (`45_decoder.md` R194 to
R199). -/

namespace Sys2Proof.Machine

/-! ### Reads beside another rest of the state -/

/-- The state with what a read of a digit can change: the reader, the source and IOERR's source byte (R67, R120). -/
def State.afterRead (r : BitReader) (src : List SrcAnswer) (taken : Nat) (e : Byte) (s : State) : State :=
  { s with br := r, env := { s.env with src := src, srcTaken := taken }, ctl := { s.ctl with ioerrSrc := e } }

/-- A change of the state that leaves alone what a read changes commutes with the read (R120). -/
theorem readBitInt_map {g : State → State}
    (hg : ∀ r src taken e s, g (s.afterRead r src taken e) = (g s).afterRead r src taken e) (s : State) :
    readBitInt (g s) = (readBitInt s).map g := by
  have hsame : g s = (g s).afterRead s.br s.env.src s.env.srcTaken s.ctl.ioerrSrc := hg ..
  rw [hsame]
  obtain ⟨hn, hr⟩ | ⟨hn, he, hr⟩ | ⟨hn, he, hs, hr⟩ | ⟨hn, he, b, rest, hs, hr⟩ | ⟨hn, he, rest, hs, hr⟩ |
    ⟨hn, he, e, rest, hs, hr⟩ := readBitInt_cases s <;> rw [hr]
  · rw [readBitInt_unread (by exact hn)]
    exact congrArg _ (hg _ s.env.src s.env.srcTaken s.ctl.ioerrSrc s).symm
  · rw [readBitInt_ended (by exact hn) (by exact he)]
    exact congrArg _ hsame.symm
  · rw [readBitInt_wait (by exact hn) (by exact he) (by exact hs)]
    exact congrArg _ hsame.symm
  · rw [readBitInt_data (by exact hn) (by exact he) (by exact hs)]
    exact congrArg _ (hg _ rest (s.env.srcTaken + 1) s.ctl.ioerrSrc s).symm
  · rw [readBitInt_exhausted (by exact hn) (by exact he) (by exact hs)]
    exact congrArg _ (hg _ rest s.env.srcTaken s.ctl.ioerrSrc s).symm
  · rw [readBitInt_err (by exact hn) (by exact he) (by exact hs)]
    exact congrArg _ (hg s.br rest s.env.srcTaken e s).symm

theorem readBitInt_withOut (d : Decoder) (dout : List Byte) (room : Nat) (s : State) :
    readBitInt (s.withOut d dout room) = (readBitInt s).map (·.withOut d dout room) :=
  readBitInt_map (fun _ _ _ _ _ => rfl) s

/-- A source stops at the same place whatever the decode session. -/
theorem readBitInt_iterate_withOut {n : Nat} {s t : State} {x : Stop} (d : Decoder) (dout : List Byte) (room : Nat)
    (h : readBitInt (State.digitRead^[n] s) = x.result t) :
    readBitInt (State.digitRead^[n] (s.withOut d dout room)) = x.result (t.withOut d dout room) := by
  rw [iterate_digitRead_withOut, readBitInt_withOut, h, Stop.map_result]

/-! ### A code that is not found -/

/-- Digits appended to a candidate follow its own, unless it saturates (R196). -/
theorem foldl_candAppend (c d : Bits) :
    d.foldl candAppend (.bits c) = .bits (c ++ d) ∨ d.foldl candAppend (.bits c) = .saturated := by
  have hsaturated (d : Bits) : d.foldl candAppend .saturated = .saturated := List.foldl_fixed' (fun _ => rfl) d
  induction d generalizing c with
  | nil => exact .inl (by rw [List.append_nil]; rfl)
  | cons x d ih =>
    rw [List.foldl_cons, candAppend]
    split
    · simpa using ih (c ++ [x])
    · exact .inr (hsaturated d)

/-- No candidate made of digits that no code begins is found (R160, R196). -/
theorem dtabLookup_foldl_candAppend {table : List DtabEntry} {d : Bits} (h : ∀ e ∈ table, ¬ e.code <+: d) :
    dtabLookup (d.foldl candAppend (.bits [])) table = none := by
  obtain hc | hc := foldl_candAppend [] d <;> rw [hc]
  · exact dtabLookup_none fun e he hcode => h e he (hcode ▸ List.prefix_rfl)
  · rfl

/-- The match loop reads on while no candidate is found, up to where the source stops (R195, R198). -/
theorem matchSymbol_stop {c : Bits} {s t : State} {x : Stop} (ha : s.ahead = c)
    (hmiss : ∀ d, d <+: c → dtabLookup (d.foldl candAppend s.dec.cand) s.dec.dtab = none)
    (hstop : readBitInt (State.digitRead^[c.length] s) = x.result t) :
    matchSymbol s =
      x.result (t.withOut { s.dec with cand := c.foldl candAppend s.dec.cand } s.env.dout s.env.doutRoom) := by
  induction c generalizing s t with
  | nil =>
    have hsame : t.withOut s.dec s.env.dout s.env.doutRoom = t := by
      have hread := readBitInt_withOut s.dec s.env.dout s.env.doutRoom s
      rw [show readBitInt s = x.result t from hstop, Stop.map_result] at hread
      exact (Stop.result_inj (hstop.symm.trans hread)).symm
    rw [matchSymbol_eq, show dtabLookup s.dec.cand s.dec.dtab = none from hmiss [] List.prefix_rfl,
      show readBitInt s = x.result t from hstop, List.foldl_nil, hsame]
    cases x <;> rfl
  | cons v c ih =>
    obtain ⟨hr, hmore⟩ := readBitInt_of_ahead ha
    rw [matchSymbol_eq, show dtabLookup s.dec.cand s.dec.dtab = none from hmiss [] List.nil_prefix, hr]
    simp only
    rw [digitRead_eq_withOut s]
    refine (ih (s := s.digitRead.withOut { s.dec with cand := candAppend s.dec.cand v } s.env.dout s.env.doutRoom)
      (t := t.withOut { s.dec with cand := candAppend s.dec.cand v } s.env.dout s.env.doutRoom)
      hmore (fun d hd => hmiss (v :: d) ?_) ?_).trans rfl
    · exact List.cons_prefix_cons.mpr ⟨rfl, hd⟩
    · exact readBitInt_iterate_withOut _ _ _ hstop

/-- A table that holds to R159 has no code too long for a candidate. -/
theorem matchable_of_sound {d : Decoder} (h : d.Sound) {e : DtabEntry} (he : e ∈ d.dtab ∧ matchedFirst d.dtab e) :
    Matchable d.dtab e :=
  ⟨he.1, he.2, h.short e he.1⟩

/-! ### Symbols, then the end of the source -/

section
variable {s t : State} {out : List DtabEntry} {left : Bits} {room n : Nat} {x : Stop}

/-- DEC.READ fails where the source stops before a code is found (R195, R198). -/
theorem decReadLoop_miss (k : Nat) (hne : s.dec.emitted ≠ s.dec.declared) (ha : s.ahead = left)
    (hmiss : ∀ e ∈ s.dec.dtab, ¬ e.code <+: left)
    (hstop : readBitInt (State.digitRead^[left.length] s) = x.result t) :
    decReadLoop (n + 1) k s = .done (readFail x.failure (BitVec.ofNat 32 k) (t.withOut
      { s.dec with cand := left.foldl candAppend (.bits []) } s.env.dout s.env.doutRoom)) := by
  rw [decReadLoop, if_neg hne, matchSymbol_stop (s := clearCandidate s) ha
    (fun d hd => dtabLookup_foldl_candAppend fun e he hp => hmiss e he (hp.trans hd))
    (readBitInt_iterate_withOut { s.dec with cand := .bits [] } s.env.dout s.env.doutRoom hstop)]
  cases x <;> rfl

/-- DEC.READ emits the symbols whose codes are ahead and fails where the source stops inside the next (R194, R198). -/
theorem decReadLoop_stop (hout : ∀ e ∈ out, Matchable s.dec.dtab e) (hmiss : ∀ e ∈ s.dec.dtab, ¬ e.code <+: left)
    (hlt : s.dec.emitted.toNat + out.length < s.dec.declared.toNat) (hn : out.length < n)
    (ha : s.ahead = out.flatMap DtabEntry.code ++ left) (hr : s.env.doutRoom = out.length + room)
    (hstop : readBitInt (State.digitRead^[(out.flatMap DtabEntry.code ++ left).length] s) = x.result t) :
    decReadLoop n 0 s = .done (readFail x.failure (BitVec.ofNat 32 out.length) (t.withOut
      { s.dec with
        emitted := s.dec.emitted + BitVec.ofNat 32 out.length, cand := left.foldl candAppend (.bits []) }
      (s.env.dout ++ out.map DtabEntry.sym) room)) := by
  obtain ⟨k, rfl⟩ := Nat.exists_eq_add_of_lt hn
  have hne : s.dec.emitted + BitVec.ofNat 32 out.length ≠ s.dec.declared := by
    intro heq
    have hsum := congrArg BitVec.toNat heq
    have hfits := s.dec.declared.isLt
    rw [BitVec.toNat_add, BitVec.toNat_ofNat, Nat.mod_eq_of_lt (a := out.length) (by omega),
      Nat.mod_eq_of_lt (by omega)] at hsum
    omega
  rw [List.length_append, Nat.add_comm, Function.iterate_add_apply] at hstop
  rw [Nat.add_assoc, decReadLoop_decoded _ 0 hout hlt.le ha hr, decReadLoop_miss (s := s.decoded out room) _ hne
    (ahead_iterate_digitRead ha) hmiss (readBitInt_iterate_withOut _ _ room hstop), Nat.zero_add]
  rfl

/-- DEC.READ emits the symbols before the place where the source stops and fails there (R194, R198). -/
theorem exec_decRead_stop (h : ReadReady s) (ho : s.dec.state ≠ .unopened) (hout : ∀ e ∈ out, Matchable s.dec.dtab e)
    (hmiss : ∀ e ∈ s.dec.dtab, ¬ e.code <+: left)
    (hlt : s.dec.emitted.toNat + out.length < s.dec.declared.toNat) (hn : out.length < n)
    (hr : s.env.doutRoom = out.length + room) (ha : s.ahead = out.flatMap DtabEntry.code ++ left)
    (hstop : readBitInt (State.digitRead^[(out.flatMap DtabEntry.code ++ left).length] s) = x.result t) :
    exec (.decRead n) s = .next { readFail x.failure (BitVec.ofNat 32 out.length) (t.withOut
      { s.dec with
        emitted := s.dec.emitted + BitVec.ofNat 32 out.length, cand := left.foldl candAppend (.bits []) }
      (s.env.dout ++ out.map DtabEntry.sym) room) with running := none } := by
  rw [exec_decRead_ready h ho, decReadLoop_stop hout hmiss hlt hn ha hr hstop, settle_done]

end

/-! ### A reader that has seen END -/

section
variable {s : State} {c : Bits} (he : s.br.ended = true) (hc : s.br.unread = c)
include he hc

theorem ahead_of_ended : s.ahead = c := by
  simp [State.ahead, he, hc]

/-- A reader that has seen END stops after its unread digits, without asking the source (R120). -/
theorem readBitInt_iterate_ended :
    readBitInt (State.digitRead^[c.length] s) =
      Stop.exhausted.result (s.took [] { s.br with nbits := 0#3 } s.env.src) := by
  rw [iterate_digitRead (bytes := []) (more := []) (.inr rfl) rfl (by simp [hc]) (by decide)]
  exact readBitInt_ended rfl he

end

/-! ### Drain -/

/-- Drain reads the digits ahead and reports where the source stops (R197). -/
theorem drainAll_stop {s t : State} {c : Bits} {x : Stop} (ha : s.ahead = c)
    (hstop : readBitInt (State.digitRead^[c.length] s) = x.result t) : drainAll s = x.result t := by
  rw [drainAll_of_ahead (ha.trans (List.append_nil _).symm), drainAll_eq, hstop]
  cases x <;> rfl

/-- With every declared byte emitted DEC.READ drains the source (R194). -/
theorem exec_decRead_drains {s : State} (h : ReadReady s) (ho : s.dec.state ≠ .unopened)
    (hall : s.dec.emitted = s.dec.declared) {n : Nat} (hn : 0 < n) :
    exec (.decRead n) s = .next (settle (encode (.decRead n)) (drainBody 0 s)) := by
  obtain ⟨n, rfl⟩ := Nat.exists_eq_add_of_le' hn
  rw [exec_decRead_ready h ho, decReadLoop, if_pos hall]

end Sys2Proof.Machine
end

section
/-! SUPPORT. A DEC.READ after another: it goes on where the one before it stopped, and what that one left in RESULT
and the status code has no part in it (`45_decoder.md` R194). -/

namespace Sys2Proof.Machine

/-! ### Slots filled -/

theorem success_drainBody (k : Nat) (s : State) : (drainBody k s).success = none := by
  rw [drainBody]
  cases drainLoop (readFuel s) s with
  | got v t => exact v.elim
  | exhausted t => rfl
  | err t => rfl
  | wait t => rfl

/-- A digit taken moves the reader and the source only (R120). -/
theorem readBitInt_got {s t : State} {x : Bool} (h : readBitInt s = .got x t) : t.ctl = s.ctl ∧ t.dec = s.dec := by
  obtain ⟨_, hr⟩ | ⟨_, _, hr⟩ | ⟨_, _, _, hr⟩ | ⟨_, _, _, _, _, hr⟩ | ⟨_, _, _, _, hr⟩ | ⟨_, _, _, _, _, hr⟩ :=
    readBitInt_cases s <;> rw [hr] at h <;> cases h <;> exact ⟨rfl, rfl⟩

/-- A symbol matched leaves the control registers and the session's state as they were (R195). -/
theorem matchLoop_got {fuel : Nat} {s t : State} {sym : Byte} (h : matchLoop fuel s = .got sym t) :
    t.ctl = s.ctl ∧ t.dec.state = s.dec.state := by
  induction fuel generalizing s with
  | zero => cases h
  | succ fuel ih =>
    rw [matchLoop] at h
    cases hl : dtabLookup s.dec.cand s.dec.dtab with
    | some _ =>
      rw [hl] at h
      cases h
      exact ⟨rfl, rfl⟩
    | none =>
      simp only [hl] at h
      cases hb : readBitInt s with
      | got x u =>
        rw [hb] at h
        obtain ⟨hctl, hdec⟩ := readBitInt_got hb
        obtain ⟨ihctl, ihstate⟩ := ih h
        exact ⟨ihctl.trans hctl, ihstate.trans (by rw [hdec])⟩
      | exhausted u => rw [hb] at h; cases h
      | err u => rw [hb] at h; cases h
      | wait u => rw [hb] at h; cases h

/-- A DEC.READ of `m` slots that ends with code 0x00 has filled them, and one of more slots goes on from there
(R194). -/
theorem decReadLoop_filled (n : Nat) {m k : Nat} {s t : State} (h : (decReadLoop m k s).success = some t) :
    ∃ u, t = complete Status.ok.code (BitVec.ofNat 32 (k + m)) u ∧
      decReadLoop (m + n) k s = decReadLoop n (k + m) u ∧ u.ctl = s.ctl ∧ u.dec.state = s.dec.state := by
  induction m generalizing k s with
  | zero =>
    rw [Nat.zero_add, Nat.add_zero]
    exact ⟨s, (Option.some.inj h).symm, rfl, rfl, rfl⟩
  | succ m ih =>
    rw [Nat.add_right_comm m, decReadLoop]
    rw [decReadLoop] at h
    by_cases hall : s.dec.emitted = s.dec.declared
    · rw [if_pos hall, success_drainBody] at h
      cases h
    rw [if_neg hall] at h ⊢
    cases hm : matchSymbol (clearCandidate s) with
    | exhausted u => rw [hm] at h; cases h
    | err u => rw [hm] at h; cases h
    | wait u => rw [hm] at h; cases h
    | got sym u =>
      obtain ⟨hctl, hstate⟩ := matchLoop_got hm
      simp only [hm, matchAfter, emitSymbol] at h ⊢
      cases hd : doutWrite sym u with
      | none => rw [hd] at h; cases h
      | some v =>
        obtain ⟨room, _, rfl⟩ := doutWrite_some.mp hd
        rw [hd] at h
        obtain ⟨w, rfl, hloop, hwctl, hwstate⟩ := ih h
        rw [Nat.add_right_comm k 1 m] at hloop ⊢
        exact ⟨w, rfl, hloop, hwctl.trans hctl, hwstate.trans hstate⟩

/-! ### The end of an earlier command -/

theorem readBitInt_succeeded (r : Nat) (s : State) :
    readBitInt (s.succeeded r) = (readBitInt s).map (·.succeeded r) :=
  readBitInt_map (fun _ _ _ _ _ => rfl) s

theorem matchLoop_succeeded (r fuel : Nat) (s : State) :
    matchLoop fuel (s.succeeded r) = (matchLoop fuel s).map (·.succeeded r) := by
  induction fuel generalizing s with
  | zero => rfl
  | succ fuel ih =>
    have hdec : (s.succeeded r).dec = s.dec := rfl
    rw [matchLoop, matchLoop, hdec, readBitInt_succeeded]
    cases dtabLookup s.dec.cand s.dec.dtab with
    | some sym => rfl
    | none =>
      cases readBitInt s with
      | got x t => exact ih { t with dec := { t.dec with cand := candAppend t.dec.cand x } }
      | exhausted t => rfl
      | err t => rfl
      | wait t => rfl

theorem drainLoop_succeeded (r fuel : Nat) (s : State) :
    drainLoop fuel (s.succeeded r) = (drainLoop fuel s).map (·.succeeded r) := by
  induction fuel generalizing s with
  | zero => rfl
  | succ fuel ih =>
    rw [drainLoop, drainLoop, readBitInt_succeeded]
    cases readBitInt s with
    | got x t => exact ih t
    | exhausted t => rfl
    | err t => rfl
    | wait t => rfl

theorem doutWrite_succeeded (r : Nat) (b : Byte) (s : State) :
    doutWrite b (s.succeeded r) = (doutWrite b s).map (·.succeeded r) := by
  cases h : doutWrite b s with
  | none => exact doutWrite_none.mpr (doutWrite_none.mp h :)
  | some t =>
    obtain ⟨room, hroom, rfl⟩ := doutWrite_some.mp h
    exact doutWrite_some.mpr ⟨room, hroom, rfl⟩

/-- The end of a run with `m` more in RESULT, BUSY clear. -/
def State.counting (m : Nat) (s : State) : State :=
  { s with running := none, ctl := { s.ctl with result := s.ctl.result + BitVec.ofNat 32 m } }

section
variable (m k : Nat)

theorem complete_counting (c : Byte) (s : State) :
    { complete c (BitVec.ofNat 32 (k + m)) s with running := none } =
      (complete c (BitVec.ofNat 32 k) (s.succeeded m)).counting m := by
  simp [State.counting, State.succeeded, complete, BitVec.ofNat_add]

theorem readFail_counting (f : Status) (s : State) :
    { readFail f (BitVec.ofNat 32 (k + m)) s with running := none } =
      (readFail f (BitVec.ofNat 32 k) (s.succeeded m)).counting m := by
  simp [State.counting, State.succeeded, complete, readFail, BitVec.ofNat_add]

/-- Drain after `m` slots that an earlier DEC.READ has filled (R194, R197). -/
theorem drainBody_succeeded {s v : State} (h : drainBody k (s.succeeded m) = .done v) :
    ∃ w, drainBody (k + m) s = .done w ∧ { w with running := none } = v.counting m := by
  have hfuel : readFuel (s.succeeded m) = readFuel s := rfl
  rw [drainBody, hfuel, drainLoop_succeeded] at h
  rw [drainBody]
  cases hd : drainLoop (readFuel s) s with
  | got x t => exact x.elim
  | exhausted t => rw [hd] at h; cases h; exact ⟨_, rfl, complete_counting m k _ _⟩
  | err t => rw [hd] at h; cases h; exact ⟨_, rfl, readFail_counting m k _ _⟩
  | wait t => rw [hd] at h; cases h

end

/-- A DEC.READ after `m` slots that an earlier one has filled ends as one that starts there does, but for RESULT
(R194). -/
theorem decReadLoop_succeeded (m : Nat) {n k : Nat} {s v : State} (h : decReadLoop n k (s.succeeded m) = .done v) :
    ∃ w, decReadLoop n (k + m) s = .done w ∧ { w with running := none } = v.counting m := by
  induction n generalizing k s with
  | zero =>
    cases h
    exact ⟨_, rfl, complete_counting m k _ _⟩
  | succ n ih =>
    have hdec : (s.succeeded m).dec = s.dec := rfl
    have hmatch : matchSymbol (clearCandidate (s.succeeded m)) =
        (matchSymbol (clearCandidate s)).map (·.succeeded m) := matchLoop_succeeded m _ (clearCandidate s)
    rw [decReadLoop, hdec, hmatch] at h
    rw [decReadLoop]
    by_cases hall : s.dec.emitted = s.dec.declared
    · rw [if_pos hall] at h ⊢
      exact drainBody_succeeded m k h
    rw [if_neg hall] at h ⊢
    cases hm : matchSymbol (clearCandidate s) with
    | exhausted u => rw [hm] at h; cases h; exact ⟨_, rfl, readFail_counting m k _ _⟩
    | err u => rw [hm] at h; cases h; exact ⟨_, rfl, readFail_counting m k _ _⟩
    | wait u => rw [hm] at h; cases h
    | got sym u =>
      simp only [hm, SrcResult.map, matchAfter, emitSymbol, doutWrite_succeeded] at h ⊢
      cases hd : doutWrite sym u with
      | none => rw [hd] at h; cases h
      | some w =>
        rw [hd] at h
        rw [Nat.add_right_comm]
        exact ih (s := { w with dec := { w.dec with emitted := w.dec.emitted + 1#32 } }) h

/-- A command after which BUSY is 0 has come to its end. -/
theorem settle_eq_of_idle {cmd : Word} {r : Run} {u : State} (h : settle cmd r = u) (hu : u.running = none) :
    ∃ v, r = .done v ∧ { v with running := none } = u := by
  cases r with
  | done v => exact ⟨v, rfl, h⟩
  | stall w v =>
    obtain rfl := h
    cases hu

end Sys2Proof.Machine
end

section
/-! SUPPORT. A session's stream cut short: its header is cut, or its payload ends inside the code of a byte of the
buffer (`45_decoder.md` R198). -/

namespace Sys2Proof.Machine

/-- Packed digits of which a byte or more is missing are a part of the digits, not all of them (R61). -/
theorem isPrefix_of_packBits_cut {c : Bits} {bytes : List Byte} (h : bytes <+: packBits c)
    (hne : bytes ≠ packBits c) :
    bytes.flatMap byteBits <+: c ∧ bytes.flatMap byteBits ≠ c := by
  obtain ⟨pad, hpad, _⟩ := packBits_digits c
  have hlt : (bytes.flatMap byteBits).length < c.length := by
    have hbytes : bytes.length < (packBits c).length := h.length_le.lt_of_ne fun hl => hne (h.eq_of_length hl)
    rw [length_packBits] at hbytes
    rw [length_flatMap_byteBits]
    omega
  refine ⟨List.prefix_of_prefix_length_le ?_ (List.prefix_append c pad) hlt.le, fun heq => hlt.ne (by rw [heq])⟩
  rw [← hpad]
  obtain ⟨more, hmore⟩ := h
  exact ⟨more.flatMap byteBits, by rw [← List.flatMap_append, hmore]⟩

/-- What lacks digits of a symbol's code begins with no code (R158). -/
theorem not_isPrefix_of_code_cut {e : Encoder} {b : Byte} {left : Bits} (hb : b ∈ e.present)
    (h : left <+: e.derive.writtenCode b) (hne : left ≠ e.derive.writtenCode b) :
    ∀ a ∈ e.present.map e.entry, ¬ a.code <+: left := by
  intro a ha hp
  obtain ⟨c, hc, rfl⟩ := List.mem_map.mp ha
  obtain rfl := eq_of_writtenCode_isPrefix hc hb (hp.trans h)
  exact hne (h.eq_of_length_le hp.length_le)

/-- A session that a stream's header has opened finds a cut payload to end inside a code (R198). -/
theorem exec_decRead_cutPayload {s r : State} (hcount : s.countsBuffer) {bytes : List Byte} {n : Nat}
    {rest : List SrcAnswer} (h : ReadReady r) (ho : r.dec.state = .ready)
    (ht : r.dec.dtab = s.enc.present.map s.enc.entry) (hem : r.dec.emitted = 0#32)
    (hdecl : r.dec.declared = BitVec.ofNat 32 s.enc.buf.length) (hn : r.br.nbits = 0#3) (he : r.br.ended = false)
    (hp : bytes <+: packBits (s.enc.buf.flatMap s.enc.derive.writtenCode))
    (hne : bytes ≠ packBits (s.enc.buf.flatMap s.enc.derive.writtenCode))
    (hs : r.env.src = bytes.map .data ++ .exhausted :: rest) (hroom : s.enc.buf.length ≤ r.env.doutRoom)
    (hle : s.enc.buf.length ≤ n) :
    ∃ t, exec (.decRead n) r = .next t ∧ t.running = none ∧ t.ctl.statusCode = 0x10#8 ∧ t.ctl.rfail = true := by
  obtain ⟨hp, hne⟩ := isPrefix_of_packBits_cut hp hne
  obtain ⟨pre, b, post, left, hbuf, hdigits, hleft, hcut⟩ := isPrefix_flatMap_split hp hne
  have hlen : pre.length < s.enc.buf.length := by
    rw [hbuf, List.length_append, List.length_cons]
    omega
  have hb : b ∈ s.enc.present := (mem_present_iff_mem_buf hcount).mpr (by simp [hbuf])
  have hout : ∀ a ∈ pre.map s.enc.entry, Matchable r.dec.dtab a := fun a ha =>
    ht ▸ matchable_buf hcount (hbuf ▸ List.map_append ▸ List.mem_append_left _ ha)
  have hcodes : (pre.map s.enc.entry).flatMap DtabEntry.code = pre.flatMap s.enc.derive.writtenCode :=
    List.flatMap_map ..
  have hd : r.br.unread ++ bytes.flatMap byteBits = (pre.map s.enc.entry).flatMap DtabEntry.code ++ left := by
    rw [unread_eq_nil.mpr hn, hcodes]
    exact hdigits
  have hlt : r.dec.emitted.toNat + (pre.map s.enc.entry).length < r.dec.declared.toNat := by
    rw [hem, hdecl, List.length_map, BitVec.toNat_ofNat, BitVec.toNat_ofNat,
      Nat.mod_eq_of_lt (hcount.2.trans_lt s.encBufBytes.isLt)]
    omega
  obtain ⟨room, hroom⟩ := Nat.exists_eq_add_of_le (hlen.le.trans hroom)
  exact ⟨_, exec_decRead_stop h (by simp [ho]) hout (ht ▸ not_isPrefix_of_code_cut hb hleft hcut) hlt
    (by rw [List.length_map]; omega) (by rw [List.length_map, hroom]) (ahead_of_stop .exhausted he hs hd)
    (readBitInt_iterate_stop .exhausted he hs hd), rfl, rfl, rfl⟩

end Sys2Proof.Machine
end

section
/-! SUPPORT. The statements of `45_decoder.md`, settled. -/

namespace Sys2Proof.Machine

/-- Settles O37: each descriptor is read whole and put into the table (`exec_decOpen_header`). -/
theorem decOpenParsesHeader : Obligations.DecOpenParsesHeader :=
  fun _ _ _ _ _ hf hd hl ht hs => exec_decOpen_header hf hd hl ht hs

/-- Settles O38: a header cut short ends in one of its integers or descriptors (`headerCut_of_isPrefix`), and each of
these fails where its bytes stop (`decOpenBody_cut`). -/
theorem decOpenPrematureEnd : Obligations.DecOpenPrematureEnd :=
  ⟨fun _ _ _ _ hd hl ht hp hne => headerCut_of_isPrefix hd hl ht hp hne,
    fun _ _ _ _ _ _ _ hf hcut => ⟨fun hs => exec_decOpen_cut (x := .exhausted) hf hcut hs,
      fun e hs => exec_decOpen_cut (x := .err e) hf hcut hs⟩⟩

/-- Settles O39: the descriptors before it have gone into the table, and the last finds no room
(`decOpenBody_overflow`). -/
theorem decOpenTableOverflow : Obligations.DecOpenTableOverflow := by
  intro s count alpha pre d table rest hf hpre hd hl ht hfull hs
  have htaken : (le32Bytes count ++ le32Bytes alpha ++ (pre ++ [d]).flatMap Descriptor.bytes).length =
      8 + ((pre ++ [d]).flatMap Descriptor.bytes).length := List.length_append
  rw [exec_decOpen_of_not_fatal hf, decOpenBody_overflow _ hpre hd hl ht hfull hs, ← htaken]
  rfl

/-- Settles O40: the digits are read code by code (`decReadLoop_decoded`), which takes the bytes given and leaves the
digits after the last code (`iterate_digitRead`). -/
theorem decReadDecodes : Obligations.DecReadDecodes := by
  intro s out bytes left room rest h ho hsound hout hle he hl hd hs hr
  have ha := ahead_of_bytes he hs
  rw [hd, List.append_assoc] at ha
  have hloop := decReadLoop_decoded 0 0 (fun e hm => matchable_of_sound hsound (hout e hm)) hle ha hr
  have hunread := ahead_iterate_digitRead ha
  rw [iterate_digitRead he hs hd hl] at hunread
  have hexec := exec_decRead_ready h ho out.length
  rw [Nat.add_zero, Nat.zero_add, decReadLoop, State.decoded, iterate_digitRead he hs hd hl] at hloop
  rw [hloop] at hexec
  refine ⟨_, hexec, List.append_cancel_right hunread, rfl, ?_⟩
  simp [State.withOut, State.took, complete, Status.code, h.1]

/-- Settles O41: no slot needs no digit; with nothing left to emit Drain reads up to where the source stops. -/
theorem decReadEndOfStream : Obligations.DecReadEndOfStream := by
  intro s h ho
  have hidle : s.running = none := h.1
  refine ⟨?none, ?exhausted, ?ended, ?err⟩
  case none =>
    rw [exec_decRead_ready h ho, decReadLoop]
    simp [complete, Status.code, hidle]
  case exhausted =>
    intro n bytes rest hn hall he hs
    rw [exec_decRead_drains h ho hall hn, drainBody_exhausted 0 he hs]
    simp [complete, Status.code, hidle]
  case ended =>
    intro n hn hall he
    rw [exec_decRead_drains h ho hall hn, drainBody, ← drainAll,
      drainAll_stop (ahead_of_ended he rfl) (readBitInt_iterate_ended he rfl)]
    simp [Stop.result, State.took, complete, Status.code, hidle]
  case err =>
    intro n bytes e rest hn hall he hs
    rw [exec_decRead_drains h ho hall hn, drainBody, ← drainAll,
      drainAll_stop (ahead_of_stop (.err e) he hs rfl) (readBitInt_iterate_stop (.err e) he hs rfl)]
    simp [Stop.result, State.stopped, State.took, BitReader.atField, readFail, Status.code, hidle, he]

/-- Settles O42: the codes before are decoded, and the digits after them are read in vain up to where the source stops
(`exec_decRead_stop`). -/
theorem decReadEndsInsideCode : Obligations.DecReadEndsInsideCode := by
  intro s out bytes left room n h ho hsound hout hmiss hlt hn hd hr
  have hidle : s.running = none := h.1
  have hstops {t : State} {x : Stop} :=
    exec_decRead_stop (t := t) (x := x) h ho (fun e hm => matchable_of_sound hsound (hout e hm)) hmiss hlt hn hr
  refine ⟨?exhausted, ?ended, ?err⟩
  case exhausted =>
    intro rest he hs
    refine ⟨_, hstops (ahead_of_stop .exhausted he hs hd) (readBitInt_iterate_stop .exhausted he hs hd), ?_⟩
    simp [Stop.failure, State.stopped, State.took, State.withOut, BitReader.atField, readFail, Status.code, hidle]
  case ended =>
    intro he hbytes
    rw [hbytes, List.flatMap_nil, List.append_nil] at hd
    refine ⟨_, hstops (ahead_of_ended he hd) (readBitInt_iterate_ended he hd), ?_⟩
    simp [Stop.failure, State.took, State.withOut, readFail, Status.code, hidle]
  case err =>
    intro e rest he hs
    refine ⟨_, hstops (ahead_of_stop (.err e) he hs hd) (readBitInt_iterate_stop (.err e) he hs hd), ?_⟩
    simp [Stop.failure, State.stopped, State.took, State.withOut, BitReader.atField, readFail, Status.code, hidle, he]

/-- Settles O43: the second command's run is the rest of the one run (`decReadLoop_filled`) but for RESULT, which
counts from where it starts (`decReadLoop_succeeded`). -/
theorem decReadSplits : Obligations.DecReadSplits := by
  intro s t u m n h ho hm hr hok hn hu
  rw [exec_decRead_ready h ho, Host.Outcome.next.injEq] at hm
  obtain ⟨_, hsuccess, rfl⟩ := settle_success.mp ⟨hm, hr, hok⟩
  obtain ⟨v, rfl, hloop, hctl, hstate⟩ := decReadLoop_filled n hsuccess
  rw [Nat.zero_add] at hn hloop
  have hready : ReadReady (v.succeeded m) :=
    ⟨rfl, (congrArg Control.fatal hctl).trans h.2.1, (congrArg Control.rfail hctl).trans h.2.2⟩
  have hsecond := (exec_decRead_ready hready (hstate ▸ ho) n).symm.trans hn
  obtain ⟨w, hw, rfl⟩ := settle_eq_of_idle (Host.Outcome.next.inj hsecond) hu
  obtain ⟨w', hw', hend⟩ := decReadLoop_succeeded m hw
  rw [Nat.zero_add] at hw'
  rw [exec_decRead_ready h ho, hloop, hw', settle_done, hend]
  rfl

/-- Settles O45: a cut in the header is a `HeaderCut`; a cut in the payload leaves part of a byte's code, which begins
with no code (`exec_decRead_cutPayload`). -/
theorem truncationDetected : Obligations.TruncationDetected := by
  intro s t h hc hp hcount ht hr hok
  refine ⟨s.enc.stream, sink_of_exec_encFinalize_ok h hcount hc hp ht hr hok,
    fun r k n rest hf hk hs hle hroom => ?_⟩
  have hne : s.enc.stream.take k ≠ s.enc.stream := fun heq => by
    rw [← heq, List.length_take] at hk
    omega
  have hdescs : ∀ d ∈ s.enc.descriptors, d.fits := fun d => fits_of_mem_descriptors
  have hlen : s.enc.descriptors.length < 2 ^ 32 := (length_descriptors_le s.enc).trans_lt (by decide)
  rw [stream_eq] at hs hne
  obtain ⟨hprefix, hshort⟩ | ⟨bytes, htake, hprefix, hbytes⟩ := isPrefix_append_split (List.take_prefix ..) hne
  · obtain ⟨_, _, _, _, hcut⟩ := headerCut_of_isPrefix hdescs hlen (tableOf_descriptors s.enc) hprefix
      (fun heq => hshort.ne (by rw [heq]))
    exact ⟨_, exec_decOpen_cut (x := .exhausted) hf hcut hs, rfl, .inl ⟨rfl, rfl⟩⟩
  · rw [htake, List.map_append, List.append_assoc] at hs
    refine ⟨_, exec_decOpen_header hf hdescs hlen (tableOf_descriptors s.enc) hs, rfl, .inr ⟨rfl, ?_⟩⟩
    exact exec_decRead_cutPayload (r := r.opened _ _ _ _) hcount ⟨rfl, hf, rfl⟩ rfl rfl rfl rfl rfl rfl hprefix hbytes
      rfl hroom hle

end Sys2Proof.Machine
end

section
/-! SUPPORT. The statement of `46_system.md`, settled, with the gate of a command that drives no stream
(`60_exceptions.md` R232). -/

namespace Sys2Proof.Machine

/-- No latched failure and no state check stops a command that drives no stream (R232 step 3). -/
theorem gate_system {i : Instr} {s : State} (hs : sideOf i = .system) (hf : s.ctl.fatal = false) :
    gate i s = .proceed := by
  simp [gate, hs, hf]

/-- SYS.NOP only completes: with the code of a refused command while FATAL is set, and else with OK (R220, R232). -/
theorem exec_sysNop (s : State) :
    exec .sysNop s = .next { complete (if s.ctl.fatal then Status.refusedFatal.code else Status.ok.code) 0#32 s with
      running := none } := by
  show Host.Outcome.next (settle _ (gated _ _ s)) = _
  cases hf : s.ctl.fatal with
  | true => rw [gated_refuse hf]; rfl
  | false => rw [gated_proceed (gate_system rfl hf)]; rfl

/-- Settles O11: FATAL alone picks the code SYS.NOP completes with (`exec_sysNop`), and a word of its UNIT and OP with
an ARG is among the illegal ones (`illegalWords`). -/
theorem nopOnlyCompletes : Obligations.NopOnlyCompletes :=
  ⟨rfl, exec_sysNop, fun w hbyte harg => (illegalWords w).1.mpr (by simp [hbyte, harg])⟩

end Sys2Proof.Machine
end

section
/-! SUPPORT. The gate over every command: whichever command it stops, the execution ends as the gate says
(`60_exceptions.md` R232). -/

namespace Sys2Proof.Machine

/-! ### Executing a command the gate stops -/

/-- A command its gate stops has no other way to go, whatever its body would be; ENC.FINALIZE's own stop (U9) lies
behind the gate. -/
theorem exec_of_gate_ne_proceed {i : Instr} {s : State} (h : gate i s ≠ .proceed) :
    ∃ body, exec i s = .next (runCommand i body s) := by
  cases i with
  | encFinalize => exact ⟨_, if_neg (by simp [h])⟩
  | _ => exact ⟨_, rfl⟩

/-! ### FATAL -/

/-- While FATAL is set the gate refuses every command (R232 step 1). -/
theorem exec_refused (i : Instr) : refusedWhileFatal i := by
  intro s hf
  have hg : gate i s = .refuse := by simp [gate, hf]
  obtain ⟨body, he⟩ := exec_of_gate_ne_proceed (hg.trans_ne nofun)
  rw [he, runCommand, gated_refuse hf]
  rfl

theorem illegalCommand_of_fatal {s : State} (h : s.ctl.fatal = true) (w : Word) :
    illegalCommand w s = refuseFatal s := by
  simp [illegalCommand, h]

/-- While FATAL is set every word is taken from CMD and refused, legal or not (R238). -/
theorem commandStep_of_fatal {s : State} {w : Word} {rest : List Word} (hf : s.ctl.fatal = true)
    (hr : s.running = none) (hc : s.env.cmd = w :: rest) :
    commandStep s = .next (refuseFatal (s.withCmd rest)) := by
  cases hd : decode w with
  | error e => rw [commandStep_illegal hc hd, illegalCommand_of_fatal (s := s.withCmd rest) hf]
  | ok i =>
    rw [commandStep_legal hc hd, exec_refused i (s.withCmd rest) hf, ← hr]
    rfl

/-! ### Latched failures -/

section
variable {i : Instr} {s : State} (ho : isOpen i = false) (hf : s.ctl.fatal = false)
include ho hf

/-- With WFAIL latched a write-side command consumes its operand and no more (R232 step 4). -/
theorem exec_of_wfail (hs : sideOf i = .write) (hw : s.ctl.wfail = true) :
    exec i s = .next (settle (encode i) (discardDin (.complete s.ctl.wcode) (dinOperand i) s)) := by
  have hg : gate i s = .writeFailed := by simp [gate, hs, ho, hf, hw]
  obtain ⟨body, he⟩ := exec_of_gate_ne_proceed (hg.trans_ne nofun)
  rw [he, runCommand, gated_writeFailed hg]

/-- With RFAIL latched a read-side command does nothing (R232 step 4). -/
theorem exec_of_rfail (hs : sideOf i = .read) (hr : s.ctl.rfail = true) :
    exec i s = .next (settle (encode i) (.done (complete s.ctl.rcode 0#32 s))) := by
  have hg : gate i s = .readFailed := by simp [gate, hs, ho, hf, hr]
  obtain ⟨body, he⟩ := exec_of_gate_ne_proceed (hg.trans_ne nofun)
  rw [he, runCommand, gated_readFailed hg]

end

/-- With too few operand bytes on offer all of them are dropped, and the command waits for the rest (R64, R264). -/
theorem discardDin_of_lt (e : Ending) {left : Nat} {s : State} (h : s.env.din.length < left) :
    discardDin e left s = .stall (.discard (left - s.env.din.length) e) (s.droppedDin s.env.din.length) := by
  induction left generalizing s with
  | zero => exact absurd h (Nat.not_lt_zero _)
  | succ left ih =>
    rw [discardDin]
    cases hd : s.env.din with
    | nil =>
      rw [dinRead_none.mpr hd]
      rfl
    | cons b rest =>
      rw [dinRead_cons hd]
      simp only [hd, List.length_cons] at h
      refine (ih (Nat.lt_of_succ_lt_succ h)).trans ?_
      simp [State.droppedDin, hd, Nat.add_assoc, Nat.add_comm 1]

/-! ### State checks -/

theorem settle_done_of_idle {cmd : Word} {s : State} (h : s.running = none) : settle cmd (.done s) = s := by
  rw [settle_done, ← h]

/-- A state check that finds a violation ends the command with the fault (R232 step 5, R233). -/
theorem exec_of_violation {i : Instr} {s : State} {f : Status} (h : gate i s = .violation f) :
    exec i s = .next (settle (encode i) (.done (raise f (encode i) 0 0#8 s))) := by
  obtain ⟨body, he⟩ := exec_of_gate_ne_proceed (h.trans_ne nofun)
  rw [he, runCommand, gated, h]

/-- A state check that makes the command a no-op ends it with OK (R232 step 5). -/
theorem exec_of_noOp {i : Instr} {s : State} (h : gate i s = .noOp) :
    exec i s = .next (settle (encode i) (.done (complete Status.ok.code 0#32 s))) := by
  obtain ⟨body, he⟩ := exec_of_gate_ne_proceed (h.trans_ne nofun)
  rw [he, runCommand, gated, h]

end Sys2Proof.Machine
end

section
/-! SUPPORT. Which commands can clear a latched failure: none but the OPEN command of its side (`60_exceptions.md`
R237). -/

namespace Sys2Proof.Machine

/-- WFAIL set in `c` is set in `d` too unless `i` is ENC.OPEN, and RFAIL unless it is DEC.OPEN. -/
structure Control.LatchesBut (i : Instr) (c d : Control) : Prop where
  wfail : i ≠ .encOpen → c.wfail = true → d.wfail = true
  rfail : i ≠ .decOpen → c.rfail = true → d.rfail = true

section
variable {i : Instr}

theorem Control.LatchesBut.refl (c : Control) : c.LatchesBut i c := ⟨fun _ => id, fun _ => id⟩

theorem Control.LatchesBut.trans {c d e : Control} (h : c.LatchesBut i d) (k : d.LatchesBut i e) : c.LatchesBut i e :=
  ⟨fun hi => k.wfail hi ∘ h.wfail hi, fun hi => k.rfail hi ∘ h.rfail hi⟩

theorem Control.LatchesBut.eq_encOpen {c d : Control} (h : c.LatchesBut i d) (hc : c.wfail = true)
    (hd : d.wfail = false) : i = .encOpen := by
  by_contra hi
  simp [h.wfail hi hc] at hd

theorem Control.LatchesBut.eq_decOpen {c d : Control} (h : c.LatchesBut i d) (hc : c.rfail = true)
    (hd : d.rfail = false) : i = .decOpen := by
  by_contra hi
  simp [h.rfail hi hc] at hd

/-- A move can set a failure flag and clears none. -/
theorem Move.latchesBut {s t : State} (h : Move s t) : s.ctl.LatchesBut i t.ctl := by
  cases h with
  | din h => obtain ⟨rest, _, rfl⟩ := dinRead_some.mp h; exact .refl s.ctl
  | dout h => obtain ⟨room, _, rfl⟩ := doutWrite_some.mp h; exact .refl s.ctl
  | sink b =>
    obtain ⟨_, hr⟩ | ⟨rest, _, hr⟩ | ⟨e, rest, _, hr⟩ := sinkWrite_cases b s <;> rw [hr] <;>
      exact ⟨fun _ => id, fun _ => id⟩
  | source =>
    obtain ⟨_, hr⟩ | ⟨b, rest, _, hr⟩ | ⟨rest, _, hr⟩ | ⟨e, rest, _, hr⟩ := srcRead_cases s <;> rw [hr] <;>
      exact ⟨fun _ => id, fun _ => id⟩
  | writeFail => exact ⟨fun _ _ => rfl, fun _ => id⟩
  | readFail => exact ⟨fun _ => id, fun _ _ => rfl⟩
  | _ => exact ⟨fun _ => id, fun _ => id⟩

theorem Moves.latchesBut {s t : State} (h : Moves s t) : s.ctl.LatchesBut i t.ctl := by
  induction h with
  | refl => exact .refl s.ctl
  | tail _ hm ih => exact ih.trans hm.latchesBut

@[simp] theorem settle_ctl (cmd : Word) (r : Run) : (settle cmd r).ctl = r.state.ctl := by
  cases r <;> rfl

theorem runCommand_latchesBut {body : State → Run} {s : State} (hb : s.ctl.LatchesBut i (body s).state.ctl) :
    s.ctl.LatchesBut i (runCommand i body s).ctl := by
  rw [runCommand, settle_ctl]
  obtain ⟨_, hg⟩ | hg := gated_cases i body s
  · rwa [hg]
  · exact hg.latchesBut

end

/-- The bodies of the OPEN commands start by clearing their side's flag (R170, R191); the others only move. -/
theorem exec_latchesBut {i : Instr} {s t : State} (h : exec i s = .next t) : s.ctl.LatchesBut i t.ctl := by
  cases i with
  | encOpen => cases h; exact runCommand_latchesBut ⟨fun hi => absurd rfl hi, fun _ => id⟩
  | decOpen =>
    have hfresh : s.ctl.LatchesBut .decOpen (freshSession s).ctl := ⟨fun _ => id, fun hi => absurd rfl hi⟩
    cases h
    exact runCommand_latchesBut (hfresh.trans (decOpenBody_moves _ s).latchesBut)
  | encFinalize => rw [execEncFinalize_next h]; exact runCommand_latchesBut (encFinalizeBody_moves _ s).latchesBut
  | sysNop => cases h; exact runCommand_latchesBut (Move.complete _ _ s).latchesBut
  | bwWriteBit c => cases h; exact runCommand_latchesBut (writeBitBody_moves _ c s).latchesBut
  | bwWriteBits n => cases h; exact runCommand_latchesBut (writeBitsLoop_moves _ n 0 s).latchesBut
  | bwWriteRaw n => cases h; exact runCommand_latchesBut (writeRawBody_moves _ n s).latchesBut
  | bwFlush => cases h; exact runCommand_latchesBut (flushBody_moves s).latchesBut
  | bwClose => cases h; exact runCommand_latchesBut (flushBody_moves s).latchesBut
  | brReadBit => cases h; exact runCommand_latchesBut (readBitBody_moves s).latchesBut
  | brReadRaw n => cases h; exact runCommand_latchesBut (readRawBody_moves _ n s).latchesBut
  | brResetAlign => cases h; exact runCommand_latchesBut (resetAlignBody_moves s).latchesBut
  | encWrite n => cases h; exact runCommand_latchesBut (encWriteBody_moves n s).latchesBut
  | decRead n => cases h; exact runCommand_latchesBut (decReadLoop_moves n 0 s).latchesBut

theorem illegalCommand_moves (w : Word) (s : State) : Moves s (illegalCommand w s) := by
  unfold illegalCommand
  split
  · exact (Move.complete _ _ s).moves
  · exact (Move.raise _ _ _ _ s).moves

/-- A step without the reset input clears no failure flag, or executes the command that may clear it. -/
theorem step_latchesBut {s t : State} (hi : s.env.resetIn = false) (h : step s = .next t) :
    (∀ i, s.ctl.LatchesBut i t.ctl) ∨
    (s.running = none ∧ ∃ w rest i, s.env.cmd = w :: rest ∧ decode w = .ok i ∧ s.ctl.LatchesBut i t.ctl) := by
  obtain ⟨hreset, _⟩ | ⟨_, r, _, _, rfl⟩ | ⟨_, _, w, rest, _, _, _, rfl⟩ | ⟨_, hn, w, rest, i, hc, hd, he⟩ :=
    step_cases h
  · simp [hreset] at hi
  · refine .inl fun i => ?_
    rw [settle_ctl]
    exact (resume_moves r.cmd r.wait { s with running := none }).latchesBut
  · exact .inl fun i => (illegalCommand_moves w (s.withCmd rest)).latchesBut
  · exact .inr ⟨hn, w, rest, i, hc, hd, exec_latchesBut (s := s.withCmd rest) he⟩

/-- While FATAL is set no command runs, so a step is a refusal and keeps every other control register (R238). -/
theorem step_ctl_of_fatal {s t : State} (h : s.Inv) (hi : s.env.resetIn = false) (hf : s.ctl.fatal = true)
    (hs : step s = .next t) : t.ctl = (refuseFatal s).ctl := by
  have hn : s.running = none := by
    by_contra hr
    simp [h.notFatal hr] at hf
  rw [step_idle hi hn] at hs
  cases hc : s.env.cmd with
  | nil => rw [commandStep_nil hc] at hs; cases hs
  | cons w rest => rw [commandStep_of_fatal hf hn hc] at hs; cases hs; rfl

end Sys2Proof.Machine
end

section
/-! SUPPORT. The statements of `60_exceptions.md`, settled. -/

namespace Sys2Proof.Machine

/-- Settles O8: the gate stops each of these commands and drops its operand (`exec_of_wfail`), which ends when the
bytes are there and else waits for the rest; the commands without an operand find their 0 bytes there. -/
theorem writeFailureGate : Obligations.WriteFailureGate := by
  intro s hf hw
  refine ⟨fun op n hop => ?operand, fun i hi => ?noOperand⟩
  case operand =>
    obtain ⟨ho, hs, hn⟩ : isOpen (op n) = false ∧ sideOf (op n) = .write ∧ dinOperand (op n) = n := by
      obtain rfl | rfl | rfl := hop <;> exact ⟨rfl, rfl, rfl⟩
    rw [exec_of_wfail ho hf hs hw, hn]
    refine ⟨fun hle => ?_, fun hlt => ?_⟩
    · rw [discardDin_of_le _ hle]
      rfl
    · rw [discardDin_of_lt _ hlt]
      simp [State.droppedDin]
  case noOperand =>
    obtain ⟨ho, hs, hn⟩ : isOpen i = false ∧ sideOf i = .write ∧ dinOperand i = 0 := by
      obtain ⟨c, rfl⟩ | rfl | rfl | rfl := hi <;> exact ⟨rfl, rfl, rfl⟩
    rw [exec_of_wfail ho hf hs hw, hn]
    rfl

/-- Settles O50: under the invariant a step with FATAL set is a refusal (`step_ctl_of_fatal`), and the only step that
clears a failure flag executes the OPEN command of its side (`step_latchesBut`). -/
theorem failureFlagsLatch : Obligations.FailureFlagsLatch := by
  intro s t h hi hs
  refine ⟨fun hf => ?fatal, fun hset hclear => ?wfail, fun hset hclear => ?rfail⟩
  case fatal =>
    rw [step_ctl_of_fatal h hi hf hs]
    exact ⟨hf, rfl, rfl, rfl⟩
  case wfail =>
    obtain hl | ⟨hn, w, rest, i, hc, hd, hl⟩ := step_latchesBut hi hs
    · exact nomatch (hl .sysNop).eq_encOpen hset hclear
    · exact ⟨hn, w, rest, hc, hl.eq_encOpen hset hclear ▸ hd⟩
  case rfail =>
    obtain hl | ⟨hn, w, rest, i, hc, hd, hl⟩ := step_latchesBut hi hs
    · exact nomatch (hl .sysNop).eq_decOpen hset hclear
    · exact ⟨hn, w, rest, hc, hl.eq_decOpen hset hclear ▸ hd⟩

/-- Settles O7: the gate refuses every command (`exec_refused`), and a word is refused whether it is one or not
(`commandStep_of_fatal`). -/
theorem fatalRefusesEverything : Obligations.FatalRefusesEverything := by
  intro s hf
  refine ⟨fun i => exec_refused i s hf, fun w rest hi hr hc => ?_⟩
  rw [step_idle hi hr, commandStep_of_fatal hf hr hc]
  rfl

/-- Settles O9: each of these commands is stopped by the gate (`exec_of_rfail`). -/
theorem readFailureGate : Obligations.ReadFailureGate := by
  intro i s hi hf hr
  obtain ⟨ho, hs⟩ : isOpen i = false ∧ sideOf i = .read := by
    obtain rfl | ⟨n, rfl⟩ | rfl | ⟨n, rfl⟩ := hi <;> exact ⟨rfl, rfl⟩
  rw [exec_of_rfail ho hf hs hr]
  rfl

/-- Settles O10: the gate's verdict in each of the three states, and the end that goes with it. -/
theorem stateChecks : Obligations.StateChecks := by
  intro s hn hf
  refine ⟨fun n hw hc => ?write, fun hw hc => ?finalize, fun n hr hd => ?read⟩
  case write =>
    have hg : gate (.encWrite n) s = .violation .writeAfterClose := by
      simp [gate, isOpen, sideOf, stateCheck, hf, hw, hc]
    rw [exec_of_violation hg, settle_done_of_idle (by exact hn)]
    rfl
  case finalize =>
    have hg : gate .encFinalize s = .noOp := by simp [gate, isOpen, sideOf, stateCheck, hf, hw, hc]
    rw [exec_of_noOp hg, settle_done_of_idle (by exact hn)]
    rfl
  case read =>
    have hg : gate (.decRead n) s = .violation .notOpen := by simp [gate, isOpen, sideOf, stateCheck, hf, hr, hd]
    rw [exec_of_violation hg, settle_done_of_idle (by exact hn)]
    rfl

end Sys2Proof.Machine
end

section
/-! SUPPORT. Answers that come late, for each command and each stalled command (`70_reset_and_hazards.md` R271): with
more supplied its run is the run without it, gone on with from where it stalled. -/

namespace Sys2Proof.Machine

section
variable (x : Supply) (cmd : Word)

/-! ### Bodies -/

theorem writeBitBody_supplied (c : Byte) (s : State) :
    writeBitBody cmd c (s.supplied x) = (writeBitBody cmd c s).supplied cmd x := by
  simp only [writeBitBody, writeBitInt_supplied]
  cases bitOfChar c with
  | none => rfl
  | some v => exact writeBitAfter_supplied x cmd _

theorem flushBody_supplied (s : State) :
    flushAfter (flushInt (s.supplied x)) = (flushAfter (flushInt s)).supplied cmd x := by
  rw [flushInt_supplied, flushAfter_supplied x cmd]

theorem writeRawBody_supplied (n : Nat) (s : State) :
    writeRawBody cmd n (s.supplied x) = (writeRawBody cmd n s).supplied cmd x := by
  by_cases h : s.bw.nbits = 0#3 <;> simp only [writeRawBody, supplied_bw, h, if_true, if_false]
  · exact writeRawLoop_supplied x cmd n 0 s
  · rfl

theorem readRawBody_supplied (n : Nat) (s : State) :
    readRawBody cmd n (s.supplied x) = (readRawBody cmd n s).supplied cmd x := by
  by_cases h : s.br.nbits = 0#3 <;> simp only [readRawBody, supplied_br, h, if_true, if_false]
  · exact readRawLoop_supplied x cmd n 0 s
  · rfl

theorem encWriteBody_supplied (n : Nat) (s : State) :
    encWriteBody n (s.supplied x) = (encWriteBody n s).supplied cmd x := by
  by_cases h : s.encBufBytes.toNat < s.enc.buf.length + n <;>
    simp only [encWriteBody, supplied_enc, supplied_encBufBytes, h, if_true, if_false]
  · exact discardDin_supplied x cmd _ n s
  · exact encWriteLoop_supplied x cmd n n s

theorem encFinalizeBody_supplied (s : State) :
    encFinalizeBody cmd (s.supplied x) = (encFinalizeBody cmd s).supplied cmd x :=
  emitLoop_supplied x cmd _ 0 { s with enc := s.enc.derive }

/-! ### The stalled command -/

theorem writeBitsAfter_supplied (i left : Nat) (r : SinkResult) :
    writeBitsAfter (writeBitsLoop cmd left (i + 1)) i left (r.supplied x) =
      (writeBitsAfter (writeBitsLoop cmd left (i + 1)) i left r).supplied cmd x := by
  cases r with
  | ok k t => exact writeBitsLoop_supplied x cmd left (i + 1) t
  | err t => exact discardDin_supplied x cmd _ left t
  | wait b t => rfl

theorem writeRawAfter_supplied (i left : Nat) (r : SinkResult) :
    writeRawAfter (writeRawLoop left (i + 1)) i left (r.supplied x) =
      (writeRawAfter (writeRawLoop left (i + 1)) i left r).supplied cmd x := by
  cases r with
  | ok k t => exact writeRawLoop_supplied x cmd left (i + 1) t
  | err t => exact discardDin_supplied x cmd _ left t
  | wait b t => rfl

theorem emitAfter_supplied (out : Nat) (todo : List Emit) (r : SinkResult) :
    emitAfter (emitLoop cmd todo) out todo (r.supplied x) =
      (emitAfter (emitLoop cmd todo) out todo r).supplied cmd x := by
  cases r with
  | ok k t => exact emitLoop_supplied x cmd todo (out + k) t
  | err t => exact emitFail_supplied x cmd out t
  | wait b t => rfl

theorem readRawDeliver_supplied (b : Byte) (i left : Nat) (s : State) :
    readRawDeliver (readRawLoop cmd left (i + 1)) b i left (s.supplied x) =
      (readRawDeliver (readRawLoop cmd left (i + 1)) b i left s).supplied cmd x := by
  unfold readRawDeliver
  cases h : doutWrite b s with
  | none => rfl
  | some t => rw [doutWrite_supplied x h]; exact readRawLoop_supplied x cmd left (i + 1) t

theorem emitSymbol_supplied (sym : Byte) (k left : Nat) (s : State) :
    emitSymbol (decReadLoop left (k + 1)) sym k left (s.supplied x) =
      (emitSymbol (decReadLoop left (k + 1)) sym k left s).supplied cmd x := by
  unfold emitSymbol
  cases h : doutWrite sym s with
  | none => rfl
  | some t =>
    rw [doutWrite_supplied x h]
    exact decReadLoop_supplied x cmd left (k + 1) { t with dec := { t.dec with emitted := t.dec.emitted + 1#32 } }

theorem matchAfter_supplied (k left : Nat) (r : SrcResult Byte) :
    matchAfter (decReadLoop left (k + 1)) k left (r.supplied matchSymbol x) =
      (matchAfter (decReadLoop left (k + 1)) k left r).supplied cmd x := by
  cases r with
  | got sym t => exact emitSymbol_supplied x cmd sym k left t
  | exhausted t => rfl
  | err t => rfl
  | wait t => rfl

theorem descLength_supplied (left : Nat) (sym : Byte) (s : State) :
    descLength cmd (descLoop cmd left) left sym (s.supplied x) =
      (descLength cmd (descLoop cmd left) left sym s).supplied cmd x :=
  headerByte_supplied x cmd (fun _ => rfl)
    (fun len t => descBits_supplied x cmd left (descLoop_supplied x cmd left) sym len.toNat [] t) s

/-- A header integer gone on with from the bytes got so far, also with more than its four, which no run has. -/
theorem headerWord_resumed_supplied {w : List Byte → Wait} {next : Word → State → Run}
    (hw : ∀ got t, resume cmd (w got) t = headerWord cmd w next (4 - got.length) got t)
    (hn : ∀ v t, next v (t.supplied x) = (next v t).supplied cmd x) (got : List Byte) (s : State) :
    headerWord cmd w next (4 - got.length) got (s.supplied x) =
      (headerWord cmd w next (4 - got.length) got s).supplied cmd x := by
  by_cases h : got.length ≤ 4
  · refine headerWord_supplied x cmd (fun need got t hg => ?_) hn _ got (Nat.sub_add_cancel h) s
    rw [hw, ← hg, Nat.add_sub_cancel]
  · rw [Nat.sub_eq_zero_of_le (Nat.le_of_not_le h)]
    exact hn _ s

theorem resume_supplied (w : Wait) (s : State) : resume cmd w (s.supplied x) = (resume cmd w s).supplied cmd x := by
  cases w with
  | discard left e => exact discardDin_supplied x cmd e left s
  | writeBit b => simp only [resume, sinkWrite_supplied, writeBitAfter_supplied x cmd]
  | writeBitsDin i left => exact writeBitsLoop_supplied x cmd left i s
  | writeBitsSink b i left => simp only [resume, sinkWrite_supplied, writeBitsAfter_supplied]
  | writeRawDin i left => exact writeRawLoop_supplied x cmd left i s
  | writeRawSink b i left => simp only [resume, sinkWrite_supplied, writeRawAfter_supplied x cmd]
  | flush b => simp only [resume, sinkWrite_supplied, flushAfter_supplied x cmd]
  | readBit => exact readBitBody_supplied x cmd s
  | readRawSrc i left => exact readRawLoop_supplied x cmd left i s
  | readRawDout b i left => exact readRawDeliver_supplied x cmd b i left s
  | encWrite n left => exact encWriteLoop_supplied x cmd n left s
  | encEmit b out todo => simp only [resume, sinkWrite_supplied, emitAfter_supplied]
  | headerCount got =>
    exact headerWord_resumed_supplied x cmd (w := .headerCount) (fun _ _ => rfl) (countKnown_supplied x cmd) got s
  | headerAlpha got =>
    exact headerWord_resumed_supplied x cmd (w := .headerAlpha) (fun _ _ => rfl) (alphaKnown_supplied x cmd) got s
  | descSymbol left => exact descLoop_supplied x cmd left s
  | descLength left sym => exact descLength_supplied x cmd left sym s
  | descBits left sym more code => exact descBits_supplied x cmd left (descLoop_supplied x cmd left) sym more code s
  | matchBit k left => simp only [resume, matchSymbol_supplied, matchAfter_supplied x cmd]
  | emitSymbol sym k left => exact emitSymbol_supplied x cmd sym k left s
  | drain k => exact drainBody_supplied x cmd k s

end

theorem gate_supplied (i : Instr) (x : Supply) (s : State) : gate i (s.supplied x) = gate i s := by
  cases i <;> rfl

theorem illegalCommand_supplied (w : Word) (x : Supply) (s : State) :
    illegalCommand w (s.supplied x) = (illegalCommand w s).supplied x := by
  by_cases h : s.ctl.fatal = true <;> simp only [illegalCommand, supplied_ctl, h, if_true] <;> rfl

theorem ready_supplied {p : Port} {s : State} (h : p.ready s = true) (x : Supply) : p.ready (s.supplied x) = true := by
  cases p <;> simp_all [Port.ready]

/-! ### Commands -/

/-- No move touches the running command or the reset input. -/
theorem Move.keeps_running_resetIn {s t : State} (h : Move s t) :
    t.running = s.running ∧ t.env.resetIn = s.env.resetIn := by
  cases h with
  | din hd => obtain ⟨_, _, rfl⟩ := dinRead_some.mp hd; exact ⟨rfl, rfl⟩
  | dout hd => obtain ⟨_, _, rfl⟩ := doutWrite_some.mp hd; exact ⟨rfl, rfl⟩
  | sink b =>
    obtain ⟨_, hr⟩ | ⟨_, _, hr⟩ | ⟨_, _, _, hr⟩ := sinkWrite_cases b s <;> rw [hr] <;> exact ⟨rfl, rfl⟩
  | source =>
    obtain ⟨_, hr⟩ | ⟨_, _, _, hr⟩ | ⟨_, _, hr⟩ | ⟨_, _, _, hr⟩ := srcRead_cases s <;> rw [hr] <;> exact ⟨rfl, rfl⟩
  | _ => exact ⟨rfl, rfl⟩

theorem Moves.keeps_running_resetIn {s t : State} (h : Moves s t) :
    t.running = s.running ∧ t.env.resetIn = s.env.resetIn := by
  induction h with
  | refl => exact ⟨rfl, rfl⟩
  | tail _ hm ih =>
    obtain ⟨hrun, hreset⟩ := hm.keeps_running_resetIn
    exact ⟨hrun.trans ih.1, hreset.trans ih.2⟩

/-- What R271 asks of the run of the command `cmd`: with more supplied it is the run gone on with from its stall. The
running command and the reset input are not its to change. -/
structure AnswersLate (cmd : Word) (body : State → Run) : Prop where
  supplied : ∀ x s, body (s.supplied x) = (body s).supplied cmd x
  keeps : ∀ s, (body s).state.running = s.running ∧ (body s).state.env.resetIn = s.env.resetIn

/-- `i` executes such a body, and the same one with more supplied. -/
def ExecAnswersLate (i : Instr) : Prop :=
  ∃ body, AnswersLate (encode i) body ∧ ∀ s t, exec i s = .next t →
    t = runCommand i body s ∧ ∀ x, exec i (s.supplied x) = .next (runCommand i body (s.supplied x))

section
variable {cmd : Word} {body : State → Run}

theorem AnswersLate.of_moves (hs : ∀ x s, body (s.supplied x) = (body s).supplied cmd x)
    (hm : ∀ s, Moves s (body s).state) : AnswersLate cmd body :=
  ⟨hs, fun s => (hm s).keeps_running_resetIn⟩

theorem resume_answersLate (cmd : Word) (w : Wait) : AnswersLate cmd (resume cmd w) :=
  .of_moves (fun x => resume_supplied x cmd w) (resume_moves cmd w)

variable {i : Instr}

/-- The gate does not look at the streams, and of its own ends only the dropped operand waits (R232). -/
theorem AnswersLate.gated (h : AnswersLate (encode i) body) : AnswersLate (encode i) (gated i body) where
  supplied x s := by
    unfold Machine.gated
    rw [gate_supplied]
    cases gate i s with
    | proceed => exact h.supplied x s
    | writeFailed => exact discardDin_supplied x _ _ _ s
    | refuse => rfl
    | readFailed => rfl
    | violation f => rfl
    | noOp => rfl
  keeps s := by
    obtain ⟨_, hg⟩ | hg := gated_cases i body s
    · rw [hg]
      exact h.keeps s
    · exact hg.keeps_running_resetIn

theorem ExecAnswersLate.of_body (hb : AnswersLate (encode i) body)
    (he : ∀ s, exec i s = .next (runCommand i body s)) : ExecAnswersLate i :=
  ⟨body, hb, fun s _ h => ⟨(Host.Outcome.next.inj ((he s).symm.trans h)).symm, fun x => he (s.supplied x)⟩⟩

end

/-- Of the commands only ENC.FINALIZE can stop without a body (U9), and what it stops at is in no stream. -/
theorem exec_answersLate (i : Instr) : ExecAnswersLate i := by
  cases i with
  | encFinalize =>
    refine ⟨_, .of_moves (fun x => encFinalizeBody_supplied x _) (encFinalizeBody_moves _), fun s t h => ?_⟩
    refine ⟨execEncFinalize_next h, fun x => ?_⟩
    simp only [exec, execEncFinalize, gate_supplied, supplied_enc] at h ⊢
    split at h
    · cases h
    · next hc => rw [if_neg hc]
  | sysNop =>
    exact .of_body (body := fun s => .done (complete Status.ok.code 0#32 s))
      ⟨fun _ _ => rfl, fun _ => ⟨rfl, rfl⟩⟩ fun _ => rfl
  | bwWriteBit c =>
    exact .of_body (.of_moves (fun x => writeBitBody_supplied x _ c) (writeBitBody_moves _ c)) fun _ => rfl
  | bwWriteBits n =>
    exact .of_body (.of_moves (fun x => writeBitsLoop_supplied x _ n 0) (writeBitsLoop_moves _ n 0)) fun _ => rfl
  | bwWriteRaw n =>
    exact .of_body (.of_moves (fun x => writeRawBody_supplied x _ n) (writeRawBody_moves _ n)) fun _ => rfl
  | bwFlush => exact .of_body (.of_moves (fun x => flushBody_supplied x _) flushBody_moves) fun _ => rfl
  | bwClose => exact .of_body (.of_moves (fun x => flushBody_supplied x _) flushBody_moves) fun _ => rfl
  | brReadBit => exact .of_body (.of_moves (fun x => readBitBody_supplied x _) readBitBody_moves) fun _ => rfl
  | brReadRaw n => exact .of_body (.of_moves (fun x => readRawBody_supplied x _ n) (readRawBody_moves _ n)) fun _ => rfl
  | brResetAlign => exact .of_body (.of_moves (fun _ _ => rfl) resetAlignBody_moves) fun _ => rfl
  | encOpen => exact .of_body ⟨fun _ _ => rfl, fun _ => ⟨rfl, rfl⟩⟩ fun _ => rfl
  | encWrite n => exact .of_body (.of_moves (fun x => encWriteBody_supplied x _ n) (encWriteBody_moves n)) fun _ => rfl
  | decOpen =>
    exact .of_body ⟨fun x => decOpenBody_supplied x _, fun s => (decOpenBody_moves _ s).keeps_running_resetIn⟩
      fun _ => rfl
  | decRead n => exact .of_body (.of_moves (fun x => decReadLoop_supplied x _ n 0) (decReadLoop_moves n 0)) fun _ => rfl

/-! ### A step -/

/-- With `x` supplied beforehand the step from `s` to `t` ends as it does, or goes on from its stall as the next step
would (R271). -/
def State.TakesLate (x : Supply) (s t : State) : Prop :=
  (t.running = none → step (s.supplied x) = .next (t.supplied x)) ∧
  ∀ r, t.running = some r → r.wait.port.ready (t.supplied x) = true → step (s.supplied x) = step (t.supplied x)

/-- The step that ends or stalls a body which R271 holds of: where it stalls, the next step resumes the same run. -/
theorem AnswersLate.takesLate {cmd : Word} {body : State → Run} (h : AnswersLate cmd body) {x : Supply} {s u : State}
    (hn : u.running = none) (hi : u.env.resetIn = false)
    (hs : step (s.supplied x) = .next (settle cmd (body (u.supplied x)))) : s.TakesLate x (settle cmd (body u)) := by
  rw [h.supplied] at hs
  obtain ⟨hrun, hreset⟩ := h.keeps u
  cases hb : body u with
  | done v =>
    rw [hb] at hs
    exact ⟨fun _ => hs, nofun⟩
  | stall w v =>
    rw [hb] at hs hrun hreset
    refine ⟨nofun, fun r hr hready => ?_⟩
    obtain rfl := Option.some.inj hr
    have hidle : settle cmd (.done (v.supplied x)) = v.supplied x := settle_done_of_idle (hrun.trans hn)
    rw [hs, step_running (s := (settle cmd (.stall w v)).supplied x) (hreset.trans hi) hr, eq_comm, resumeStep_next]
    exact ⟨hready, congrArg (fun a => settle cmd (resume cmd w a)) hidle.symm⟩

theorem step_takesLate {s t : State} (x : Supply) (hi : s.env.resetIn = false) (h : step s = .next t) :
    s.TakesLate x t := by
  obtain ⟨hreset, _⟩ | ⟨_, r, hr, hready, rfl⟩ | ⟨_, hn, w, rest, e, hc, hd, rfl⟩ | ⟨_, hn, w, rest, i, hc, hd, he⟩ :=
    step_cases h
  · simp [hreset] at hi
  · refine (resume_answersLate r.cmd r.wait).takesLate (u := { s with running := none }) rfl hi ?_
    rw [step_running (s := s.supplied x) hi hr, resumeStep_next]
    exact ⟨ready_supplied hready x, rfl⟩
  · refine ⟨fun _ => ?_, fun r hr => absurd hr (by simp [hn])⟩
    rw [step_idle (s := s.supplied x) hi hn, commandStep_illegal (s := s.supplied x) hc hd, ← illegalCommand_supplied]
    rfl
  · obtain ⟨body, hb, hexec⟩ := exec_answersLate i
    obtain ⟨rfl, hlate⟩ := hexec _ _ he
    refine hb.gated.takesLate (u := s.withCmd rest) hn hi ?_
    rw [step_idle (s := s.supplied x) hi hn, commandStep_legal (s := s.supplied x) hc hd]
    exact hlate x

end Sys2Proof.Machine
end

section
/-! SUPPORT. Where a run stalls its stream has no answer left (`20_memory.md` R64 to R67, `41_bit_reader.md` R120,
R121). One lemma for each loop of a command. -/

namespace Sys2Proof.Machine

/-- A transaction of stream `p` has to wait. -/
def Port.Dry (s : State) : Port → Prop
  | .din => s.env.din = []
  | .dout => s.env.doutRoom = 0
  | .sink => s.env.sinkAns = []
  | .source => s.env.src = [] ∧ s.br.nbits = 0#3 ∧ s.br.ended = false

/-- If the run stalls, the stream it waits for is dry. -/
def Run.StallsDry : Run → Prop
  | .done _ => True
  | .stall w s => w.port.Dry s

/-- If the sink result waits, the sink is dry. -/
def SinkResult.WaitsDry : SinkResult → Prop
  | .ok _ _ => True
  | .err _ => True
  | .wait _ s => Port.sink.Dry s

/-- If the source result waits, the source is dry. -/
def SrcResult.WaitsDry {α : Type} : SrcResult α → Prop
  | .got _ _ => True
  | .exhausted _ => True
  | .err _ => True
  | .wait s => Port.source.Dry s

/-! ### Micro-operations -/

theorem sinkWrite_waitsDry (b : Byte) (s : State) : (sinkWrite b s).WaitsDry := by
  obtain ⟨hs, hr⟩ | ⟨_, _, hr⟩ | ⟨_, _, _, hr⟩ := sinkWrite_cases b s <;> rw [hr]
  · exact hs
  · trivial
  · trivial

theorem writeBitInt_waitsDry (v : Bool) (s : State) : (writeBitInt v s).WaitsDry := by
  obtain ⟨_, hr⟩ | ⟨_, hr⟩ := writeBitInt_cases v s <;> rw [hr]
  · trivial
  · exact sinkWrite_waitsDry _ _

theorem flushInt_waitsDry (s : State) : (flushInt s).WaitsDry := by
  obtain ⟨_, hr⟩ | ⟨_, hr⟩ := flushInt_cases s <;> rw [hr]
  · trivial
  · exact sinkWrite_waitsDry _ _

theorem readBitInt_waitsDry (s : State) : (readBitInt s).WaitsDry := by
  obtain ⟨_, hr⟩ | ⟨_, _, hr⟩ | ⟨hn, he, hs, hr⟩ | ⟨_, _, _, _, _, hr⟩ | ⟨_, _, _, _, hr⟩ | ⟨_, _, _, _, _, hr⟩ :=
    readBitInt_cases s <;> rw [hr]
  case inr.inr.inl => exact ⟨hs, hn, he⟩
  all_goals trivial

theorem readRawInt_waitsDry {s : State} {r : SrcResult Byte} (h : readRawInt s = .ok r) : r.WaitsDry := by
  obtain ⟨_, hr⟩ | ⟨_, _, hr⟩ | ⟨hn, he, hs, hr⟩ | ⟨_, _, _, _, _, hr⟩ | ⟨_, _, _, _, hr⟩ | ⟨_, _, _, _, _, hr⟩ :=
    readRawInt_cases s <;> rw [hr] at h <;> cases h
  case inr.inr.inl => exact ⟨hs, hn, he⟩
  all_goals trivial

theorem matchSymbol_waitsDry (s : State) : (matchSymbol s).WaitsDry := by
  cases h : matchSymbol s with
  | wait t =>
    obtain ⟨hn, he, hs, _, _⟩ := matchSymbol_wait h
    exact ⟨hs, hn, he⟩
  | got sym t => trivial
  | exhausted t => trivial
  | err t => trivial

/-- The drain loop waits only where a read does, since its fuel covers every bit (`readBitInt_got_lt`). -/
theorem drainLoop_waitsDry {fuel : Nat} {s : State} (h : unreadCount s < fuel) : (drainLoop fuel s).WaitsDry := by
  induction fuel generalizing s with
  | zero => omega
  | succ fuel ih =>
    have hd := readBitInt_waitsDry s
    rw [drainLoop]
    cases hb : readBitInt s with
    | got v t =>
      have := readBitInt_got_lt hb
      exact ih (by omega)
    | wait t => rwa [hb] at hd
    | exhausted t => trivial
    | err t => trivial

/-! ### Write-side loops -/

theorem discardDin_stallsDry (e : Ending) (left : Nat) (s : State) : (discardDin e left s).StallsDry := by
  induction left generalizing s with
  | zero => trivial
  | succ left ih =>
    rw [discardDin]
    cases h : dinRead s with
    | none => exact dinRead_none.mp h
    | some p => exact ih p.2

theorem writeBitAfter_stallsDry {r : SinkResult} (h : r.WaitsDry) : (writeBitAfter r).StallsDry := by
  cases r with
  | wait b t => exact h
  | ok k t => trivial
  | err t => trivial

theorem flushAfter_stallsDry {r : SinkResult} (h : r.WaitsDry) : (flushAfter r).StallsDry := by
  cases r with
  | wait b t => exact h
  | ok k t => trivial
  | err t => trivial

theorem writeBitBody_stallsDry (cmd : Word) (c : Byte) (s : State) : (writeBitBody cmd c s).StallsDry := by
  rw [writeBitBody]
  cases bitOfChar c with
  | none => trivial
  | some v => exact writeBitAfter_stallsDry (writeBitInt_waitsDry v s)

theorem writeBitsAfter_stallsDry {next : State → Run} (hn : ∀ t, (next t).StallsDry) (i left : Nat) {r : SinkResult}
    (h : r.WaitsDry) : (writeBitsAfter next i left r).StallsDry := by
  cases r with
  | ok k t => exact hn t
  | err t => exact discardDin_stallsDry _ left t
  | wait b t => exact h

theorem writeBitsLoop_stallsDry (cmd : Word) (left i : Nat) (s : State) : (writeBitsLoop cmd left i s).StallsDry := by
  induction left generalizing i s with
  | zero => trivial
  | succ left ih =>
    rw [writeBitsLoop]
    cases h : dinRead s with
    | none => exact dinRead_none.mp h
    | some p =>
      simp only
      cases bitOfChar p.1 with
      | none => trivial
      | some v => exact writeBitsAfter_stallsDry (ih (i + 1)) i left (writeBitInt_waitsDry v p.2)

theorem writeRawAfter_stallsDry {next : State → Run} (hn : ∀ t, (next t).StallsDry) (i left : Nat) {r : SinkResult}
    (h : r.WaitsDry) : (writeRawAfter next i left r).StallsDry := by
  cases r with
  | ok k t => exact hn t
  | err t => exact discardDin_stallsDry _ left t
  | wait b t => exact h

theorem writeRawLoop_stallsDry (left i : Nat) (s : State) : (writeRawLoop left i s).StallsDry := by
  induction left generalizing i s with
  | zero => trivial
  | succ left ih =>
    rw [writeRawLoop]
    cases h : dinRead s with
    | none => exact dinRead_none.mp h
    | some p => exact writeRawAfter_stallsDry (ih (i + 1)) i left (sinkWrite_waitsDry p.1 p.2)

theorem writeRawBody_stallsDry (cmd : Word) (n : Nat) (s : State) : (writeRawBody cmd n s).StallsDry := by
  unfold writeRawBody
  split
  · exact writeRawLoop_stallsDry n 0 s
  · trivial

theorem encWriteLoop_stallsDry (n left : Nat) (s : State) : (encWriteLoop n left s).StallsDry := by
  induction left generalizing s with
  | zero => trivial
  | succ left ih =>
    rw [encWriteLoop]
    cases h : dinRead s with
    | none => exact dinRead_none.mp h
    | some p => exact ih _

theorem encWriteBody_stallsDry (n : Nat) (s : State) : (encWriteBody n s).StallsDry := by
  unfold encWriteBody
  split
  · exact discardDin_stallsDry _ n s
  · exact encWriteLoop_stallsDry n n s

theorem emitAfter_stallsDry {next : Nat → State → Run} (hn : ∀ k t, (next k t).StallsDry) (out : Nat)
    (todo : List Emit) {r : SinkResult} (h : r.WaitsDry) : (emitAfter next out todo r).StallsDry := by
  cases r with
  | ok k t => exact hn _ t
  | err t => trivial
  | wait b t => exact h

theorem emitLoop_stallsDry (cmd : Word) (todo : List Emit) (out : Nat) (s : State) :
    (emitLoop cmd todo out s).StallsDry := by
  induction todo generalizing out s with
  | nil => trivial
  | cons op todo ih =>
    cases op with
    | raw b =>
      rw [emitLoop]
      by_cases h : s.bw.nbits = 0#3
      · rw [writeRawInt_aligned h]
        exact emitAfter_stallsDry ih out todo (sinkWrite_waitsDry b s)
      · rw [writeRawInt_misaligned h]
        trivial
    | bit v => exact emitAfter_stallsDry ih out todo (writeBitInt_waitsDry v s)
    | flush => exact emitAfter_stallsDry ih out todo (flushInt_waitsDry s)

/-! ### Read-side loops -/

theorem readBitBody_stallsDry (s : State) : (readBitBody s).StallsDry := by
  have h := readBitInt_waitsDry s
  rw [readBitBody]
  cases hb : readBitInt s with
  | wait t => rwa [hb] at h
  | got v t => trivial
  | exhausted t => trivial
  | err t => trivial

theorem readRawDeliver_stallsDry {next : State → Run} (hn : ∀ t, (next t).StallsDry) (b : Byte) (i left : Nat)
    (s : State) : (readRawDeliver next b i left s).StallsDry := by
  rw [readRawDeliver]
  cases h : doutWrite b s with
  | none => exact doutWrite_none.mp h
  | some t => exact hn t

theorem readRawLoop_stallsDry (cmd : Word) (left i : Nat) (s : State) : (readRawLoop cmd left i s).StallsDry := by
  induction left generalizing i s with
  | zero => trivial
  | succ left ih =>
    rw [readRawLoop]
    match h : readRawInt s with
    | .ok (.got b t) => exact readRawDeliver_stallsDry (ih (i + 1)) b i left t
    | .ok (.wait t) => exact readRawInt_waitsDry h
    | .error _ | .ok (.exhausted _) | .ok (.err _) => trivial

theorem readRawBody_stallsDry (cmd : Word) (n : Nat) (s : State) : (readRawBody cmd n s).StallsDry := by
  unfold readRawBody
  split
  · exact readRawLoop_stallsDry cmd n 0 s
  · trivial

theorem headerByte_stallsDry (cmd : Word) {w : Wait} (hw : w.port = .source) {next : Byte → State → Run}
    (hn : ∀ b t, (next b t).StallsDry) (s : State) : (headerByte cmd w next s).StallsDry := by
  rw [headerByte]
  match h : readRawInt s with
  | .ok (.got b t) => exact hn b t
  | .ok (.wait t) =>
    show w.port.Dry t
    rw [hw]
    exact readRawInt_waitsDry h
  | .error _ | .ok (.exhausted _) | .ok (.err _) => trivial

theorem headerWord_stallsDry (cmd : Word) {w : List Byte → Wait} (hw : ∀ got, (w got).port = .source)
    {next : Word → State → Run} (hn : ∀ v t, (next v t).StallsDry) (need : Nat) (got : List Byte) (s : State) :
    (headerWord cmd w next need got s).StallsDry := by
  induction need generalizing got s with
  | zero => exact hn _ s
  | succ need ih => exact headerByte_stallsDry cmd (hw got) (fun b t => ih (got ++ [b]) t) s

theorem descInsert_stallsDry {next : State → Run} (hn : ∀ t, (next t).StallsDry) (sym : Byte) (code : Bits)
    (s : State) : (descInsert next sym code s).StallsDry := by
  rw [descInsert]
  cases dtabInsert code sym (resetAlignInt s).2.dec.dtab with
  | none => trivial
  | some table => exact hn _

theorem descBits_stallsDry {next : State → Run} (hn : ∀ t, (next t).StallsDry) (left : Nat) (sym : Byte) (more : Nat)
    (code : Bits) (s : State) : (descBits next left sym more code s).StallsDry := by
  induction more generalizing code s with
  | zero => exact descInsert_stallsDry hn sym code s
  | succ more ih =>
    have hd := readBitInt_waitsDry s
    rw [descBits]
    cases hb : readBitInt s with
    | got v t => exact ih _ t
    | wait t => rwa [hb] at hd
    | exhausted t => trivial
    | err t => trivial

theorem descLength_stallsDry (cmd : Word) {next : State → Run} (hn : ∀ t, (next t).StallsDry) (left : Nat)
    (sym : Byte) (s : State) : (descLength cmd next left sym s).StallsDry :=
  headerByte_stallsDry cmd rfl (fun len t => descBits_stallsDry hn left sym len.toNat [] t) s

theorem descLoop_stallsDry (cmd : Word) (left : Nat) (s : State) : (descLoop cmd left s).StallsDry := by
  induction left generalizing s with
  | zero => trivial
  | succ left ih => exact headerByte_stallsDry cmd rfl (fun sym t => descLength_stallsDry cmd ih left sym t) s

theorem alphaKnown_stallsDry (cmd v : Word) (s : State) : (alphaKnown cmd v s).StallsDry :=
  descLoop_stallsDry cmd v.toNat _

theorem countKnown_stallsDry (cmd v : Word) (s : State) : (countKnown cmd v s).StallsDry :=
  headerWord_stallsDry cmd (fun _ => rfl) (alphaKnown_stallsDry cmd) 4 [] _

theorem decOpenBody_stallsDry (cmd : Word) (s : State) : (decOpenBody cmd s).StallsDry :=
  headerWord_stallsDry cmd (fun _ => rfl) (countKnown_stallsDry cmd) 4 [] _

theorem drainBody_stallsDry (k : Nat) (s : State) : (drainBody k s).StallsDry := by
  have h := drainLoop_waitsDry (unreadCount_lt_readFuel s)
  rw [drainBody]
  cases hd : drainLoop (readFuel s) s with
  | wait t => rwa [hd] at h
  | got v t => exact v.elim
  | exhausted t => trivial
  | err t => trivial

theorem emitSymbol_stallsDry {next : State → Run} (hn : ∀ t, (next t).StallsDry) (sym : Byte) (k left : Nat)
    (s : State) : (emitSymbol next sym k left s).StallsDry := by
  rw [emitSymbol]
  cases h : doutWrite sym s with
  | none => exact doutWrite_none.mp h
  | some t => exact hn _

theorem matchAfter_stallsDry {next : State → Run} (hn : ∀ t, (next t).StallsDry) (k left : Nat) {r : SrcResult Byte}
    (h : r.WaitsDry) : (matchAfter next k left r).StallsDry := by
  cases r with
  | got sym t => exact emitSymbol_stallsDry hn sym k left t
  | wait t => exact h
  | exhausted t => trivial
  | err t => trivial

theorem decReadLoop_stallsDry (left k : Nat) (s : State) : (decReadLoop left k s).StallsDry := by
  induction left generalizing k s with
  | zero => trivial
  | succ left ih =>
    rw [decReadLoop]
    split
    · exact drainBody_stallsDry k s
    · exact matchAfter_stallsDry (ih (k + 1)) k left (matchSymbol_waitsDry _)

/-! ### Commands, stalled commands and steps -/

theorem gated_stallsDry {body : State → Run} {s : State} (h : (body s).StallsDry) (i : Instr) :
    (gated i body s).StallsDry := by
  unfold gated
  cases gate i s with
  | proceed => exact h
  | writeFailed => exact discardDin_stallsDry _ _ s
  | refuse => trivial
  | readFailed => trivial
  | violation f => trivial
  | noOp => trivial

theorem resume_stallsDry (cmd : Word) (w : Wait) (s : State) : (resume cmd w s).StallsDry := by
  cases w with
  | discard left e => exact discardDin_stallsDry e left s
  | writeBit b => exact writeBitAfter_stallsDry (sinkWrite_waitsDry b s)
  | writeBitsDin i left => exact writeBitsLoop_stallsDry cmd left i s
  | writeBitsSink b i left =>
    exact writeBitsAfter_stallsDry (writeBitsLoop_stallsDry cmd left (i + 1)) i left (sinkWrite_waitsDry b s)
  | writeRawDin i left => exact writeRawLoop_stallsDry left i s
  | writeRawSink b i left =>
    exact writeRawAfter_stallsDry (writeRawLoop_stallsDry left (i + 1)) i left (sinkWrite_waitsDry b s)
  | flush b => exact flushAfter_stallsDry (sinkWrite_waitsDry b s)
  | readBit => exact readBitBody_stallsDry s
  | readRawSrc i left => exact readRawLoop_stallsDry cmd left i s
  | readRawDout b i left => exact readRawDeliver_stallsDry (readRawLoop_stallsDry cmd left (i + 1)) b i left s
  | encWrite n left => exact encWriteLoop_stallsDry n left s
  | encEmit b out todo => exact emitAfter_stallsDry (emitLoop_stallsDry cmd todo) out todo (sinkWrite_waitsDry b s)
  | headerCount got => exact headerWord_stallsDry cmd (fun _ => rfl) (countKnown_stallsDry cmd) _ got s
  | headerAlpha got => exact headerWord_stallsDry cmd (fun _ => rfl) (alphaKnown_stallsDry cmd) _ got s
  | descSymbol left => exact descLoop_stallsDry cmd left s
  | descLength left sym => exact descLength_stallsDry cmd (descLoop_stallsDry cmd left) left sym s
  | descBits left sym more code => exact descBits_stallsDry (descLoop_stallsDry cmd left) left sym more code s
  | matchBit k left => exact matchAfter_stallsDry (decReadLoop_stallsDry left (k + 1)) k left (matchSymbol_waitsDry s)
  | emitSymbol sym k left => exact emitSymbol_stallsDry (decReadLoop_stallsDry left (k + 1)) sym k left s
  | drain k => exact drainBody_stallsDry k s

/-- A command that runs in `s` waits for a dry stream. -/
def State.WaitsDry (s : State) : Prop := ∀ r, s.running = some r → r.wait.port.Dry s

theorem State.waitsDry_of_idle {s : State} (h : s.running = none) : s.WaitsDry :=
  fun _ hr => nomatch h.symm.trans hr

theorem settle_waitsDry {r : Run} (h : r.StallsDry) (cmd : Word) : (settle cmd r).WaitsDry := by
  cases r with
  | done t => exact State.waitsDry_of_idle rfl
  | stall w t =>
    rintro _ ⟨⟩
    cases hw : w.port <;> simpa [Run.StallsDry, hw, Port.Dry] using h

theorem exec_waitsDry {i : Instr} {s t : State} (h : exec i s = .next t) : t.WaitsDry := by
  have of_body {body : State → Run} (hb : (body s).StallsDry) : (runCommand i body s).WaitsDry :=
    settle_waitsDry (gated_stallsDry hb i) _
  cases i with
  | encFinalize => rw [execEncFinalize_next h]; exact of_body (emitLoop_stallsDry _ _ 0 _)
  | sysNop => cases h; exact of_body trivial
  | bwWriteBit c => cases h; exact of_body (writeBitBody_stallsDry _ c s)
  | bwWriteBits n => cases h; exact of_body (writeBitsLoop_stallsDry _ n 0 s)
  | bwWriteRaw n => cases h; exact of_body (writeRawBody_stallsDry _ n s)
  | bwFlush => cases h; exact of_body (flushAfter_stallsDry (flushInt_waitsDry s))
  | bwClose => cases h; exact of_body (flushAfter_stallsDry (flushInt_waitsDry s))
  | brReadBit => cases h; exact of_body (readBitBody_stallsDry s)
  | brReadRaw n => cases h; exact of_body (readRawBody_stallsDry _ n s)
  | brResetAlign => cases h; exact of_body trivial
  | encOpen => cases h; exact of_body trivial
  | encWrite n => cases h; exact of_body (encWriteBody_stallsDry n s)
  | decOpen => cases h; exact of_body (decOpenBody_stallsDry _ s)
  | decRead n => cases h; exact of_body (decReadLoop_stallsDry n 0 s)

theorem step_waitsDry {s t : State} (h : step s = .next t) : t.WaitsDry := by
  obtain ⟨_, rfl⟩ | ⟨_, r, _, _, rfl⟩ | ⟨_, hn, w, rest, e, _, _, rfl⟩ | ⟨_, _, w, rest, i, _, _, he⟩ := step_cases h
  · exact State.waitsDry_of_idle rfl
  · exact settle_waitsDry (resume_stallsDry r.cmd r.wait _) r.cmd
  · exact State.waitsDry_of_idle (by simpa using hn)
  · exact exec_waitsDry he

end Sys2Proof.Machine
end

section
/-! SUPPORT. The statements of `70_reset_and_hazards.md`, settled. -/

namespace Sys2Proof.Machine

/-- Settles O54: a step runs a command's body, and with more supplied a body is what it was, gone on with from its stall
(`AnswersLate`). -/
theorem answersMayComeLate : Obligations.AnswersMayComeLate :=
  fun _ _ x hi h => step_takesLate x hi h

/-- Settles O53: each loop stalls only at a micro-operation that waits, and that one waits only for a dry stream
(`step_waitsDry`). -/
theorem stallsAreReal : Obligations.StallsAreReal := by
  intro s t r h hr
  have hd := step_waitsDry h r hr
  exact ⟨fun hp => (hp ▸ hd :), fun hp => (hp ▸ hd :), fun hp => (hp ▸ hd :), fun hp => (hp ▸ hd :)⟩

/-- Settles O59: the step is `resetBlock`, which lowers the input. -/
theorem resetInputReleased : Obligations.ResetInputReleased :=
  fun s h => ⟨resetBlock s, step_reset h, rfl⟩

end Sys2Proof.Machine
end
